-- ==== Sys2Proof/Word.lean ====
section
/-! DEFINITION. The bit-vector types of the block: a byte, a nibble, a host word and a host-port address (spec/00_scope.md R7, spec/20_memory.md R60). -/

namespace Sys2Proof

/-- A byte is 8 bits, numbered 7 to 0 (R7). -/
abbrev Byte := BitVec 8

/-- A nibble of the frame codec (R194, R220). -/
abbrev Nibble := BitVec 4

/-- A command word, and a host-port register as the host reads it (R20, R80). -/
abbrev Word := BitVec 32

/-- A host-port address: HOST_AW = 9 bits (R60). -/
abbrev HostAddr := BitVec 9

end Sys2Proof
end

