-- ==== Sys2Proof/Machine/Bits.lean ====
section
/-! DEFINITION. The bit and byte conversions of spec/00_scope.md R10 and the little-endian packing of spec/20_memory.md R62. -/

namespace Sys2Proof.Machine

/-- The bits of a byte, bit 7 first (R66). -/
def byteBits (b : Byte) : List Bool :=
  [b.getLsbD 7, b.getLsbD 6, b.getLsbD 5, b.getLsbD 4, b.getLsbD 3, b.getLsbD 2, b.getLsbD 1, b.getLsbD 0]

/-- `bits_msb` (R10). -/
def bitsMsb (s : List Byte) : List Bool := s.flatMap byteBits

/-- The byte whose bits are given, bit 7 first. -/
def byteOfBits (x7 x6 x5 x4 x3 x2 x1 x0 : Bool) : Byte :=
  BitVec.ofNat 8 (x7.toNat * 128 + x6.toNat * 64 + x5.toNat * 32 + x4.toNat * 16 + x3.toNat * 8 + x2.toNat * 4
    + x1.toNat * 2 + x0.toNat)

/-- `pack_msb` (R10): a final partial group produces no byte (D21). -/
def packMsb : List Bool → List Byte
  | x7 :: x6 :: x5 :: x4 :: x3 :: x2 :: x1 :: x0 :: rest => byteOfBits x7 x6 x5 x4 x3 x2 x1 x0 :: packMsb rest
  | _ => []

/-- Four bytes as one host word, the first in bits 7:0 (R62). -/
def wordOfBytes (b0 b1 b2 b3 : Byte) : Word := b3 ++ b2 ++ b1 ++ b0

/-- Byte `j` of a host word: bits [8j+7:8j] (R62). -/
def byteOfWord (w : Word) (j : Nat) : Byte := w.extractLsb' (8 * j) 8

/-- A count as the 8-bit field that holds it (R36, R38). -/
def countByte (n : Nat) : Byte := BitVec.ofNat 8 n

end Sys2Proof.Machine
end

