-- ==== Sys2Proof/Config.lean ====
section
/-! DEFINITION. The parameter table of spec/00_scope.md R6, one constant per row under the row's own name, and the free values. Rows whose origin is "general knowledge" are marked PRESUMED (log 9). -/

namespace Sys2Proof.Config

/-! Rows from the source and from the spec's decisions. -/

/-- Maximum RawFrame length and exact Packet length. -/
@[simp] abbrev FRAME_LEN : Nat := 60
/-- The header bytes, in order. -/
@[simp] abbrev HDR : List Byte := [0x00#8, 0xB3#8, 0x2A#8, 0xAB#8, 0x2A#8]
@[simp] abbrev FTR_EVEN : Byte := 0xAC#8
@[simp] abbrev FTR_ODD : Byte := 0xCA#8
/-- Postamble byte. -/
@[simp] abbrev POST : Byte := 0xAA#8
/-- Command indicator byte. -/
@[simp] abbrev IND : Byte := 0x16#8
/-- Stop-bit value (1). -/
@[simp] abbrev STOP : Bool := true
/-- Longest CommandFrame that fits in FRAME_LEN (R228). -/
@[simp] abbrev MAX_CMD : Nat := 21
/-- Last configuration register. -/
@[simp] abbrev CFG_LAST : Byte := 0x2E#8
@[simp] abbrev STAT_FIRST : Byte := 0x30#8
@[simp] abbrev STAT_LAST : Byte := 0x3D#8
@[simp] abbrev PA_ADDR : Byte := 0x3E#8
@[simp] abbrev PA_MAX : Nat := 8
/-- Read = RX FIFO, write = TX FIFO. -/
@[simp] abbrev FIFO_ADDR : Byte := 0x3F#8
@[simp] abbrev RXBYTES_MASK : Byte := 0x7F#8
@[simp] abbrev STUCK_LIMIT : Nat := 200
@[simp] abbrev RSSI_OFFSET : Int := 74
@[simp] abbrev VERSION_BAD : List Byte := [0x00#8, 0xFF#8]
/-- Byte sent while reading (D10). -/
@[simp] abbrev DUMMY : Byte := 0x00#8
@[simp] abbrev RXBUF_SIZE : Nat := 60
@[simp] abbrev TXBUF_SIZE : Nat := 60
@[simp] abbrev CMDBUF_SIZE : Nat := 32
@[simp] abbrev DECBUF_SIZE : Nat := 21
/-- Edge counter width in bits (D29). -/
@[simp] abbrev IRQ_CNT_W : Nat := 32

/-! PRESUMED: the rows the spec itself marks "from general knowledge, not in source" (log 9). -/

@[simp] abbrev ADDR_PARTNUM : Byte := 0x30#8
@[simp] abbrev ADDR_VERSION : Byte := 0x31#8
@[simp] abbrev ADDR_FREQEST : Byte := 0x32#8
@[simp] abbrev ADDR_RSSI : Byte := 0x34#8
/-- The run-state register. -/
@[simp] abbrev ADDR_MARCSTATE : Byte := 0x35#8
@[simp] abbrev ADDR_WORTIME1 : Byte := 0x36#8
@[simp] abbrev ADDR_WORTIME0 : Byte := 0x37#8
@[simp] abbrev ADDR_TXBYTES : Byte := 0x3A#8
@[simp] abbrev ADDR_RXBYTES : Byte := 0x3B#8
/-- The registers that are read until stable (membership from the source). -/
@[simp] abbrev GLITCH_SET : List Byte :=
  [ADDR_FREQEST, ADDR_MARCSTATE, ADDR_RXBYTES, ADDR_TXBYTES, ADDR_WORTIME1, ADDR_WORTIME0]
@[simp] abbrev S_SRES : Byte := 0x30#8
@[simp] abbrev S_SRX : Byte := 0x34#8
@[simp] abbrev S_STX : Byte := 0x35#8
@[simp] abbrev S_SIDLE : Byte := 0x36#8
@[simp] abbrev S_SFRX : Byte := 0x3A#8
@[simp] abbrev S_SFTX : Byte := 0x3B#8
@[simp] abbrev MARC_MASK : Byte := 0x1F#8
@[simp] abbrev MARC_IDLE : Byte := 0x01#8
@[simp] abbrev MARC_RX : Byte := 0x0D#8
@[simp] abbrev MARC_RXOVF : Byte := 0x11#8
@[simp] abbrev MARC_TX : Byte := 0x13#8
@[simp] abbrev MARC_TXUNF : Byte := 0x16#8
@[simp] abbrev HDR_READ : Byte := 0x80#8
@[simp] abbrev HDR_BURST : Byte := 0x40#8

/-! Free values: no body, so nothing can be proved of them (logs 2 and 3). -/

/-- The transceiver's answer byte number `n` where the state lists none (I4, log 2). -/
opaque freeAnswer : Nat → Byte

/-- The word a host read draws at counter value `n` (I2, I6, log 3). -/
opaque freeWord : Nat → Word

end Sys2Proof.Config
end

