-- ==== Sys2Proof/Machine/State.lean ====
section
/-! DEFINITION. The state of the block as spec/10_state.md gives it, plain data, with the other agents' data and the observation beside it, and its reset value (spec/70_reset_and_hazards.md R341). -/

namespace Sys2Proof.Machine

/-- The four byte buffers (R42). -/
inductive Buf where
  | rxbuf
  | txbuf
  | cmdbuf
  | decbuf
  deriving DecidableEq, Repr

/-- Memory: the buffer bytes that are defined, keyed by host address, addresses strictly rising. An address that is not
listed reads as no value: its defined bit is 0 (R43, log 8). -/
abbrev Memory := List Host.Cell

/-- The error codes of R303. No other code is ever written. -/
inductive ErrCode where
  | ok
  | illegalOp
  | range
  | len
  | chipNotFound
  | notInit
  | noAddr
  deriving DecidableEq, Repr

/-- The fields of STATUS (R22). -/
structure Status where
  busy : Bool
  done : Bool
  chipOk : Bool
  pktFound : Bool
  decValid : Bool
  warnCfg : Bool
  warnPa : Bool
  hviol : Bool
  addrSet : Bool
  err : ErrCode
  lastop : Byte
  deriving DecidableEq, Repr

/-- The fields of LENS (R36). -/
structure Lens where
  rxlen : Byte
  declen : Byte
  cmdlen : Byte
  txlen : Byte
  deriving DecidableEq, Repr

/-- The fields of CHIPID (R37). -/
structure ChipId where
  partnum : Byte
  version : Byte
  deriving DecidableEq, Repr

/-- The fields of DECINFO (R38). -/
structure DecInfo where
  hoff : Byte
  ftr : Byte
  plen : Byte
  deriving DecidableEq, Repr

/-- Positions inside `ForceIdle` (R170). In every position below, `v1` is the local of a read-until-stable (R104):
`none` before the first read of a pair, `some v` after it read `v`. -/
inductive IdlePlace where
  /-- Next: Strobe(S_SIDLE). -/
  | strobe
  /-- Next: a read of the run-state poll. -/
  | poll (v1 : Option Byte)
  deriving DecidableEq, Repr

/-- Positions inside `EnterRx` and `EnterTx` (R171 to R173). -/
inductive EnterPlace where
  /-- Inside the ForceIdle it begins with. -/
  | idle (p : IdlePlace)
  /-- Next: Strobe(S_SRX) or Strobe(S_STX). -/
  | strobe
  /-- Next: a read of the poll for the target state. -/
  | poll (v1 : Option Byte)
  /-- Next: the stuck detector's flush strobe. -/
  | stuckFlush
  /-- Next: the stuck detector's repeated entry strobe. -/
  | stuckStrobe
  deriving DecidableEq, Repr

/-- The position k inside a command's pseudocode: the next bus transaction or computation to perform, with the locals
that are live there (R44, R47, log 1). -/
inductive Pos where
  /-- The beginning: decode and checks, then the first transaction or computation. -/
  | start
  /-- INIT, next: a read of ADDR_PARTNUM. -/
  | initPart (v1 : Option Byte)
  /-- INIT, next: a read of ADDR_VERSION. -/
  | initVersion (part : Byte) (v1 : Option Byte)
  /-- INIT, next: Strobe(S_SFRX). -/
  | initFlushRx
  /-- INIT, next: Strobe(S_SFTX). -/
  | initFlushTx
  /-- RREG, next: a further read of the register. -/
  | rregRead (v1 : Option Byte)
  /-- RSSI, next: a further read of ADDR_RSSI. -/
  | rssiRead (v1 : Option Byte)
  /-- RSSI, next: the conversion of `raw`. -/
  | rssiConvert (raw : Byte)
  /-- SEND of the bytes `bytes`, inside EnterTx. -/
  | sendEnter (bytes : List Byte) (p : EnterPlace)
  /-- SEND, next: the burst write of `bytes`. -/
  | sendBurst (bytes : List Byte)
  /-- SEND, next: a read of the completion poll. -/
  | sendPoll (v1 : Option Byte)
  /-- RECV, next: a further read of the byte count. -/
  | recvCount (v1 : Option Byte)
  /-- RECV, next: the burst read of `n` bytes. -/
  | recvBurst (n : Nat)
  /-- IDLE, inside ForceIdle. -/
  | idleWait (p : IdlePlace)
  /-- RXON, inside EnterRx. -/
  | rxonWait (p : EnterPlace)
  /-- RXON, next: the overflow flush Strobe(S_SFRX). -/
  | rxonOverflow
  /-- TXON, inside EnterTx. -/
  | txonWait (p : EnterPlace)
  deriving DecidableEq, Repr

/-- The sequencer state SEQ (R44): idle, or running the issued word `w` at position `k`. -/
inductive Seq where
  | idle
  | running (w : Word) (k : Pos)
  deriving DecidableEq, Repr

/-- The select line SEL (R45). -/
inductive Sel where
  | deasserted
  | asserted
  deriving DecidableEq, Repr

/-- A host access (R61, R62; the lines R8, R32, W8, W32 of R89). -/
inductive HostAccess where
  | read8 (a : HostAddr)
  | read32 (a : HostAddr)
  | write8 (a : HostAddr) (v : Byte)
  | write32 (a : HostAddr) (v : Word)
  deriving DecidableEq, Repr

/-- One move of one agent (R12, R311, log 4). -/
inductive Event where
  /-- The host makes an access. -/
  | host (x : HostAccess)
  /-- The sequencer makes its next step. -/
  | sequencer
  /-- The edge source raises EDGE (R310). -/
  | edge
  /-- RESET is asserted (R340). -/
  | reset
  /-- The transceiver drives the ready gate to `b` (R101). -/
  | ready (b : Bool)
  deriving DecidableEq, Repr

/-- One item of the observation of R13. -/
inductive Obs where
  /-- The host read `v` with an 8-bit access. -/
  | read8 (a : HostAddr) (v : Byte)
  /-- The host read `v` with a 32-bit access. -/
  | read32 (a : HostAddr) (v : Word)
  /-- The block sent `out` and received `ins` in one bus transaction. -/
  | txn (out ins : List Byte)
  deriving DecidableEq, Repr

/-- The state. The first part is the block's (R20 to R46). The last five fields are the model's own: the other agents'
data and the observation (logs 2, 3, 4, 6, 12). -/
structure State where
  /-- CMD (R21). -/
  cmd : Word
  /-- STATUS (R22). -/
  status : Status
  /-- RDATA[7:0] (R32). -/
  rdata : Byte
  /-- OWN_ADDR[23:0] (R33). -/
  ownAddr : BitVec 24
  /-- ROLL_CNT[7:0] (R34). -/
  rollCnt : Byte
  /-- RSSI_DBM[15:0] (R35). -/
  rssiDbm : BitVec 16
  /-- LENS (R36). -/
  lens : Lens
  /-- CHIPID (R37). -/
  chipid : ChipId
  /-- DECINFO (R38). -/
  decinfo : DecInfo
  /-- IRQ_STAT.IRQ_FLAG (R39). -/
  irqFlag : Bool
  /-- IRQ_CNT (R40). -/
  irqCnt : BitVec Config.IRQ_CNT_W
  /-- The four buffers with their defined bits (R42, R43). -/
  mem : Memory
  /-- SEQ (R44). -/
  seq : Seq
  /-- SEL (R45). -/
  sel : Sel
  /-- STUCK_ITER (R46). -/
  stuckIter : Nat
  /-- The input RDY (R101, log 6). -/
  rdy : Bool
  /-- The transceiver's next answer bytes, first first (log 2). -/
  answers : List Byte
  /-- Which agent moves next, first first; when empty, the sequencer (log 4). -/
  inputs : List Event
  /-- Counter of the free values (logs 2 and 3). -/
  drawCount : Nat
  /-- The observation, newest first (R13, log 12). -/
  trace : List Obs
  deriving DecidableEq, Repr

/-- Why the machine stops. -/
inductive Fault where
  /-- The model fault UNDEF: a command (BWR, SEND, DECODE, ENCODE, CKSUM or COMPOSE) consumes byte `i` of buffer `b`
  while its defined bit is 0 (R308, R64, I1). Raised by `withBytes`. Safe: the hardware goes on with an unspecified byte,
  and no claim is proved of that run. -/
  | undef (b : Buf) (i : Nat)
  deriving DecidableEq, Repr

/-- Why the model gives no meaning. -/
inductive Refusal where
  /-- An instruction without a meaning, by its mnemonic. Raised only by an arm of `exec` (none does). Safe. -/
  | notModelled (mnemonic : String)
  deriving DecidableEq, Repr

/-- STATUS after reset (R341). -/
def Status.reset : Status :=
  { busy := false, done := false, chipOk := false, pktFound := false, decValid := false, warnCfg := false,
    warnPa := false, hviol := false, addrSet := false, err := .ok, lastop := 0x00#8 }

/-- The machine after reset: the values of R341, and for the model's own fields the values of logs 2, 4, 6 and 12
(DESIGN CHOICE). -/
def State.reset : State :=
  { cmd := 0x00000000#32
    status := Status.reset
    rdata := 0x00#8
    ownAddr := 0x000000#24
    rollCnt := 0x00#8
    rssiDbm := 0x0000#16
    lens := ⟨0x00#8, 0x00#8, 0x00#8, 0x00#8⟩
    chipid := ⟨0x00#8, 0x00#8⟩
    decinfo := ⟨0x00#8, 0x00#8, 0x00#8⟩
    irqFlag := false
    irqCnt := 0
    mem := []
    seq := .idle
    sel := .deasserted
    stuckIter := 0
    rdy := true
    answers := []
    inputs := []
    drawCount := 0
    trace := [] }

end Sys2Proof.Machine
end

