-- ==== Sys2Proof/Machine/Memory.lean ====
section
/-! DEFINITION. The buffers in the host address map (spec/20_memory.md R60), the canonical form of memory, and the buffer primitives of R64. -/

namespace Sys2Proof.Machine

/-- The host address of byte 0 of a buffer (R60). -/
def Buf.base : Buf → Nat
  | .rxbuf => 0x100
  | .txbuf => 0x140
  | .cmdbuf => 0x180
  | .decbuf => 0x1C0

/-- The number of bytes of a buffer (R42). -/
def Buf.size : Buf → Nat
  | .rxbuf => Config.RXBUF_SIZE
  | .txbuf => Config.TXBUF_SIZE
  | .cmdbuf => Config.CMDBUF_SIZE
  | .decbuf => Config.DECBUF_SIZE

/-- Host address `a` is byte `a - base` of buffer `b` (R60). -/
def Buf.holds (b : Buf) (a : Nat) : Bool := decide (b.base ≤ a ∧ a < b.base + b.size)

/-- The buffer and the index of a host address, none outside the buffers (R60). -/
def Buf.locate (a : Nat) : Option (Buf × Nat) :=
  if Buf.rxbuf.holds a then some (.rxbuf, a - Buf.rxbuf.base)
  else if Buf.txbuf.holds a then some (.txbuf, a - Buf.txbuf.base)
  else if Buf.cmdbuf.holds a then some (.cmdbuf, a - Buf.cmdbuf.base)
  else if Buf.decbuf.holds a then some (.decbuf, a - Buf.decbuf.base)
  else none

/-- The byte at a host address, none where its defined bit is 0 (R43, R64). -/
def Memory.read : Memory → Nat → Option Byte
  | [], _ => none
  | (a', v) :: rest, a => if a = a' then some v else Memory.read rest a

/-- Write one byte, keeping the addresses strictly rising. -/
def Memory.write : Memory → Nat → Byte → Memory
  | [], a, v => [(a, v)]
  | (a', v') :: rest, a, v =>
    if a < a' then (a, v) :: (a', v') :: rest
    else if a = a' then (a, v) :: rest
    else (a', v') :: Memory.write rest a v

/-- The addresses of `m` rise strictly, and all lie above `lo` when it is given. -/
def Memory.rising : Option Nat → Memory → Bool
  | _, [] => true
  | none, (a, _) :: rest => Memory.rising (some a) rest
  | some lo, (a, _) :: rest => decide (lo < a) && Memory.rising (some a) rest

/-- The canonical form: addresses strictly rising, each a byte of a buffer. An unlisted address reads as no value, so no
entry can equal it. -/
def Memory.wf (m : Memory) : Bool := Memory.rising none m && m.all (fun c => (Buf.locate c.1).isSome)

/-- BufRead(b, i), none where the defined bit is 0 (R64). -/
def bufRead (m : Memory) (b : Buf) (i : Nat) : Option Byte := Memory.read m (b.base + i)

/-- BufWrite(b, i, v) (R64). -/
def bufWrite (m : Memory) (b : Buf) (i : Nat) (v : Byte) : Memory := Memory.write m (b.base + i) v

/-- Bytes `i`, `i+1`, … of a buffer written in order. -/
def bufWriteFrom (m : Memory) (b : Buf) (i : Nat) : List Byte → Memory
  | [] => m
  | v :: vs => bufWriteFrom (bufWrite m b i v) b (i + 1) vs

/-- The bytes `vs` at indexes 0, 1, … of a buffer. -/
def bufWriteAll (m : Memory) (b : Buf) (vs : List Byte) : Memory := bufWriteFrom m b 0 vs

/-- Bytes `i .. i+n-1` of a buffer read in order; the error is the first index whose defined bit is 0. -/
def bufReadFrom (m : Memory) (b : Buf) (i : Nat) : Nat → Except Nat (List Byte)
  | 0 => .ok []
  | n + 1 =>
    match bufRead m b i with
    | none => .error i
    | some v =>
      match bufReadFrom m b (i + 1) n with
      | .ok vs => .ok (v :: vs)
      | .error j => .error j

/-- Bytes `0 .. n-1` of a buffer. -/
def bufReadAll (m : Memory) (b : Buf) (n : Nat) : Except Nat (List Byte) := bufReadFrom m b 0 n

end Sys2Proof.Machine
end

