-- ==== Sys2Proof/Syntax.lean ====
section
/-! DEFINITION. The commands of the block: one constructor per row of spec/opcode_table.json (spec/30_encoding.md R85), and the pseudo-commands of R90, which are spellings only. -/

namespace Sys2Proof

/-- A command. `a` is field A (transceiver address), `c` field A as a strobe code, `l` field L (a byte count) and `d`
field D (a data byte) (R80 to R83). A count is a number; that it fits its 8-bit field is `Instr.WellFormed`. -/
inductive Instr where
  | nop
  | init
  | rreg (a : Byte)
  | wreg (a d : Byte)
  | strobe (c : Byte)
  | rssi
  | brd (a : Byte) (l : Nat)
  | bwr (a : Byte) (l : Nat)
  | send (l : Nat)
  | recv (l : Nat)
  | idle
  | rxon
  | txon
  | decode (l : Nat)
  | encode (l : Nat)
  | cksum (l : Nat)
  | compose (l : Nat)
  | irqack
  deriving DecidableEq, Repr

/-- The pseudo-commands of R90 that stand for command words (WAITDONE is a loop of host reads, no command). -/
inductive Pseudo where
  | flushRx
  | flushTx
  | sidle
  | sreset
  | rdState
  | rdRxBytes
  | rdVersion
  | frame (l : Nat)
  deriving DecidableEq, Repr

end Sys2Proof
end

