-- ==== Sys2Proof/WellFormed.lean ====
section
/-! DEFINITION. A command is well formed when each operand fits its 8-bit field (spec/30_encoding.md R80, R89). Operands A and D are bytes by type. A value that is out of range for its command is still well formed (R88). -/

namespace Sys2Proof

/-- Field L holds 0 to 255 (R82). -/
def fitsLengthField (l : Nat) : Bool := decide (l < 256)

/-- Every operand fits its field, so the command has an encoding. -/
def Instr.WellFormed : Instr → Bool
  | .nop | .init | .rreg _ | .wreg _ _ | .strobe _ | .rssi | .idle | .rxon | .txon | .irqack => true
  | .brd _ l => fitsLengthField l
  | .bwr _ l => fitsLengthField l
  | .send l => fitsLengthField l
  | .recv l => fitsLengthField l
  | .decode l => fitsLengthField l
  | .encode l => fitsLengthField l
  | .cksum l => fitsLengthField l
  | .compose l => fitsLengthField l

end Sys2Proof
end

