-- ==== Sys2Proof/Decode.lean ====
section
/-! DEFINITION. Decoding a command word, total on all words and rejecting by name, then encoding (spec/30_encoding.md R80 to R91). -/

namespace Sys2Proof

/-! The fields of the one format (R80). -/

/-- OP = w[31:24]. -/
def opField (w : Word) : Byte := w.extractLsb' 24 8
/-- A = w[23:16]. -/
def aField (w : Word) : Byte := w.extractLsb' 16 8
/-- L = w[15:8]. -/
def lField (w : Word) : Byte := w.extractLsb' 8 8
/-- D = w[7:0]. -/
def dField (w : Word) : Byte := w.extractLsb' 0 8

/-- Why a word is no command; either way it ends with ERR_ILLEGAL_OP (R84, R86). -/
inductive DecodeError where
  /-- OP is not in the table of R85. -/
  | reservedOpcode (op : Byte)
  /-- A field the command does not use is not 0x00. -/
  | unusedFieldNotZero (op : Byte)
  deriving DecidableEq, Repr

/-- A command whose unused fields are `unused`: each must be 0x00 (R84). -/
def withUnused (w : Word) (unused : List Byte) (i : Instr) : Except DecodeError Instr :=
  if unused.all (fun f => f == 0#8) then .ok i else .error (.unusedFieldNotZero (opField w))

/-- The decode procedure of R91 over the opcode map of R85. -/
def decode (w : Word) : Except DecodeError Instr :=
  match (opField w).toNat with
  | 0x00 => withUnused w [aField w, lField w, dField w] .nop
  | 0x01 => withUnused w [aField w, lField w, dField w] .init
  | 0x02 => withUnused w [lField w, dField w] (.rreg (aField w))
  | 0x03 => withUnused w [lField w] (.wreg (aField w) (dField w))
  | 0x04 => withUnused w [lField w, dField w] (.strobe (aField w))
  | 0x05 => withUnused w [aField w, lField w, dField w] .rssi
  | 0x06 => withUnused w [dField w] (.brd (aField w) (lField w).toNat)
  | 0x07 => withUnused w [dField w] (.bwr (aField w) (lField w).toNat)
  | 0x08 => withUnused w [aField w, dField w] (.send (lField w).toNat)
  | 0x09 => withUnused w [aField w, dField w] (.recv (lField w).toNat)
  | 0x0A => withUnused w [aField w, lField w, dField w] .idle
  | 0x0B => withUnused w [aField w, lField w, dField w] .rxon
  | 0x0C => withUnused w [aField w, lField w, dField w] .txon
  | 0x10 => withUnused w [aField w, dField w] (.decode (lField w).toNat)
  | 0x11 => withUnused w [aField w, dField w] (.encode (lField w).toNat)
  | 0x12 => withUnused w [aField w, dField w] (.cksum (lField w).toNat)
  | 0x13 => withUnused w [aField w, dField w] (.compose (lField w).toNat)
  | 0x20 => withUnused w [aField w, lField w, dField w] .irqack
  | _ => .error (.reservedOpcode (opField w))

/-- The host's form of `decode`: a command is one 32-bit word, so bits above `nbits` and above 31 are 0. -/
def decodeTableWord (nbits w : Nat) : Option Instr :=
  match decode (BitVec.ofNat 32 (w % 2 ^ nbits)) with
  | .ok i => some i
  | .error _ => none

/-! The encoder (R80, R85). -/

/-- The word OP/A/L/D. -/
def commandWord (op a l d : Byte) : Word := op ++ a ++ l ++ d

/-- A count in field L. -/
def lengthByte (l : Nat) : Byte := BitVec.ofNat 8 l

/-- The opcode of R85. -/
def Instr.opcode : Instr → Byte
  | .nop => 0x00#8
  | .init => 0x01#8
  | .rreg _ => 0x02#8
  | .wreg _ _ => 0x03#8
  | .strobe _ => 0x04#8
  | .rssi => 0x05#8
  | .brd _ _ => 0x06#8
  | .bwr _ _ => 0x07#8
  | .send _ => 0x08#8
  | .recv _ => 0x09#8
  | .idle => 0x0A#8
  | .rxon => 0x0B#8
  | .txon => 0x0C#8
  | .decode _ => 0x10#8
  | .encode _ => 0x11#8
  | .cksum _ => 0x12#8
  | .compose _ => 0x13#8
  | .irqack => 0x20#8

/-- Field A of the word: the address or strobe code, else 0x00 (R84). -/
def Instr.fieldA : Instr → Byte
  | .rreg a => a
  | .wreg a _ => a
  | .strobe c => c
  | .brd a _ => a
  | .bwr a _ => a
  | .nop | .init | .rssi | .send _ | .recv _ | .idle | .rxon | .txon | .decode _ | .encode _ | .cksum _
  | .compose _ | .irqack => 0x00#8

/-- Field L of the word: the count, else 0x00 (R84). -/
def Instr.fieldL : Instr → Byte
  | .brd _ l => lengthByte l
  | .bwr _ l => lengthByte l
  | .send l => lengthByte l
  | .recv l => lengthByte l
  | .decode l => lengthByte l
  | .encode l => lengthByte l
  | .cksum l => lengthByte l
  | .compose l => lengthByte l
  | .nop | .init | .rreg _ | .wreg _ _ | .strobe _ | .rssi | .idle | .rxon | .txon | .irqack => 0x00#8

/-- Field D of the word: WREG's value, else 0x00 (R83, R84). -/
def Instr.fieldD : Instr → Byte
  | .wreg _ d => d
  | .nop | .init | .rreg _ | .strobe _ | .rssi | .brd _ _ | .bwr _ _ | .send _ | .recv _ | .idle | .rxon | .txon
  | .decode _ | .encode _ | .cksum _ | .compose _ | .irqack => 0x00#8

/-- The word of a well-formed command. -/
def encode (i : Instr) : Word := commandWord i.opcode i.fieldA i.fieldL i.fieldD

/-! The opcode map as R85 prints it. -/

/-- The "mask" column of R85: OP and every field marked "-". -/
def Instr.mask : Instr → Word
  | .rreg _ => 0xFF00FFFF#32
  | .wreg _ _ => 0xFF00FF00#32
  | .strobe _ => 0xFF00FFFF#32
  | .brd _ _ => 0xFF0000FF#32
  | .bwr _ _ => 0xFF0000FF#32
  | .send _ => 0xFFFF00FF#32
  | .recv _ => 0xFFFF00FF#32
  | .decode _ => 0xFFFF00FF#32
  | .encode _ => 0xFFFF00FF#32
  | .cksum _ => 0xFFFF00FF#32
  | .compose _ => 0xFFFF00FF#32
  | .nop | .init | .rssi | .idle | .rxon | .txon | .irqack => 0xFFFFFFFF#32

/-- The "match" column of R85. -/
def Instr.matchWord : Instr → Word
  | .nop => 0x00000000#32
  | .init => 0x01000000#32
  | .rreg _ => 0x02000000#32
  | .wreg _ _ => 0x03000000#32
  | .strobe _ => 0x04000000#32
  | .rssi => 0x05000000#32
  | .brd _ _ => 0x06000000#32
  | .bwr _ _ => 0x07000000#32
  | .send _ => 0x08000000#32
  | .recv _ => 0x09000000#32
  | .idle => 0x0A000000#32
  | .rxon => 0x0B000000#32
  | .txon => 0x0C000000#32
  | .decode _ => 0x10000000#32
  | .encode _ => 0x11000000#32
  | .cksum _ => 0x12000000#32
  | .compose _ => 0x13000000#32
  | .irqack => 0x20000000#32

/-- The commands a pseudo-command spells (R90). -/
def Pseudo.expand : Pseudo → List Instr
  | .flushRx => [.strobe Config.S_SFRX]
  | .flushTx => [.strobe Config.S_SFTX]
  | .sidle => [.strobe Config.S_SIDLE]
  | .sreset => [.strobe Config.S_SRES]
  | .rdState => [.rreg Config.ADDR_MARCSTATE]
  | .rdRxBytes => [.rreg Config.ADDR_RXBYTES]
  | .rdVersion => [.rreg Config.ADDR_VERSION]
  | .frame l => [.compose l, .encode (l + 6)]

end Sys2Proof
end

