-- ==== Sys2Proof/Machine/Flags.lean ====
section
/-! DEFINITION. The STATUS word and every computation of its fields: issue, completion, error, warning, host violation (spec/10_state.md R21 to R31, spec/60_exceptions.md R301 to R307). -/

namespace Sys2Proof.Machine

/-- The codes of R303. -/
def ErrCode.code : ErrCode → Byte
  | .ok => 0x00#8
  | .illegalOp => 0x01#8
  | .range => 0x02#8
  | .len => 0x03#8
  | .chipNotFound => 0x04#8
  | .notInit => 0x05#8
  | .noAddr => 0x06#8

/-- STATUS as the host reads it (R22). -/
def Status.word (t : Status) : Word :=
  t.lastop ++ t.err.code ++ 0#7 ++ BitVec.ofBool t.addrSet ++ BitVec.ofBool t.hviol ++ BitVec.ofBool t.warnPa
    ++ BitVec.ofBool t.warnCfg ++ BitVec.ofBool t.decValid ++ BitVec.ofBool t.pktFound ++ BitVec.ofBool t.chipOk
    ++ BitVec.ofBool t.done ++ BitVec.ofBool t.busy

/-- What issuing the word `w` does to STATUS (R23, R24, R28, R31). -/
def Status.issued (t : Status) (w : Word) : Status :=
  { t with busy := true, done := false, warnCfg := false, warnPa := false, err := .ok, lastop := opField w }

/-- What `complete()` does to STATUS (R301). -/
def Status.completed (t : Status) : Status := { t with busy := false, done := true }

/-- What `raise Err(e)` does to STATUS (R302). -/
def Status.raised (t : Status) (e : ErrCode) : Status := { t with err := e, busy := false, done := true }

/-- The two warnings (R305). -/
inductive Warning where
  | cfg
  | pa
  deriving DecidableEq, Repr

/-- What `warn(bit)` does to STATUS (R305); with no warning, nothing. -/
def Status.warned (t : Status) : Option Warning → Status
  | none => t
  | some .cfg => { t with warnCfg := true }
  | some .pa => { t with warnPa := true }

end Sys2Proof.Machine
end

