-- ==== Sys2Proof/Machine/Operands.lean ====
section
/-! DEFINITION. The operand forms: transceiver address classes and validity, burst plans, the bus header byte, the RSSI conversion (spec/40_register_arbiter.md R103, R115, R117, spec/41_fifo_burst.md R140 to R142). -/

namespace Sys2Proof.Machine

/-- The classes of a transceiver address (R140). -/
inductive AddrClass where
  | cfg
  | stat
  | pa
  | fifo
  | none
  deriving DecidableEq, Repr

/-- The class of an address (R140). -/
def addrClass (a : Byte) : AddrClass :=
  if a ≤ Config.CFG_LAST then .cfg
  else if Config.STAT_FIRST ≤ a ∧ a ≤ Config.STAT_LAST then .stat
  else if a = Config.PA_ADDR then .pa
  else if a = Config.FIFO_ADDR then .fifo
  else .none

/-- A strobe or status address, STAT_FIRST..STAT_LAST (R105, R107, R114). -/
def isStatAddr (a : Byte) : Bool := decide (Config.STAT_FIRST ≤ a ∧ a ≤ Config.STAT_LAST)

/-- RdAddrOK (R117). -/
def rdAddrOK (a : Byte) : Bool :=
  decide (a ≤ Config.CFG_LAST) || isStatAddr a || a == Config.PA_ADDR || a == Config.FIFO_ADDR

/-- WrAddrOK (R117). -/
def wrAddrOK (a : Byte) : Bool := decide (a ≤ Config.CFG_LAST) || a == Config.PA_ADDR || a == Config.FIFO_ADDR

/-- A burst of `l` bytes from configuration address `a` runs past CFG_LAST (R141, R142). -/
def pastCfgLast (a : Byte) (l : Nat) : Bool := decide (1 ≤ l ∧ Config.CFG_LAST.toNat < a.toNat + l - 1)

/-- ReadPlan (R141): the number of bytes to read, or the error. -/
def readPlan (a : Byte) (l : Nat) : Except ErrCode Nat :=
  let bounded (n : Nat) : Except ErrCode Nat := if Config.RXBUF_SIZE < n then .error .len else .ok n
  match addrClass a with
  | .cfg => if pastCfgLast a l then .error .range else bounded l
  | .pa => bounded (min l Config.PA_MAX)
  | .fifo => bounded l
  | .stat => .error .range
  | .none => .error .range

/-- The warning of a burst write that passes its checks (R142). -/
def writeWarning (a : Byte) (l : Nat) : Option Warning :=
  match addrClass a with
  | .cfg => if pastCfgLast a l then some .cfg else none
  | .pa => if Config.PA_MAX < l then some .pa else none
  | .fifo => none
  | .stat => none
  | .none => none

/-- WritePlan (R142): the warning to give, if any, or the error. Both checks come before any warning. -/
def writePlan (a : Byte) (l : Nat) : Except ErrCode (Option Warning) :=
  match addrClass a with
  | .stat => .error .range
  | .none => .error .range
  | .cfg => if Config.TXBUF_SIZE < l then .error .len else .ok (writeWarning a l)
  | .pa => if Config.TXBUF_SIZE < l then .error .len else .ok (writeWarning a l)
  | .fifo => if Config.TXBUF_SIZE < l then .error .len else .ok (writeWarning a l)

/-- HDR(a, rd, burst), the first byte of a transaction (R103). -/
def hdrByte (a : Byte) (rd burst : Bool) : Byte :=
  (if rd then Config.HDR_READ else 0x00#8) ||| (if burst then Config.HDR_BURST else 0x00#8) ||| (a &&& 0x3F#8)

/-- rssi_dbm (R115): `raw` as two's complement half-dB steps, halved toward zero, less the offset. -/
def rssiToDbm (raw : Byte) : Int :=
  let t : Int := if 128 ≤ raw.toNat then (raw.toNat : Int) - 256 else raw.toNat
  Int.tdiv t 2 - Config.RSSI_OFFSET

/-- Bytes of OWN_ADDR in frame order: a0 = [23:16], a1 = [15:8], a2 = [7:0] (R33, R253). -/
def ownAddrBytes (x : BitVec 24) : List Byte := [x.extractLsb' 16 8, x.extractLsb' 8 8, x.extractLsb' 0 8]

end Sys2Proof.Machine
end

