-- ==== Sys2Proof/Machine/Ops.lean ====
section
/-! DEFINITION. The shared operations of the sequencer: issuing and ending a command, the bus transaction, register access, run-state polls and waits (spec/40_register_arbiter.md R100 to R109, spec/41_fifo_burst.md R143, R144, spec/42_radio_state.md R170 to R173, spec/60_exceptions.md R301, R302). -/

namespace Sys2Proof.Machine

/-- What a meaning answers. -/
abbrev Result := Host.Outcome State Fault Refusal

/-! Issuing and ending a command. -/

/-- Issue the word `w` (R21, R44). -/
def State.issue (s : State) (w : Word) : State :=
  { s with cmd := w, status := s.status.issued w, seq := .running w .start }

/-- `complete()` (R301). -/
def State.complete (s : State) : State := { s with status := s.status.completed, seq := .idle }

/-- `raise Err(e)` (R302): the block's whole error entry, since it has no trap (R300). -/
def State.raiseErr (s : State) (e : ErrCode) : State := { s with status := s.status.raised e, seq := .idle }

/-- `warn(bit)` (R305). -/
def State.warn (s : State) (x : Option Warning) : State := { s with status := s.status.warned x }

/-- A host-port violation (R307). -/
def State.violate (s : State) : State := { s with status := { s.status with hviol := true } }

/-! The sequencer's position. -/

/-- The position of the running command; an idle sequencer has none and reads as `start`. -/
def State.pos (s : State) : Pos :=
  match s.seq with
  | .idle => .start
  | .running _ k => k

/-- SEQ moved to position `k` of the same command; an idle sequencer stays idle. -/
def Seq.goto (q : Seq) (k : Pos) : Seq :=
  match q with
  | .idle => .idle
  | .running w _ => .running w k

/-- Move to position `k` of the running command. -/
def State.goto (s : State) (k : Pos) : State := { s with seq := s.seq.goto k }

/-- Set STUCK_ITER (R46). -/
def State.setStuck (s : State) (n : Nat) : State := { s with stuckIter := n }

/-! The bus transaction (R100, R101). -/

/-- The transceiver's answer byte number `i` from here: the listed one, else a free value (I4, log 2). -/
def State.answer (s : State) (i : Nat) : Byte := s.answers.getD i (Config.freeAnswer (s.drawCount + i))

/-- The next `n` answer bytes. -/
def State.received (s : State) (n : Nat) : List Byte := (List.range n).map s.answer

/-- The state after the exchange of `out`: SEL is deasserted again, the answers are used up, the transaction is
observed. -/
def State.exchange (s : State) (out : List Byte) : State :=
  { s with sel := .deasserted, answers := s.answers.drop out.length, drawCount := s.drawCount + out.length,
           trace := .txn out (s.received out.length) :: s.trace }

/-- The ready-gate wait: SEL is asserted and no byte is exchanged (R101, log 6). -/
def State.hold (s : State) : State := { s with sel := .asserted }

/-- Txn(out), then `k` with the received bytes. While RDY is false the sequencer is held where it is (R100, R101, R350). -/
def txn (out : List Byte) (s : State) (k : List Byte → State → Result) : Result :=
  if s.rdy then k (s.received out.length) (s.exchange out) else .next s.hold

/-- The byte received while byte `i` goes out; `i` is in range wherever this is used. -/
def byteIn (ins : List Byte) (i : Nat) : Byte := ins.getD i 0x00#8

/-! Register access procedures (R104 to R108). -/

/-- One read with the header `hb`: the byte received while DUMMY goes out. -/
def readOnce (hb : Byte) (s : State) (k : Byte → State → Result) : Result :=
  txn [hb, Config.DUMMY] s (fun ins s => k (byteIn ins 1) s)

/-- StableRead(hb) at local `v1` (R104). `at'` is the caller's position with that local. Each pair is two fresh reads (D11). -/
def stableRead (hb : Byte) (v1 : Option Byte) (at' : Option Byte → Pos) (s : State) (k : Byte → State → Result) : Result :=
  readOnce hb s (fun v s =>
    match v1 with
    | none => .next (s.goto (at' (some v)))
    | some u => if u = v then k v s else .next (s.goto (at' none)))

/-- RegRead(a) (R105): a status register is read with the burst bit, and until stable when it is in GLITCH_SET. -/
def regRead (a : Byte) (v1 : Option Byte) (at' : Option Byte → Pos) (s : State) (k : Byte → State → Result) : Result :=
  if isStatAddr a then
    if a ∈ Config.GLITCH_SET then stableRead (hdrByte a true true) v1 at' s k
    else readOnce (hdrByte a true true) s k
  else readOnce (hdrByte a true false) s k

/-- RegWrite(a, d) (R106). -/
def regWrite (a d : Byte) (s : State) (k : State → Result) : Result :=
  txn [hdrByte a false false, d] s (fun _ s => k s)

/-- Strobe(c) (R107). -/
def strobe (c : Byte) (s : State) (k : Byte → State → Result) : Result :=
  txn [hdrByte c false false] s (fun ins s => k (byteIn ins 0) s)

/-- RunState() (R108). -/
def runState (v1 : Option Byte) (at' : Option Byte → Pos) (s : State) (k : Byte → State → Result) : Result :=
  regRead Config.ADDR_MARCSTATE v1 at' s (fun v s => k (v &&& Config.MARC_MASK) s)

/-- The initialisation gate (R109). -/
def gated (s : State) (k : Result) : Result :=
  if s.status.chipOk then k else .next (s.raiseErr .notInit)

/-! Bursts (R143, R144). -/

/-- BurstRead(a, n): no transaction when `n` is 0 (D13). -/
def burstRead (a : Byte) (n : Nat) (s : State) (k : List Byte → State → Result) : Result :=
  if n = 0 then k [] s
  else txn (hdrByte a true true :: List.replicate n Config.DUMMY) s (fun ins s => k (ins.drop 1) s)

/-- BurstWrite(a, bytes): no transaction when there is no byte (D14). -/
def burstWrite (a : Byte) (bytes : List Byte) (s : State) (k : State → Result) : Result :=
  if bytes = [] then k s
  else txn (hdrByte a false true :: bytes) s (fun _ s => k s)

/-- The bytes `0 .. n-1` of a buffer, or the model fault UNDEF at the first undefined one (R308). -/
def withBytes (b : Buf) (n : Nat) (s : State) (k : List Byte → Result) : Result :=
  match bufReadAll s.mem b n with
  | .ok bytes => k bytes
  | .error i => .fault (.undef b i)

/-! Run-state waits (R170 to R173). `at'` turns a place of the wait into the caller's position. -/

/-- ForceIdle() at place `p` (R170). -/
def forceIdle (p : IdlePlace) (at' : IdlePlace → Pos) (s : State) (k : State → Result) : Result :=
  match p with
  | .strobe => strobe Config.S_SIDLE s (fun _ s => .next (s.goto (at' (.poll none))))
  | .poll v1 =>
    runState v1 (fun v => at' (.poll v)) s (fun st s =>
      if st = Config.MARC_IDLE then k s else .next (s.goto (at' (.poll none))))

/-- StuckStep (R172): count the poll; at the STUCK_LIMIT-th, go to the recovery strobes. -/
def stuckStep (at' : EnterPlace → Pos) (s : State) : State :=
  let s := s.setStuck (s.stuckIter + 1)
  if s.stuckIter = Config.STUCK_LIMIT then s.goto (at' .stuckFlush) else s.goto (at' (.poll none))

/-- Strobe the entry strobe `c`, set STUCK_ITER to 0 and go on polling: the beginning of the wait and the end of a recovery
(R171 to R173). -/
def enterStrobe (c : Byte) (at' : EnterPlace → Pos) (s : State) : Result :=
  strobe c s (fun _ s => .next ((s.setStuck 0).goto (at' (.poll none))))

/-- EnterRx() at place `p` (R171). `overflow` is the caller's position of the overflow flush. -/
def enterRx (p : EnterPlace) (at' : EnterPlace → Pos) (overflow : Pos) (s : State) (k : State → Result) : Result :=
  match p with
  | .idle q => forceIdle q (fun q => at' (.idle q)) s (fun s => .next (s.goto (at' .strobe)))
  | .strobe => enterStrobe Config.S_SRX at' s
  | .poll v1 =>
    runState v1 (fun v => at' (.poll v)) s (fun st s =>
      if st = Config.MARC_RX then k s
      else if st = Config.MARC_RXOVF then .next (s.goto overflow)
      else .next (stuckStep at' s))
  | .stuckFlush => strobe Config.S_SFRX s (fun _ s => .next (s.goto (at' .stuckStrobe)))
  | .stuckStrobe => enterStrobe Config.S_SRX at' s

/-- EnterRx()'s overflow flush, after which the poll is counted (R171, D18). -/
def overflowFlush (at' : EnterPlace → Pos) (s : State) : Result :=
  strobe Config.S_SFRX s (fun _ s => .next (stuckStep at' s))

/-- EnterTx() at place `p` (R173). -/
def enterTx (p : EnterPlace) (at' : EnterPlace → Pos) (s : State) (k : State → Result) : Result :=
  match p with
  | .idle q => forceIdle q (fun q => at' (.idle q)) s (fun s => .next (s.goto (at' .strobe)))
  | .strobe => enterStrobe Config.S_STX at' s
  | .poll v1 =>
    runState v1 (fun v => at' (.poll v)) s (fun st s =>
      if st = Config.MARC_TX then k s else .next (stuckStep at' s))
  | .stuckFlush => strobe Config.S_SFTX s (fun _ s => .next (s.goto (at' .stuckStrobe)))
  | .stuckStrobe => enterStrobe Config.S_STX at' s

end Sys2Proof.Machine
end

