-- ==== Sys2Proof/Machine/Arbiter.lean ====
section
/-! DEFINITION. The register arbiter: NOP, INIT, RREG, WREG, STROBE, RSSI (spec/40_register_arbiter.md R110 to R116). In every meaning a position of another command acts as the beginning (log 13). -/

namespace Sys2Proof.Machine

/-- NOP (R110). -/
def execNop (s : State) : Result := .next s.complete

/-- INIT with the version byte read: the identification, then either the error or the flushes (R111). -/
def initIdentify (part ver : Byte) (s : State) : Result :=
  if ver ∈ Config.VERSION_BAD then
    .next (State.raiseErr { s with chipid := ⟨part, ver⟩, status := { s.status with chipOk := false } } .chipNotFound)
  else .next (State.goto { s with chipid := ⟨part, ver⟩ } .initFlushRx)

/-- INIT (R111). -/
def execInit (s : State) : Result :=
  match s.pos with
  | .initPart v1 =>
    regRead Config.ADDR_PARTNUM v1 .initPart s (fun part s => .next (s.goto (.initVersion part none)))
  | .initVersion part v1 =>
    regRead Config.ADDR_VERSION v1 (.initVersion part) s (initIdentify part)
  | .initFlushRx => strobe Config.S_SFRX s (fun _ s => .next (s.goto .initFlushTx))
  | .initFlushTx =>
    strobe Config.S_SFTX s (fun _ s => .next (State.complete { s with status := { s.status with chipOk := true } }))
  | _ => strobe Config.S_SRES s (fun _ s => .next (s.goto (.initPart none)))

/-- RREG's end: the value goes to RDATA (R112). -/
def rregStore (v : Byte) (s : State) : Result := .next (State.complete { s with rdata := v })

/-- RREG a (R112). -/
def execRreg (a : Byte) (s : State) : Result :=
  match s.pos with
  | .rregRead v1 => regRead a v1 .rregRead s rregStore
  | _ => gated s (if rdAddrOK a then regRead a none .rregRead s rregStore else .next (s.raiseErr .range))

/-- WREG a, d (R113). -/
def execWreg (a d : Byte) (s : State) : Result :=
  gated s (if wrAddrOK a then regWrite a d s (fun s => .next s.complete) else .next (s.raiseErr .range))

/-- STROBE c (R114). -/
def execStrobe (c : Byte) (s : State) : Result :=
  gated s (if isStatAddr c then strobe c s (fun v s => .next (State.complete { s with rdata := v }))
    else .next (s.raiseErr .range))

/-- RSSI (R116); the conversion is a step of its own (R70). -/
def execRssi (s : State) : Result :=
  match s.pos with
  | .rssiConvert raw => .next (State.complete { s with rssiDbm := BitVec.ofInt 16 (rssiToDbm raw) })
  | .rssiRead v1 => regRead Config.ADDR_RSSI v1 .rssiRead s (fun raw s => .next (s.goto (.rssiConvert raw)))
  | _ => gated s (regRead Config.ADDR_RSSI none .rssiRead s (fun raw s => .next (s.goto (.rssiConvert raw))))

end Sys2Proof.Machine
end

