-- ==== Sys2Proof/Machine/Burst.lean ====
section
/-! DEFINITION. The FIFO burst controller: BRD, BWR, SEND, RECV (spec/41_fifo_burst.md R145 to R148). In every meaning a position of another command acts as the beginning (log 13). -/

namespace Sys2Proof.Machine

/-- The end of BRD and RECV: the `n` bytes go to RXBUF and RXLEN is `n` (R145, R148). -/
def storeReceived (n : Nat) (bytes : List Byte) (s : State) : Result :=
  .next (State.complete
    { s with mem := bufWriteAll s.mem .rxbuf bytes, lens := { s.lens with rxlen := countByte n } })

/-- BRD a, l (R145). -/
def execBrd (a : Byte) (l : Nat) (s : State) : Result :=
  gated s (match readPlan a l with
    | .error e => .next (s.raiseErr e)
    | .ok n => burstRead a n s (storeReceived n))

/-- BWR a, l (R146). -/
def execBwr (a : Byte) (l : Nat) (s : State) : Result :=
  gated s (match writePlan a l with
    | .error e => .next (s.raiseErr e)
    | .ok w => withBytes .txbuf l s (fun bytes => burstWrite a bytes (s.warn w) (fun s => .next s.complete)))

/-- SEND's position once TX is entered: the burst, or the completion poll when there is no byte (R147). -/
def sendAfterEnter (bytes : List Byte) : Pos := if bytes = [] then .sendPoll none else .sendBurst bytes

/-- SEND l (R147). -/
def execSend (l : Nat) (s : State) : Result :=
  match s.pos with
  | .sendEnter bytes p =>
    enterTx p (.sendEnter bytes) s (fun s => .next (s.goto (sendAfterEnter bytes)))
  | .sendBurst bytes => burstWrite Config.FIFO_ADDR bytes s (fun s => .next (s.goto (.sendPoll none)))
  | .sendPoll v1 =>
    runState v1 .sendPoll s (fun st s =>
      if st = Config.MARC_IDLE ∨ st = Config.MARC_TXUNF then .next s.complete else .next (s.goto (.sendPoll none)))
  | _ =>
    gated s (if Config.TXBUF_SIZE < l then .next (s.raiseErr .len)
      else withBytes .txbuf l s (fun bytes =>
        strobe Config.S_SFTX s (fun _ s => .next (s.goto (.sendEnter bytes (.idle .strobe))))))

/-- RECV with the byte count read: the burst, or the end when there is no byte to read (R148). -/
def recvCounted (l : Nat) (v : Byte) (s : State) : Result :=
  let n := min (v &&& Config.RXBYTES_MASK).toNat l
  if n = 0 then storeReceived 0 [] s else .next (s.goto (.recvBurst n))

/-- RECV l (R148). -/
def execRecv (l : Nat) (s : State) : Result :=
  match s.pos with
  | .recvCount v1 => regRead Config.ADDR_RXBYTES v1 .recvCount s (recvCounted l)
  | .recvBurst n => burstRead Config.FIFO_ADDR n s (storeReceived n)
  | _ =>
    gated s (if Config.RXBUF_SIZE < l then .next (s.raiseErr .len)
      else regRead Config.ADDR_RXBYTES none .recvCount s (recvCounted l))

end Sys2Proof.Machine
end

