-- ==== Sys2Proof/Machine/Codec.lean ====
section
/-! DEFINITION. The pure functions of the frame codec and the checksum (spec/43_frame_decode.md R190 to R197, spec/44_frame_encode.md R220 to R226, spec/45_checksum.md R250, R252). -/

namespace Sys2Proof.Machine

/-! Checksum. -/

/-- The ordinary integer sum of the bytes (R250). -/
def byteSum (s : List Byte) : Nat := (s.map BitVec.toNat).sum

/-- cks (R250): (0 - sum) mod 256. -/
def cks (s : List Byte) : Byte := BitVec.ofInt 8 (0 - (byteSum s : Int))

/-- valid (R252). -/
def valid (s : List Byte) : Bool := byteSum s % 256 == 0

/-! Decode. -/

/-- The first index from `i` on where the header stands, `i` being the index of the list's first byte (R190). -/
def findHeaderFrom (i : Nat) : List Byte → Option Nat
  | [] => none
  | b :: rest => if (b :: rest).take Config.HDR.length = Config.HDR then some i else findHeaderFrom (i + 1) rest

/-- FindHeader (R190). -/
def findHeader (f : List Byte) : Option Nat := findHeaderFrom 0 f

/-- The first footer byte from index `i` on, with its index (R191). -/
def findFooterFrom (i : Nat) : List Byte → Option (Nat × Byte)
  | [] => none
  | b :: rest => if b = Config.FTR_EVEN ∨ b = Config.FTR_ODD then some (i, b) else findFooterFrom (i + 1) rest

/-- FindFooter from the header's end (R191). -/
def findFooter (f : List Byte) (h : Nat) : Option (Nat × Byte) :=
  findFooterFrom (h + Config.HDR.length) (f.drop (h + Config.HDR.length))

/-- man_collapse (R193): every even-indexed bit. -/
def manCollapse : List Bool → List Bool
  | x :: _ :: rest => x :: manCollapse rest
  | _ => []

/-- A nibble from its bits, bit 0 first. -/
def nibbleOfBits (x0 x1 x2 x3 : Bool) : Nibble :=
  BitVec.ofNat 4 (x3.toNat * 8 + x2.toNat * 4 + x1.toNat * 2 + x0.toNat)

/-- deintlv (R194): groups of five, group bit j is nibble bit j, the stop bit is discarded unchecked, a partial group is
dropped. -/
def deintlv : List Bool → List Nibble
  | g0 :: g1 :: g2 :: g3 :: _ :: rest => nibbleOfBits g0 g1 g2 g3 :: deintlv rest
  | _ => []

/-- pack (R195): the first nibble of a pair is the high one, an unpaired nibble is dropped. -/
def packNibbles : List Nibble → List Byte
  | hi :: lo :: rest => (hi ++ lo) :: packNibbles rest
  | _ => []

/-- The decoding of an encoded payload (R193 to R195). -/
def decodePayload (e : List Byte) : List Byte := packNibbles (deintlv (manCollapse (bitsMsb e)))

/-- What decoding a RawFrame gives (R196). -/
structure Decoded where
  payload : List Byte
  valid : Bool
  hoff : Nat
  foff : Nat
  ftr : Byte
  plen : Nat
  deriving DecidableEq, Repr

/-- codec_decode (R196). -/
def codecDecode (f : List Byte) : Option Decoded :=
  match findHeader f with
  | none => none
  | some h =>
    match findFooter f h with
    | none => none
    | some (j, ftr) =>
      let start := h + Config.HDR.length
      let payload := decodePayload ((f.drop start).take (j - start))
      some { payload := payload, valid := Machine.valid payload, hoff := h, foff := j, ftr := ftr, plen := j - start }

/-! Encode. -/

/-- The nibbles of a CommandFrame, high nibble first (R220). -/
def nibbles (c : List Byte) : List Nibble := c.flatMap (fun b => [b.extractLsb' 4 4, b.extractLsb' 0 4])

/-- The five-bit group of a nibble: its bits, least significant first, then the stop bit (R221, C2). -/
def nibbleGroup (q : Nibble) : List Bool := [q.getLsbD 0, q.getLsbD 1, q.getLsbD 2, q.getLsbD 3, Config.STOP]

/-- intlv (R221): the groups, padded with stop bits to a multiple of 4. -/
def intlv (c : List Byte) : List Bool :=
  (nibbles c).flatMap nibbleGroup ++ List.replicate ((4 - 10 * c.length % 4) % 4) Config.STOP

/-- man_enc (R222): each bit, then its complement. -/
def manEnc (s : List Bool) : List Bool := s.flatMap (fun b => [b, !b])

/-- The encoded payload of a CommandFrame (R223). -/
def encodePayload (c : List Byte) : List Byte := packMsb (manEnc (intlv c))

/-- The footer for a CommandFrame of `n` bytes (R224). -/
def footer (n : Nat) : Byte := if n % 2 = 0 then Config.FTR_EVEN else Config.FTR_ODD

/-- packet, which is codec_encode (R225, R226). -/
def codecEncode (c : List Byte) : List Byte :=
  Config.HDR ++ encodePayload c ++ [footer c.length]
    ++ List.replicate (Config.FRAME_LEN - 6 - (encodePayload c).length) Config.POST

end Sys2Proof.Machine
end

