-- ==== Sys2Proof/Machine/Checksum.lean ====
section
/-! DEFINITION. The checksum generator and the composer: CKSUM, COMPOSE, each one atomic step (spec/45_checksum.md R253 to R256). -/

namespace Sys2Proof.Machine

/-- CKSUM l (R255). -/
def execCksum (l : Nat) (s : State) : Result :=
  if Config.CMDBUF_SIZE - 1 < l then .next (s.raiseErr .len)
  else withBytes .cmdbuf l s (fun bytes =>
    .next (State.complete
      { s with mem := bufWrite s.mem .cmdbuf l (cks bytes),
               lens := { s.lens with cmdlen := countByte (l + 1) } }))

/-- A CommandFrame without its checksum: indicator, own address, counter, body (R253). -/
def frameHead (ownAddr : BitVec 24) (cnt : Byte) (body : List Byte) : List Byte :=
  Config.IND :: (ownAddrBytes ownAddr ++ cnt :: body)

/-- COMPOSE l (R256). -/
def execCompose (l : Nat) (s : State) : Result :=
  if Config.CMDBUF_SIZE - 6 < l then .next (s.raiseErr .len)
  else if s.status.addrSet = false then .next (s.raiseErr .noAddr)
  else withBytes .cmdbuf l s (fun body =>
    let f := frameHead s.ownAddr s.rollCnt body
    .next (State.complete
      { s with mem := bufWrite (bufWriteAll s.mem .cmdbuf f) .cmdbuf (l + 5) (cks f),
               rollCnt := s.rollCnt + 1,
               lens := { s.lens with cmdlen := countByte (l + 6) } }))

end Sys2Proof.Machine
end

