-- ==== Sys2Proof/Machine/Edge.lean ====
section
/-! DEFINITION. The edge event and IRQACK (spec/60_exceptions.md R310, spec/46_edge_notify.md R270). -/

namespace Sys2Proof.Machine

/-- An EDGE event (R310). -/
def State.edge (s : State) : State := { s with irqFlag := true, irqCnt := s.irqCnt + 1 }

/-- The edge flag as RDATA's byte (R270). -/
def flagByte (b : Bool) : Byte := if b then 0x01#8 else 0x00#8

/-- IRQACK (R270). -/
def execIrqack (s : State) : Result :=
  .next (State.complete { s with rdata := flagByte s.irqFlag, irqFlag := false })

end Sys2Proof.Machine
end

