-- ==== Sys2Proof/Machine/Frame.lean ====
section
/-! DEFINITION. The frame commands DECODE and ENCODE, each one atomic step (spec/43_frame_decode.md R198, spec/44_frame_encode.md R229). -/

namespace Sys2Proof.Machine

/-- What DECODE writes for the decoding `r` of its input (R198). -/
def decodeStore (r : Option Decoded) (s : State) : State :=
  match r with
  | none =>
    { s with status := { s.status with pktFound := false, decValid := false },
             lens := { s.lens with declen := 0x00#8 }, decinfo := ⟨0x00#8, 0x00#8, 0x00#8⟩ }
  | some d =>
    { s with mem := bufWriteAll s.mem .decbuf d.payload,
             lens := { s.lens with declen := countByte d.payload.length },
             status := { s.status with pktFound := true, decValid := d.valid },
             decinfo := { hoff := countByte d.hoff, ftr := d.ftr, plen := countByte d.plen } }

/-- DECODE l (R198). -/
def execDecode (l : Nat) (s : State) : Result :=
  if Config.RXBUF_SIZE < l then .next (s.raiseErr .len)
  else withBytes .rxbuf l s (fun frame => .next (decodeStore (codecDecode frame) s).complete)

/-- ENCODE l (R229). -/
def execEncode (l : Nat) (s : State) : Result :=
  if Config.MAX_CMD < l then .next (s.raiseErr .len)
  else withBytes .cmdbuf l s (fun c =>
    .next (State.complete
      { s with mem := bufWriteAll s.mem .txbuf (codecEncode c),
               lens := { s.lens with txlen := countByte Config.FRAME_LEN } }))

end Sys2Proof.Machine
end

