-- ==== Sys2Proof/Machine/RadioState.lean ====
section
/-! DEFINITION. The radio run-state commands: IDLE, RXON, TXON (spec/42_radio_state.md R174 to R176). In every meaning a position of another command acts as the beginning (log 13). -/

namespace Sys2Proof.Machine

/-- IDLE (R174). -/
def execIdle (s : State) : Result :=
  match s.pos with
  | .idleWait p => forceIdle p .idleWait s (fun s => .next s.complete)
  | _ => gated s (forceIdle .strobe .idleWait s (fun s => .next s.complete))

/-- RXON (R175). -/
def execRxon (s : State) : Result :=
  match s.pos with
  | .rxonWait p => enterRx p .rxonWait .rxonOverflow s (fun s => .next s.complete)
  | .rxonOverflow => overflowFlush .rxonWait s
  | _ => gated s (enterRx (.idle .strobe) .rxonWait .rxonOverflow s (fun s => .next s.complete))

/-- TXON (R176). -/
def execTxon (s : State) : Result :=
  match s.pos with
  | .txonWait p => enterTx p .txonWait s (fun s => .next s.complete)
  | _ => gated s (enterTx (.idle .strobe) .txonWait s (fun s => .next s.complete))

end Sys2Proof.Machine
end

