-- ==== Sys2Proof/Machine/Dispatch.lean ====
section
/-! DEFINITION. One arm per command: the sequencer's next atomic step of the command at the position SEQ holds (spec/10_state.md R44, log 1). -/

namespace Sys2Proof.Machine

def exec (i : Instr) (s : State) : Host.Outcome State Fault Refusal :=
  match i with
  | .nop => Sys2Proof.Machine.execNop s
  | .init => Sys2Proof.Machine.execInit s
  | .rreg a => Sys2Proof.Machine.execRreg a s
  | .wreg a d => Sys2Proof.Machine.execWreg a d s
  | .strobe c => Sys2Proof.Machine.execStrobe c s
  | .rssi => Sys2Proof.Machine.execRssi s
  | .brd a l => Sys2Proof.Machine.execBrd a l s
  | .bwr a l => Sys2Proof.Machine.execBwr a l s
  | .send l => Sys2Proof.Machine.execSend l s
  | .recv l => Sys2Proof.Machine.execRecv l s
  | .idle => Sys2Proof.Machine.execIdle s
  | .rxon => Sys2Proof.Machine.execRxon s
  | .txon => Sys2Proof.Machine.execTxon s
  | .decode l => Sys2Proof.Machine.execDecode l s
  | .encode l => Sys2Proof.Machine.execEncode l s
  | .cksum l => Sys2Proof.Machine.execCksum l s
  | .compose l => Sys2Proof.Machine.execCompose l s
  | .irqack => Sys2Proof.Machine.execIrqack s

end Sys2Proof.Machine
end

