-- ==== Sys2Proof/Machine/HostPort.lean ====
section
/-! DEFINITION. The host port: register window, buffer windows, bad accesses, accesses while BUSY = 1 (spec/10_state.md R20 to R41, spec/20_memory.md R60 to R65). -/

namespace Sys2Proof.Machine

/-- The register at an aligned offset below 0x100 as the host reads it; reserved offsets read as 0 (R20, R41). -/
def State.regWord (s : State) : Nat → Word
  | 0x000 => s.cmd
  | 0x004 => s.status.word
  | 0x008 => s.rdata.setWidth 32
  | 0x00C => s.ownAddr.setWidth 32
  | 0x010 => s.rollCnt.setWidth 32
  | 0x014 => s.rssiDbm.signExtend 32
  | 0x018 => wordOfBytes s.lens.rxlen s.lens.declen s.lens.cmdlen s.lens.txlen
  | 0x01C => wordOfBytes s.chipid.partnum s.chipid.version 0x00#8 0x00#8
  | 0x020 => wordOfBytes s.decinfo.hoff s.decinfo.ftr s.decinfo.plen 0x00#8
  | 0x024 => (BitVec.ofBool s.irqFlag).setWidth 32
  | 0x028 => s.irqCnt.setWidth 32
  | _ => 0x00000000#32

/-- The word this host read draws where a value is unspecified (I2, I6, log 3). -/
def State.drawn (s : State) : Word := Config.freeWord s.drawCount

/-- A buffer byte as the host reads it: a draw when its defined bit is 0 (R43, R64). `j` selects the drawn byte. -/
def State.bufByte (s : State) (b : Buf) (i j : Nat) : Byte := (bufRead s.mem b i).getD (byteOfWord s.drawn j)

/-- The value of a legal 8-bit read, none for an illegal one (R61 to R63). -/
def State.peek8 (s : State) (a : HostAddr) : Option Byte :=
  match Buf.locate a.toNat with
  | some (b, i) => some (s.bufByte b i 0)
  | none => none

/-- The value of a legal 32-bit read, none for an illegal one (R61 to R63). -/
def State.peek32 (s : State) (a : HostAddr) : Option Word :=
  if a.toNat % 4 ≠ 0 then none
  else if a.toNat < 0x100 then some (s.regWord a.toNat)
  else
    match Buf.locate a.toNat with
    | some (b, i) =>
      if i + 3 < b.size then
        some (wordOfBytes (s.bufByte b i 0) (s.bufByte b (i + 1) 1) (s.bufByte b (i + 2) 2) (s.bufByte b (i + 3) 3))
      else none
    | none => none

/-- STATUS read while BUSY = 1: BUSY and HVIOL are current, every other bit is a draw (R65, log 10). -/
def State.busyStatus (s : State) : Word :=
  (s.drawn &&& 0xFFFFFF7E#32) ||| (s.status.word &&& 0x00000081#32)

/-- A 32-bit read while BUSY = 1: CMD, IRQ_STAT and IRQ_CNT are current, STATUS in part, all else is a draw (R65, log 10). -/
def State.busyPeek32 (s : State) (a : HostAddr) : Word :=
  if a = 0x000#9 then s.regWord 0x000
  else if a = 0x004#9 then s.busyStatus
  else if a = 0x024#9 then s.regWord 0x024
  else if a = 0x028#9 then s.regWord 0x028
  else s.drawn

/-- The violation an illegal access records (R307). -/
def State.violateIf (s : State) (bad : Bool) : State := if bad then s.violate else s

/-- An 8-bit host read: the observation and, for an illegal one, HVIOL; an illegal read returns 0 (R61 to R65, R71). -/
def State.hostRead8 (s : State) (a : HostAddr) : State :=
  let v := if s.status.busy then byteOfWord s.drawn 0 else (s.peek8 a).getD 0x00#8
  let s' := s.violateIf (s.peek8 a).isNone
  { s' with drawCount := s.drawCount + 1, trace := .read8 a v :: s.trace }

/-- A 32-bit host read (R61 to R65, R71). -/
def State.hostRead32 (s : State) (a : HostAddr) : State :=
  let v := if s.status.busy then s.busyPeek32 a else (s.peek32 a).getD 0x00000000#32
  let s' := s.violateIf (s.peek32 a).isNone
  { s' with drawCount := s.drawCount + 1, trace := .read32 a v :: s.trace }

/-- The host may write this buffer (R42, R63). -/
def Buf.hostWritable : Buf → Bool
  | .rxbuf => true
  | .txbuf => true
  | .cmdbuf => true
  | .decbuf => false

/-- An 8-bit host write (R61 to R65). -/
def State.hostWrite8 (s : State) (a : HostAddr) (v : Byte) : State :=
  if s.status.busy then s.violate
  else
    match Buf.locate a.toNat with
    | some (b, i) => if b.hostWritable then { s with mem := bufWrite s.mem b i v } else s.violate
    | none => s.violate

/-- A 32-bit write in the register window at an aligned offset: CMD, OWN_ADDR and ROLL_CNT are writable (R21, R33, R34, R61,
R63). -/
def State.regWrite32 (s : State) (n : Nat) (v : Word) : State :=
  match n with
  | 0x000 => s.issue v
  | 0x00C => { s with ownAddr := v.extractLsb' 0 24, status := { s.status with addrSet := true } }
  | 0x010 => { s with rollCnt := v.extractLsb' 0 8 }
  | _ => s.violate

/-- A 32-bit host write (R61 to R65). -/
def State.hostWrite32 (s : State) (a : HostAddr) (v : Word) : State :=
  if s.status.busy then s.violate
  else if a.toNat % 4 ≠ 0 then s.violate
  else if a.toNat < 0x100 then s.regWrite32 a.toNat v
  else
    match Buf.locate a.toNat with
    | some (b, i) =>
      if b.hostWritable && decide (i + 3 < b.size) then
        { s with mem := bufWriteFrom s.mem b i [byteOfWord v 0, byteOfWord v 1, byteOfWord v 2, byteOfWord v 3] }
      else s.violate
    | none => s.violate

/-- A host access, one atomic step of the host (R70). -/
def State.hostAccess (s : State) : HostAccess → State
  | .read8 a => s.hostRead8 a
  | .read32 a => s.hostRead32 a
  | .write8 a v => s.hostWrite8 a v
  | .write32 a v => s.hostWrite32 a v

end Sys2Proof.Machine
end

