-- ==== Sys2Proof/Machine/Agents.lean ====
section
/-! DEFINITION. The atomic steps of the agents (spec/00_scope.md R12, spec/20_memory.md R70, spec/30_encoding.md R91, spec/60_exceptions.md R310, R311, spec/70_reset_and_hazards.md R340). -/

namespace Sys2Proof.Machine

/-- RESET (R340): every piece of the block's state takes its reset value. The transceiver, the other agents' data and the
observation are not the block's and stay (R342, log 15). -/
def State.resetBlock (s : State) : State :=
  { State.reset with rdy := s.rdy, answers := s.answers, inputs := s.inputs, drawCount := s.drawCount, trace := s.trace }

/-- The sequencer's next step: decode, then the command at its position (R91). An idle sequencer waits (log 5). -/
def State.sequencerStep (s : State) : Result :=
  match s.seq with
  | .idle => .next s
  | .running w _ =>
    match decode w with
    | .ok i => exec i s
    | .error _ => .next (s.raiseErr .illegalOp)

/-- One move of the agent that `e` names. -/
def State.agentStep (s : State) (e : Event) : Result :=
  match e with
  | .host x => .next (s.hostAccess x)
  | .sequencer => s.sequencerStep
  | .edge => .next s.edge
  | .reset => .next s.resetBlock
  | .ready b => .next { s with rdy := b }

end Sys2Proof.Machine
end

