-- ==== Sys2Proof/Machine/Step.lean ====
section
/-! DEFINITION. One step of the machine: the next agent of the schedule moves, the sequencer when none is scheduled (spec/60_exceptions.md R311, log 4); and where the host lays a command so that the next step runs it (log 7). -/

namespace Sys2Proof.Machine

/-- One atomic step of one agent. -/
def step (s : State) : Host.Outcome State Fault Refusal :=
  match s.inputs with
  | [] => s.sequencerStep
  | e :: rest => State.agentStep { s with inputs := rest } e

/-- `s` with the command word `w` issued and the sequencer the next to move. -/
def State.withFetchWord (s : State) (nbits w : Nat) : State :=
  State.issue { s with inputs := [] } (BitVec.ofNat 32 (w % 2 ^ nbits))

end Sys2Proof.Machine
end

