-- ==== Sys2Proof/Safety.lean ====
section
/-! DEFINITION. The terms in which claims are stated: what a step may answer, the checks of a command as spec/60_exceptions.md R303 and R304 list them, what a command consumes, when the sequencer is at a bus transaction, stored bytes, and the invariant of the machine. -/

namespace Sys2Proof.Machine

/-- The step goes on: no model fault and no refusal. -/
def goesOn (r : Host.Outcome State Fault Refusal) : Prop := ∃ t, r = .next t

/-- HVIOL = 1 is a recorded fault (R29). -/
def State.recordedFault (s : State) : Bool := s.status.hviol

/-- The sequencer's next `n` steps of command `i`, stopping at a fault or a refusal. -/
def execs (i : Instr) : Nat → State → Host.Outcome State Fault Refusal
  | 0, s => .next s
  | n + 1, s =>
    match exec i s with
    | .next t => execs i n t
    | .fault f => .fault f
    | .refused r => .refused r

/-! The checks of a command, from the text of R303 and R304. -/

/-- The bus-driving commands that need CHIP_OK (R109). -/
def usesBus : Instr → Bool
  | .rreg _ | .wreg _ _ | .strobe _ | .rssi | .brd _ _ | .bwr _ _ | .send _ | .recv _ | .idle | .rxon | .txon => true
  | .nop | .init | .decode _ | .encode _ | .cksum _ | .compose _ | .irqack => false

/-- The operands for which the command ends with ERR_RANGE (R112, R113, R114, R141, R142). -/
def rangeError : Instr → Bool
  | .rreg a => a.toNat == 0x2F || decide (0x40 ≤ a.toNat)
  | .wreg a _ => (decide (0x2F ≤ a.toNat) && decide (a.toNat ≤ 0x3D)) || decide (0x40 ≤ a.toNat)
  | .strobe c => decide (c.toNat < 0x30) || decide (0x3D < c.toNat)
  | .brd a l =>
    (decide (0x2F ≤ a.toNat) && decide (a.toNat ≤ 0x3D)) || decide (0x40 ≤ a.toNat)
      || (decide (a.toNat ≤ 0x2E) && decide (1 ≤ l) && decide (0x2E < a.toNat + l - 1))
  | .bwr a _ => (decide (0x2F ≤ a.toNat) && decide (a.toNat ≤ 0x3D)) || decide (0x40 ≤ a.toNat)
  | .nop | .init | .rssi | .send _ | .recv _ | .idle | .rxon | .txon | .decode _ | .encode _ | .cksum _ | .compose _
  | .irqack => false

/-- The operands for which the command ends with ERR_LEN, if no earlier check fails (R141, R142, R147, R148, R198, R229,
R255, R256). -/
def lengthError : Instr → Bool
  | .brd a l => a.toNat == 0x3F && decide (60 < l)
  | .bwr _ l => decide (60 < l)
  | .send l => decide (60 < l)
  | .recv l => decide (60 < l)
  | .decode l => decide (60 < l)
  | .encode l => decide (21 < l)
  | .cksum l => decide (31 < l)
  | .compose l => decide (26 < l)
  | .nop | .init | .rreg _ | .wreg _ _ | .strobe _ | .rssi | .idle | .rxon | .txon | .irqack => false

/-- Only COMPOSE needs OWN_ADDR to have been written (R256). -/
def needsOwnAddr : Instr → Bool
  | .compose _ => true
  | .nop | .init | .rreg _ | .wreg _ _ | .strobe _ | .rssi | .brd _ _ | .bwr _ _ | .send _ | .recv _ | .idle | .rxon
  | .txon | .decode _ | .encode _ | .cksum _ | .irqack => false

/-- The first check that fails, in the order of R304. -/
def firstError (i : Instr) (s : State) : Option ErrCode :=
  if usesBus i && !s.status.chipOk then some .notInit
  else if rangeError i then some .range
  else if lengthError i then some .len
  else if needsOwnAddr i && !s.status.addrSet then some .noAddr
  else none

/-- The buffer bytes a command consumes: bytes 0 to n - 1 of the buffer (R308). -/
def consumes : Instr → Option (Buf × Nat)
  | .bwr _ l => some (.txbuf, l)
  | .send l => some (.txbuf, l)
  | .decode l => some (.rxbuf, l)
  | .encode l => some (.cmdbuf, l)
  | .cksum l => some (.cmdbuf, l)
  | .compose l => some (.cmdbuf, l)
  | .nop | .init | .rreg _ | .wreg _ _ | .strobe _ | .rssi | .brd _ _ | .recv _ | .idle | .rxon | .txon | .irqack => none

/-- Every byte the command consumes has been written. -/
def inputsDefined (i : Instr) (s : State) : Bool :=
  match consumes i with
  | some (b, n) => (List.range n).all (fun j => (bufRead s.mem b j).isSome)
  | none => true

/-! Where the command is. -/

/-- Position `k` is one of command `i`'s, with locals the pseudocode can give it (R44, R47). -/
def belongs (i : Instr) (k : Pos) : Bool :=
  match k with
  | .start => true
  | .initPart v1 => i == .init && v1.isNone
  | .initVersion _ v1 => i == .init && v1.isNone
  | .initFlushRx => i == .init
  | .initFlushTx => i == .init
  | .rregRead _ =>
    match i with
    | .rreg a => decide (a ∈ Config.GLITCH_SET)
    | _ => false
  | .rssiRead _ => false
  | .rssiConvert _ => i == .rssi
  | .sendEnter bytes _ => i == .send bytes.length && decide (bytes.length ≤ Config.TXBUF_SIZE)
  | .sendBurst bytes => i == .send bytes.length && decide (1 ≤ bytes.length) && decide (bytes.length ≤ Config.TXBUF_SIZE)
  | .sendPoll _ =>
    match i with
    | .send l => decide (l ≤ Config.TXBUF_SIZE)
    | _ => false
  | .recvCount _ =>
    match i with
    | .recv l => decide (l ≤ Config.RXBUF_SIZE)
    | _ => false
  | .recvBurst n =>
    match i with
    | .recv l => decide (1 ≤ n) && decide (n ≤ l) && decide (l ≤ Config.RXBUF_SIZE)
    | _ => false
  | .idleWait p => i == .idle && p != .strobe
  | .rxonWait p => i == .rxon && p != .idle .strobe
  | .rxonOverflow => i == .rxon
  | .txonWait p => i == .txon && p != .idle .strobe

/-- The next step of command `i` is a bus transaction (R44, R70). -/
def atBus (i : Instr) (s : State) : Bool :=
  match s.pos with
  | .start =>
    (firstError i s).isNone && inputsDefined i s &&
      (match i with
        | .init | .rreg _ | .wreg _ _ | .strobe _ | .rssi | .send _ | .recv _ | .idle | .rxon | .txon => true
        | .brd _ l => decide (0 < l)
        | .bwr _ l => decide (0 < l)
        | .nop | .decode _ | .encode _ | .cksum _ | .compose _ | .irqack => false)
  | .rssiConvert _ => false
  | .sendBurst bytes => decide (0 < bytes.length)
  | .recvBurst n => decide (0 < n)
  | _ => true

/-- A recovery of the stuck detector is under way (R172). -/
def inRecovery (k : Pos) : Bool :=
  match k with
  | .rxonWait .stuckFlush | .rxonWait .stuckStrobe | .txonWait .stuckFlush | .txonWait .stuckStrobe
  | .sendEnter _ .stuckFlush | .sendEnter _ .stuckStrobe => true
  | _ => false

/-! Buffer contents. -/

/-- Buffer `b` begins with the bytes `vs`, all of them written. -/
def holdsBytes (m : Memory) (b : Buf) (vs : List Byte) : Prop :=
  ∀ (j : Nat) (h : j < vs.length), bufRead m b j = some vs[j]

/-- `m'` is `m` with the bytes `vs` at the beginning of buffer `b`, every byte at any other address unchanged. -/
def storedAt (m m' : Memory) (b : Buf) (vs : List Byte) : Prop :=
  (∀ (j : Nat) (h : j < vs.length), m'.read (b.base + j) = some vs[j]) ∧
    ∀ a, (a < b.base ∨ b.base + vs.length ≤ a) → m'.read a = m.read a

/-! The invariant. -/

/-- The invariant of the machine: what R20 to R46 say of the state at any time between steps. -/
structure State.Inv (s : State) : Prop where
  /-- The buffers are in canonical form. -/
  memory : s.mem.wf = true
  /-- BUSY = 1 exactly when SEQ = Running (R44). -/
  busy : s.status.busy = true ↔ s.seq ≠ .idle
  /-- A running command has not completed and has no error yet (R24, R31). -/
  running : s.seq ≠ .idle → s.status.done = false ∧ s.status.err = .ok
  /-- CMD holds the running word, at a position of its own (R21, R44). -/
  place : ∀ w k, s.seq = .running w k → w = s.cmd ∧
    (match decode w with
      | .ok i => belongs i k = true
      | .error _ => k = .start)
  /-- Past its start, a command has passed its checks (R302). -/
  checked : ∀ w k i, s.seq = .running w k → decode w = .ok i → k ≠ .start → firstError i s = none
  /-- LASTOP holds bits [31:24] of CMD (R31). -/
  lastop : s.status.lastop = opField s.cmd
  /-- SEL is asserted only while a transaction waits for the ready gate (R45, R101). -/
  select : s.sel = .asserted → ∃ w k i, s.seq = .running w k ∧ decode w = .ok i ∧ atBus i s = true
  /-- STUCK_ITER is below STUCK_LIMIT, but for a recovery under way (R46, R172, log 11). -/
  stuck : s.stuckIter < Config.STUCK_LIMIT ∨ (s.stuckIter = Config.STUCK_LIMIT ∧ inRecovery s.pos = true)
  /-- The lengths of LENS lie within their buffers, and TXLEN is 0 or 60 (R36). -/
  lens : s.lens.rxlen.toNat ≤ Config.RXBUF_SIZE ∧ s.lens.declen.toNat ≤ Config.DECBUF_SIZE ∧
    s.lens.cmdlen.toNat ≤ Config.CMDBUF_SIZE ∧ (s.lens.txlen.toNat = 0 ∨ s.lens.txlen.toNat = Config.FRAME_LEN)
  /-- RSSI_DBM is its reset value or lies in -138 .. -11 (R35). -/
  rssi : s.rssiDbm = 0 ∨ (-138 ≤ s.rssiDbm.toInt ∧ s.rssiDbm.toInt ≤ -11)
  /-- DEC_VALID is 1 only with PKT_FOUND (R27). -/
  decoded : s.status.decValid = true → s.status.pktFound = true

end Sys2Proof.Machine
end

