-- ==== Sys2Proof/Certificates/Slice0/Obligations.lean ====
section
/-! DEFINITION. The statements for the provers, from the numbered rules of spec/. `s.answer j` is the transceiver's answer byte number j from state s on: a free value (log 2), so each statement holds whatever it is. -/

open Sys2Proof Sys2Proof.Machine

/-! Encoding (30_encoding.md). -/

/-- Every well-formed command is decoded back from its word, with every operand (R80, R85). -/
def Obligations.DecodeInvertsEncode : Prop :=
  ∀ i : Instr, i.WellFormed = true → decode (encode i) = .ok i

/-- A word that decodes is the word of exactly the command it decodes to, and that command is well formed (R84). -/
def Obligations.DecodedWordEncodesBack : Prop :=
  ∀ (w : Word) (i : Instr), decode w = .ok i → i.WellFormed = true ∧ encode i = w

/-- The match and mask columns of the opcode map select the command (R85). -/
def Obligations.DecodeFollowsMatchAndMask : Prop :=
  ∀ (w : Word) (i : Instr),
    (decode w = .ok i → w &&& i.mask = i.matchWord) ∧
    (w &&& i.mask = i.matchWord → ∃ j, decode w = .ok j ∧ j.opcode = i.opcode)

/-- The worked encodings of R85, words from the examples, and the words of every pseudo-command of R90 that stands for command
words: FLUSHRX, FLUSHTX, SIDLE, SRESET, RDSTATE, RDRXBYTES, RDVERSION and FRAME, the last at both ends of its count, which leaves
room for the 6 bytes that COMPOSE adds. (WAITDONE, R90's other row, is a loop of host reads.) The pseudo-commands' words rest on
the strobe codes and addresses of log 9. -/
def Obligations.WorkedWordsDecode : Prop :=
  decode 0x02350000#32 = .ok (.rreg 0x35#8) ∧ decode 0x03020006#32 = .ok (.wreg 0x02#8 0x06#8) ∧
  decode 0x063E1400#32 = .ok (.brd 0x3E#8 20) ∧ decode 0x11000800#32 = .ok (.encode 8) ∧
  decode 0x04360000#32 = .ok (.strobe 0x36#8) ∧ decode 0x08003C00#32 = .ok (.send 60) ∧
  decode 0x0B000000#32 = .ok .rxon ∧ decode 0x13000200#32 = .ok (.compose 2) ∧ decode 0x20000000#32 = .ok .irqack ∧
  (Pseudo.expand .flushRx).map encode = [0x043A0000#32] ∧ (Pseudo.expand .flushTx).map encode = [0x043B0000#32] ∧
  (Pseudo.expand .sidle).map encode = [0x04360000#32] ∧ (Pseudo.expand .sreset).map encode = [0x04300000#32] ∧
  (Pseudo.expand .rdState).map encode = [0x02350000#32] ∧ (Pseudo.expand .rdRxBytes).map encode = [0x023B0000#32] ∧
  (Pseudo.expand .rdVersion).map encode = [0x02310000#32] ∧
  (∀ l, Pseudo.expand (.frame l) = [.compose l, .encode (l + 6)]) ∧
  (Pseudo.expand (.frame 0)).map encode = [0x13000000#32, 0x11000600#32] ∧
  (Pseudo.expand (.frame 249)).map encode = [0x1300F900#32, 0x1100FF00#32]

/-- A command with a reserved opcode, or with a non-zero unused field, ends with ERR_ILLEGAL_OP and has no other effect
(R84, R86). -/
def Obligations.IllegalWordsEndWithIllegalOp : Prop :=
  ∀ (s : State) (w : Word) (k : Pos), s.seq = .running w k →
    (((0x0D ≤ (w.extractLsb' 24 8).toNat ∧ (w.extractLsb' 24 8).toNat ≤ 0x0F) ∨
      (0x14 ≤ (w.extractLsb' 24 8).toNat ∧ (w.extractLsb' 24 8).toNat ≤ 0x1F) ∨ 0x21 ≤ (w.extractLsb' 24 8).toNat) ∨
      (∃ i : Instr, w.extractLsb' 24 8 = i.opcode ∧ w &&& i.mask ≠ i.matchWord)) →
    s.sequencerStep
      = .next { s with seq := .idle, status := { s.status with err := .illegalOp, busy := false, done := true } }

/-! The step (R44, R91). -/

/-- A step of the sequencer runs the decoded command; around it the step only takes the move off the schedule. -/
def Obligations.StepRunsTheDecodedCommand : Prop :=
  ∀ (s : State) (w : Word) (k : Pos) (i : Instr) (rest : List Event), s.seq = .running w k → decode w = .ok i →
    (s.inputs = [] → step s = exec i s) ∧
    (s.inputs = .sequencer :: rest → step s = exec i { s with inputs := rest })

/-! The host port (20_memory.md). -/

/-- CMD: a write while BUSY = 0 issues, a write while BUSY = 1 is dropped with HVIOL, a read at any time returns the last issued
word and has no other effect, the reset value is 0 (R21, with the issue effects of R23, R24, R28, R31 and R71 for the read; the
model's draw counter and its observation are logs 3 and 12). -/
def Obligations.WriteToCmdIssues : Prop :=
  ∀ (s : State) (w : Word),
    (s.status.busy = false →
      s.hostAccess (.write32 0x000#9 w)
        = { s with cmd := w, seq := .running w .start,
                   status := { s.status with busy := true, done := false, warnCfg := false, warnPa := false, err := .ok,
                                             lastop := w.extractLsb' 24 8 } }) ∧
    (s.status.busy = true → s.hostAccess (.write32 0x000#9 w) = { s with status := { s.status with hviol := true } }) ∧
    s.hostAccess (.read32 0x000#9)
      = { s with drawCount := s.drawCount + 1, trace := .read32 0x000#9 s.cmd :: s.trace } ∧
    State.reset.cmd = 0x00000000#32

/-- Host accesses while BUSY = 1 (R65): a write changes only HVIOL, and a legal read changes nothing at all (R71). A value that
is a draw is the free word of the counter (log 3). That a read of a reserved or illegal address is a draw too, and that an illegal
one sets HVIOL as it does while BUSY = 0 (R61 to R63), is the model's choice (log 10). -/
def Obligations.AccessesWhileBusy : Prop :=
  ∀ s : State, s.status.busy = true →
    let within (a n : Nat) : Bool :=
      decide ((0x100 ≤ a ∧ a + n ≤ 0x13C) ∨ (0x140 ≤ a ∧ a + n ≤ 0x17C) ∨ (0x180 ≤ a ∧ a + n ≤ 0x1A0) ∨
        (0x1C0 ≤ a ∧ a + n ≤ 0x1D5))
    let legal32 (a : Nat) : Bool := decide (a % 4 = 0) && (decide (a < 0x100) || within a 4)
    let afterRead (legal : Bool) (o : Obs) : State :=
      { s with status := { s.status with hviol := s.status.hviol || !legal }, drawCount := s.drawCount + 1,
               trace := o :: s.trace }
    (∀ a v, s.hostAccess (.write8 a v) = { s with status := { s.status with hviol := true } }) ∧
    (∀ a v, s.hostAccess (.write32 a v) = { s with status := { s.status with hviol := true } }) ∧
    (∀ a : HostAddr, s.hostAccess (.read8 a)
      = afterRead (within a.toNat 1) (.read8 a ((Config.freeWord s.drawCount).extractLsb' 0 8))) ∧
    (∀ a : HostAddr, ∃ v : Word, s.hostAccess (.read32 a) = afterRead (legal32 a.toNat) (.read32 a v) ∧
      (a = 0x000#9 → v = s.cmd) ∧
      (a = 0x004#9 → v.getLsbD 0 = true ∧ v.getLsbD 7 = s.status.hviol ∧
        ∀ j, j ≠ 0 → j ≠ 7 → v.getLsbD j = (Config.freeWord s.drawCount).getLsbD j) ∧
      (a = 0x024#9 → v = if s.irqFlag then 0x00000001#32 else 0x00000000#32) ∧
      (a = 0x028#9 → v = s.irqCnt) ∧
      (a ≠ 0x000#9 → a ≠ 0x004#9 → a ≠ 0x024#9 → a ≠ 0x028#9 → v = Config.freeWord s.drawCount))

/-- The fields of the STATUS word (R22), and the seven codes of ERR (R303). -/
def Obligations.StatusWordFields : Prop :=
  (ErrCode.code .ok = 0x00#8 ∧ ErrCode.code .illegalOp = 0x01#8 ∧ ErrCode.code .range = 0x02#8 ∧
    ErrCode.code .len = 0x03#8 ∧ ErrCode.code .chipNotFound = 0x04#8 ∧ ErrCode.code .notInit = 0x05#8 ∧
    ErrCode.code .noAddr = 0x06#8) ∧
  ∀ t : Status,
    t.word.getLsbD 0 = t.busy ∧ t.word.getLsbD 1 = t.done ∧ t.word.getLsbD 2 = t.chipOk ∧
    t.word.getLsbD 3 = t.pktFound ∧ t.word.getLsbD 4 = t.decValid ∧ t.word.getLsbD 5 = t.warnCfg ∧
    t.word.getLsbD 6 = t.warnPa ∧ t.word.getLsbD 7 = t.hviol ∧ t.word.getLsbD 8 = t.addrSet ∧
    t.word.extractLsb' 9 7 = 0#7 ∧ t.word.extractLsb' 16 8 = t.err.code ∧ t.word.extractLsb' 24 8 = t.lastop

/-- A 32-bit read of each register while BUSY = 0 returns it, with its unused bits 0 and RSSI_DBM sign-extended
(R20, R32 to R41), and has no side effect on any state of the block (R71): the whole next state is the state before but for the
model's draw counter and its observation (logs 3 and 12). -/
def Obligations.RegisterReadsReturnTheRegister : Prop :=
  ∀ s : State, s.status.busy = false →
    let value (a : HostAddr) (v : Word) : Prop :=
      s.hostAccess (.read32 a) = { s with drawCount := s.drawCount + 1, trace := .read32 a v :: s.trace }
    value 0x000#9 s.cmd ∧ value 0x004#9 s.status.word ∧ value 0x008#9 (s.rdata.setWidth 32) ∧ value 0x00C#9 (s.ownAddr.setWidth 32) ∧
    value 0x010#9 (s.rollCnt.setWidth 32) ∧ value 0x014#9 (BitVec.ofInt 32 s.rssiDbm.toInt) ∧
    (∀ v : Word, v.extractLsb' 0 8 = s.lens.rxlen → v.extractLsb' 8 8 = s.lens.declen →
      v.extractLsb' 16 8 = s.lens.cmdlen → v.extractLsb' 24 8 = s.lens.txlen → value 0x018#9 v) ∧
    (∀ v : Word, v.extractLsb' 0 8 = s.chipid.partnum → v.extractLsb' 8 8 = s.chipid.version →
      v.extractLsb' 16 16 = 0#16 → value 0x01C#9 v) ∧
    (∀ v : Word, v.extractLsb' 0 8 = s.decinfo.hoff → v.extractLsb' 8 8 = s.decinfo.ftr →
      v.extractLsb' 16 8 = s.decinfo.plen → v.extractLsb' 24 8 = 0#8 → value 0x020#9 v) ∧
    value 0x024#9 (if s.irqFlag then 0x00000001#32 else 0x00000000#32) ∧ value 0x028#9 s.irqCnt ∧
    (∀ a : HostAddr, 0x02C ≤ a.toNat → a.toNat < 0x100 → a.toNat % 4 = 0 → value a 0x00000000#32)

/-- Bad host accesses while BUSY = 0 (R63): a dropped write changes only HVIOL, a dropped read returns 0 besides, and a
read of a reserved register offset returns 0 without HVIOL. The two clauses on narrow and misaligned accesses to the register
window are R61's. Every read moves the model's draw counter (log 3). -/
def Obligations.BadAccessesOnlySetHviol : Prop :=
  ∀ (s : State) (a : HostAddr), s.status.busy = false →
    let reservedBuffer : Prop := (0x13C ≤ a.toNat ∧ a.toNat ≤ 0x13F) ∨ (0x17C ≤ a.toNat ∧ a.toNat ≤ 0x17F) ∨
      (0x1A0 ≤ a.toNat ∧ a.toNat ≤ 0x1BF) ∨ (0x1D5 ≤ a.toNat ∧ a.toNat ≤ 0x1FF)
    let violated : State := { s with status := { s.status with hviol := true } }
    (a ∈ [0x004#9, 0x008#9, 0x014#9, 0x018#9, 0x01C#9, 0x020#9, 0x024#9, 0x028#9] →
      ∀ v, s.hostAccess (.write32 a v) = violated) ∧
    (a.toNat < 0x100 →
      (∀ v, s.hostAccess (.write8 a v) = violated) ∧
      s.hostAccess (.read8 a)
        = { violated with drawCount := s.drawCount + 1, trace := .read8 a 0x00#8 :: s.trace }) ∧
    (a.toNat < 0x100 → a.toNat % 4 ≠ 0 →
      (∀ v, s.hostAccess (.write32 a v) = violated) ∧
      s.hostAccess (.read32 a)
        = { violated with drawCount := s.drawCount + 1, trace := .read32 a 0x00000000#32 :: s.trace }) ∧
    (0x02C ≤ a.toNat → a.toNat < 0x100 → ∀ v, s.hostAccess (.write32 a v) = violated) ∧
    ((0x1C0 ≤ a.toNat ∧ a.toNat ≤ 0x1D4) ∨ reservedBuffer →
      (∀ v, s.hostAccess (.write8 a v) = violated) ∧ (∀ v, s.hostAccess (.write32 a v) = violated)) ∧
    (reservedBuffer →
      s.hostAccess (.read8 a)
        = { violated with drawCount := s.drawCount + 1, trace := .read8 a 0x00#8 :: s.trace } ∧
      s.hostAccess (.read32 a)
        = { violated with drawCount := s.drawCount + 1, trace := .read32 a 0x00000000#32 :: s.trace }) ∧
    (0x02C ≤ a.toNat → a.toNat < 0x100 → a.toNat % 4 = 0 →
      s.hostAccess (.read32 a)
        = { s with drawCount := s.drawCount + 1, trace := .read32 a 0x00000000#32 :: s.trace })

/-- Accesses to buffer byte `i` of buffer `b` while BUSY = 0 (R62). A legal read returns each byte that has been written in its
place and has no side effect on any state of the block (R71; the model's draw counter and its observation are logs 3 and 12). -/
def Obligations.BufferAccessesAreLittleEndian : Prop :=
  ∀ (s : State) (b : Buf) (i : Nat) (a : HostAddr), s.status.busy = false → i < b.size → a.toNat = b.base + i →
    (∃ v : Byte, s.hostAccess (.read8 a) = { s with drawCount := s.drawCount + 1, trace := .read8 a v :: s.trace } ∧
      ∀ x, bufRead s.mem b i = some x → v = x) ∧
    (b ≠ .decbuf → ∀ v, ∃ m, s.hostAccess (.write8 a v) = { s with mem := m } ∧ m.read a.toNat = some v ∧
      ∀ x, x ≠ a.toNat → m.read x = s.mem.read x) ∧
    (a.toNat % 4 = 0 → i + 3 < b.size →
      (∃ w : Word, s.hostAccess (.read32 a) = { s with drawCount := s.drawCount + 1, trace := .read32 a w :: s.trace } ∧
        (∀ x, bufRead s.mem b i = some x → w.extractLsb' 0 8 = x) ∧
        (∀ x, bufRead s.mem b (i + 1) = some x → w.extractLsb' 8 8 = x) ∧
        (∀ x, bufRead s.mem b (i + 2) = some x → w.extractLsb' 16 8 = x) ∧
        (∀ x, bufRead s.mem b (i + 3) = some x → w.extractLsb' 24 8 = x)) ∧
      (b ≠ .decbuf → ∀ w : Word, ∃ m, s.hostAccess (.write32 a w) = { s with mem := m } ∧
        bufRead m b i = some (w.extractLsb' 0 8) ∧ bufRead m b (i + 1) = some (w.extractLsb' 8 8) ∧
        bufRead m b (i + 2) = some (w.extractLsb' 16 8) ∧ bufRead m b (i + 3) = some (w.extractLsb' 24 8) ∧
        ∀ x, (x < a.toNat ∨ a.toNat + 4 ≤ x) → m.read x = s.mem.read x)) ∧
    (a.toNat % 4 ≠ 0 ∨ b.size ≤ i + 3 →
      (∀ w, s.hostAccess (.write32 a w) = { s with status := { s.status with hviol := true } }) ∧
      s.hostAccess (.read32 a)
        = { s with status := { s.status with hviol := true }, drawCount := s.drawCount + 1,
                   trace := .read32 a 0x00000000#32 :: s.trace })

/-- Writes of OWN_ADDR and ROLL_CNT while BUSY = 0: their unused bits are ignored, and OWN_ADDR sets ADDR_SET (R33, R34). -/
def Obligations.WritableRegistersKeepTheirBits : Prop :=
  ∀ (s : State) (v : Word), s.status.busy = false →
    s.hostAccess (.write32 0x00C#9 v)
      = { s with ownAddr := v.extractLsb' 0 24, status := { s.status with addrSet := true } } ∧
    s.hostAccess (.write32 0x010#9 v) = { s with rollCnt := v.extractLsb' 0 8 }

/-! The edge source and RESET. -/

/-- An edge event (log 4 says when one moves) sets the flag and counts, at any time, and nothing else; no command sets the flag or changes the counter,
and only IRQACK clears the flag (R310). -/
def Obligations.EdgeEventSetsFlagAndCounts : Prop :=
  (∀ (s : State) (rest : List Event), s.inputs = .edge :: rest →
    step s = .next { s with inputs := rest, irqFlag := true, irqCnt := s.irqCnt + 1 }) ∧
  (∀ (i : Instr) (s t : State), exec i s = .next t →
    t.irqCnt = s.irqCnt ∧ (t.irqFlag = s.irqFlag ∨ (i = .irqack ∧ t.irqFlag = false)))

/-- RESET puts every piece of the block's state to its reset value, abandons a running command (R340) and leaves the
transceiver, the schedule and the observation alone (R342, log 15). -/
def Obligations.ResetEventResetsTheBlock : Prop :=
  ∀ (s : State) (rest : List Event), s.inputs = .reset :: rest →
    step s = .next { State.reset with rdy := s.rdy, answers := s.answers, inputs := rest, drawCount := s.drawCount,
                                      trace := s.trace }

/-- The reset values of R341, after which the block waits for the host's first command. -/
def Obligations.ResetValues : Prop :=
  State.reset.cmd = 0 ∧ State.reset.status.word = 0 ∧ State.reset.rdata = 0 ∧ State.reset.ownAddr = 0 ∧
  State.reset.rollCnt = 0 ∧ State.reset.rssiDbm = 0 ∧ State.reset.lens = ⟨0, 0, 0, 0⟩ ∧ State.reset.chipid = ⟨0, 0⟩ ∧
  State.reset.decinfo = ⟨0, 0, 0⟩ ∧ State.reset.irqFlag = false ∧ State.reset.irqCnt = 0 ∧
  (∀ b i, bufRead State.reset.mem b i = none) ∧ State.reset.seq = .idle ∧ State.reset.sel = .deasserted ∧
  State.reset.stuckIter = 0 ∧ State.reset.sequencerStep = .next State.reset

/-! Checks, errors and faults (60_exceptions.md). -/

/-- The initialisation gate: the eleven bus-driving commands end with ERR_NOT_INIT, before any transaction, while CHIP_OK is
0; no other command ever reports it (R109). -/
def Obligations.BusCommandsNeedChipOk : Prop :=
  (∀ (i : Instr) (s : State), usesBus i = true → s.pos = .start → s.status.chipOk = false →
    exec i s = .next { s with seq := .idle, status := { s.status with err := .notInit, busy := false, done := true } }) ∧
  (∀ (i : Instr) (s t : State), usesBus i = false → exec i s = .next t → t.status.err = .notInit →
    s.status.err = .notInit)

/-- The first failing check in the order of R304 is reported, and a refused command changes only STATUS (R302). -/
def Obligations.FirstFailingCheckIsReported : Prop :=
  (∀ (s : State) (w : Word) (k : Pos) (e : DecodeError), s.seq = .running w k → decode w = .error e →
    s.sequencerStep
      = .next { s with seq := .idle, status := { s.status with err := .illegalOp, busy := false, done := true } }) ∧
  (∀ (i : Instr) (s : State) (e : ErrCode), s.pos = .start → firstError i s = some e →
    exec i s = .next { s with seq := .idle, status := { s.status with err := e, busy := false, done := true } })

/-- No error comes later: past its checks a command never reports one, but for INIT's ERR_CHIP_NOT_FOUND, so no count of
recoveries ends a command with an error (R351, R312). -/
def Obligations.NoErrorAfterTheChecks : Prop :=
  ∀ (i : Instr) (s t : State), belongs i s.pos = true → exec i s = .next t → t.status.err ≠ s.status.err →
    (s.pos = .start ∧ firstError i s = some t.status.err) ∨
    (i = .init ∧ t.status.err = .chipNotFound ∧ t.status.chipOk = false)

/-- The model fault UNDEF: raised exactly when a command that passed its checks consumes a byte that was never written, at the
first such byte; otherwise every command goes on. A host read of such a byte is no fault but a draw (R308; the draw is log 3). -/
def Obligations.UndefinedByteFaults : Prop :=
  (∀ (i : Instr) (s : State), s.pos = .start → firstError i s = none → inputsDefined i s = true →
    goesOn (exec i s)) ∧
  (∀ (i : Instr) (s : State) (b : Buf) (n j : Nat), s.pos = .start → firstError i s = none →
    consumes i = some (b, n) → j < n → bufRead s.mem b j = none → (∀ k, k < j → (bufRead s.mem b k).isSome = true) →
    exec i s = .fault (.undef b j)) ∧
  (∀ (i : Instr) (s : State), belongs i s.pos = true → s.pos ≠ .start → goesOn (exec i s)) ∧
  (∀ (s : State) (b : Buf) (j : Nat) (a : HostAddr), s.status.busy = false → j < b.size → a.toNat = b.base + j →
    bufRead s.mem b j = none →
    s.hostAccess (.read8 a)
      = { s with drawCount := s.drawCount + 1,
                 trace := .read8 a ((Config.freeWord s.drawCount).extractLsb' 0 8) :: s.trace })

/-! The bus (40_register_arbiter.md). -/

/-- The ready gate: while RDY is false a command at a transaction is held where it is, with SEL asserted, no byte exchanged and
nothing else changed; but BWR's warnings, given before its transaction (R142), are there already (R101; the form of the hold is
log 6). -/
def Obligations.ReadyGateHoldsTheSequencer : Prop :=
  ∀ (i : Instr) (s : State), belongs i s.pos = true → atBus i s = true → s.rdy = false →
    ((∀ a l, i ≠ .bwr a l) → exec i s = .next { s with sel := .asserted }) ∧
    (∀ a l, i = .bwr a l →
      exec i s = .next
        { s with sel := .asserted,
                 status := { s.status with
                   warnCfg := s.status.warnCfg || (decide (a.toNat ≤ 0x2E) && decide (1 ≤ l) && decide (0x2E < a.toNat + l - 1)),
                   warnPa := s.status.warnPa || (a == 0x3E#8 && decide (8 < l)) } })

/-- A step makes one transaction or none: at a transaction with RDY true exactly one, after which SEL is deasserted; elsewhere
the bus, the answers and the observation are untouched (R100, R102, R45). -/
def Obligations.OneTransactionPerStep : Prop :=
  ∀ (i : Instr) (s t : State), belongs i s.pos = true → exec i s = .next t →
    (atBus i s = true → s.rdy = true →
      t.sel = .deasserted ∧ ∃ out, out ≠ [] ∧ t.trace = .txn out (s.received out.length) :: s.trace ∧
        t.answers = s.answers.drop out.length ∧ t.drawCount = s.drawCount + out.length) ∧
    (atBus i s = false →
      t.sel = s.sel ∧ t.trace = s.trace ∧ t.answers = s.answers ∧ t.drawCount = s.drawCount)

/-! The arbiter's commands. -/

/-- NOP (R110). -/
def Obligations.NopOnlyCompletes : Prop :=
  (∀ s : State, exec .nop s = .next { s with seq := .idle, status := { s.status with busy := false, done := true } }) ∧
  (∀ s : State, s.inputs = [] →
    step (s.issue 0x00000000#32)
      = .next { s with cmd := 0x00000000#32, seq := .idle,
                       status := { s.status with busy := false, done := true, err := .ok, warnCfg := false,
                                                 warnPa := false, lastop := 0x00#8 } })

/-- INIT: five transactions and CHIP_OK when the version byte is good, three and ERR_CHIP_NOT_FOUND when it is 0x00 or 0xFF;
and its last step alone (R111). -/
def Obligations.InitIdentifiesTheChip : Prop :=
  (∀ (s : State) (w : Word), s.seq = .running w .start → s.rdy = true →
    s.answer 4 ≠ 0x00#8 → s.answer 4 ≠ 0xFF#8 →
    execs .init 5 s = .next
      { s with chipid := ⟨s.answer 2, s.answer 4⟩, seq := .idle, sel := .deasserted,
               status := { s.status with chipOk := true, busy := false, done := true },
               answers := s.answers.drop 7, drawCount := s.drawCount + 7,
               trace := .txn [0x3B#8] [s.answer 6] :: .txn [0x3A#8] [s.answer 5]
                 :: .txn [0xF1#8, 0x00#8] [s.answer 3, s.answer 4] :: .txn [0xF0#8, 0x00#8] [s.answer 1, s.answer 2]
                 :: .txn [0x30#8] [s.answer 0] :: s.trace }) ∧
  (∀ (s : State) (w : Word), s.seq = .running w .start → s.rdy = true →
    s.answer 4 = 0x00#8 ∨ s.answer 4 = 0xFF#8 →
    execs .init 3 s = .next
      { s with chipid := ⟨s.answer 2, s.answer 4⟩, seq := .idle, sel := .deasserted,
               status := { s.status with chipOk := false, err := .chipNotFound, busy := false, done := true },
               answers := s.answers.drop 5, drawCount := s.drawCount + 5,
               trace := .txn [0xF1#8, 0x00#8] [s.answer 3, s.answer 4]
                 :: .txn [0xF0#8, 0x00#8] [s.answer 1, s.answer 2] :: .txn [0x30#8] [s.answer 0] :: s.trace }) ∧
  (∀ (s : State) (w : Word), s.seq = .running w .initFlushTx → s.rdy = true →
    exec .init s = .next
      { s with seq := .idle, sel := .deasserted,
               status := { s.status with chipOk := true, busy := false, done := true },
               answers := s.answers.drop 1, drawCount := s.drawCount + 1,
               trace := .txn [0x3B#8] [s.answer 0] :: s.trace })

/-- RREG of an address that does not glitch: one transaction, and its byte in RDATA (R112, R105). -/
def Obligations.RregReadsOnce : Prop :=
  ∀ (s : State) (w : Word) (a : Byte), s.seq = .running w .start → s.rdy = true → s.status.chipOk = true →
    a.toNat < 0x40 → a ≠ 0x2F#8 → a ∉ [0x32#8, 0x35#8, 0x36#8, 0x37#8, 0x3A#8, 0x3B#8] →
    exec (.rreg a) s = .next
      { s with rdata := s.answer 1, seq := .idle, sel := .deasserted,
               status := { s.status with busy := false, done := true },
               answers := s.answers.drop 2, drawCount := s.drawCount + 2,
               trace := .txn [(if 0x30 ≤ a.toNat ∧ a.toNat ≤ 0x3D then 0xC0#8 else 0x80#8) ||| a, 0x00#8]
                 [s.answer 0, s.answer 1] :: s.trace }

/-- Read-until-stable (R104) wherever a command reads until stable. On the six glitching registers a first read is kept, a second
one that agrees ends RREG with the value in RDATA, and one that differs starts a fresh pair. The byte count of RECV and the
run-state polls of IDLE, RXON, TXON and SEND treat a first read and a second one that differs in the same way, and nothing else
changes: no poll is counted in STUCK_ITER. RECV's second read that agrees gives the count (R148); the run-state polls' is stated in
AwaitedRunStateCompletes and the statements after it. -/
def Obligations.RregReadsUntilStable : Prop :=
  ∀ (s : State) (w : Word), s.rdy = true →
    let after (hb : Byte) : State :=
      { s with sel := .deasserted, answers := s.answers.drop 2, drawCount := s.drawCount + 2,
               trace := .txn [hb, 0x00#8] [s.answer 0, s.answer 1] :: s.trace }
    (∀ a : Byte, a ∈ [0x32#8, 0x35#8, 0x36#8, 0x37#8, 0x3A#8, 0x3B#8] →
      (s.seq = .running w .start → s.status.chipOk = true →
        exec (.rreg a) s = .next { after (0xC0#8 ||| a) with seq := .running w (.rregRead (some (s.answer 1))) }) ∧
      (s.seq = .running w (.rregRead none) →
        exec (.rreg a) s = .next { after (0xC0#8 ||| a) with seq := .running w (.rregRead (some (s.answer 1))) }) ∧
      (∀ v, s.seq = .running w (.rregRead (some v)) → v = s.answer 1 →
        exec (.rreg a) s = .next
          { after (0xC0#8 ||| a) with rdata := v, seq := .idle, status := { s.status with busy := false, done := true } }) ∧
      (∀ v, s.seq = .running w (.rregRead (some v)) → v ≠ s.answer 1 →
        exec (.rreg a) s = .next { after (0xC0#8 ||| a) with seq := .running w (.rregRead none) })) ∧
    (∀ (i : Instr) (place : Option Byte → Pos) (hb : Byte),
      ((∃ l, i = .recv l ∧ place = .recvCount ∧ hb = 0xFB#8) ∨
        (hb = 0xF5#8 ∧
          ((i = .idle ∧ place = fun v => .idleWait (.poll v)) ∨
            (i = .rxon ∧ place = fun v => .rxonWait (.idle (.poll v))) ∨ (i = .rxon ∧ place = fun v => .rxonWait (.poll v)) ∨
            (i = .txon ∧ place = fun v => .txonWait (.idle (.poll v))) ∨ (i = .txon ∧ place = fun v => .txonWait (.poll v)) ∨
            (∃ l bytes, i = .send l ∧ place = fun v => .sendEnter bytes (.idle (.poll v))) ∨
            (∃ l bytes, i = .send l ∧ place = fun v => .sendEnter bytes (.poll v)) ∨
            (∃ l, i = .send l ∧ place = .sendPoll)))) →
      (s.seq = .running w (place none) →
        exec i s = .next { after hb with seq := .running w (place (some (s.answer 1))) }) ∧
      (∀ v, s.seq = .running w (place (some v)) → v ≠ s.answer 1 →
        exec i s = .next { after hb with seq := .running w (place none) })) ∧
    (∀ (l n : Nat) (v : Byte), s.seq = .running w (.recvCount (some v)) → v = s.answer 1 → n = min (v &&& 0x7F#8).toNat l →
      exec (.recv l) s = .next
        (if n = 0 then
          { after 0xFB#8 with lens := { s.lens with rxlen := 0x00#8 }, seq := .idle,
                              status := { s.status with busy := false, done := true } }
        else { after 0xFB#8 with seq := .running w (.recvBurst n) }))

/-- WREG: one transaction with the address and the value (R113). -/
def Obligations.WregWritesOnce : Prop :=
  ∀ (s : State) (a d : Byte), s.pos = .start → s.rdy = true → s.status.chipOk = true →
    (a.toNat ≤ 0x2E ∨ a = 0x3E#8 ∨ a = 0x3F#8) →
    exec (.wreg a d) s = .next
      { s with seq := .idle, sel := .deasserted, status := { s.status with busy := false, done := true },
               answers := s.answers.drop 2, drawCount := s.drawCount + 2,
               trace := .txn [a, d] [s.answer 0, s.answer 1] :: s.trace }

/-- STROBE: one single-byte transaction, and the status byte returned in RDATA (R114). -/
def Obligations.StrobeReturnsTheStatusByte : Prop :=
  ∀ (s : State) (c : Byte), s.pos = .start → s.rdy = true → s.status.chipOk = true →
    0x30 ≤ c.toNat → c.toNat ≤ 0x3D →
    exec (.strobe c) s = .next
      { s with rdata := s.answer 0, seq := .idle, sel := .deasserted,
               status := { s.status with busy := false, done := true },
               answers := s.answers.drop 1, drawCount := s.drawCount + 1,
               trace := .txn [c] [s.answer 0] :: s.trace }

/-- The RSSI conversion: two's complement, halved toward zero, less 74; always in -138 .. -11 (R115). -/
def Obligations.RssiConversionTruncates : Prop :=
  ∀ raw : Byte,
    (raw.toNat < 128 → rssiToDbm raw = ((raw.toNat / 2 : Nat) : Int) - 74) ∧
    (128 ≤ raw.toNat → rssiToDbm raw = -(((256 - raw.toNat) / 2 : Nat) : Int) - 74) ∧
    -138 ≤ rssiToDbm raw ∧ rssiToDbm raw ≤ -11

/-- RSSI: one read of the RSSI register, then the conversion, sign-extended when read (R116). -/
def Obligations.RssiReadsAndConverts : Prop :=
  (∀ (s : State) (w : Word), s.seq = .running w .start → s.rdy = true → s.status.chipOk = true →
    exec .rssi s = .next
      { s with seq := .running w (.rssiConvert (s.answer 1)), sel := .deasserted,
               answers := s.answers.drop 2, drawCount := s.drawCount + 2,
               trace := .txn [0xF4#8, 0x00#8] [s.answer 0, s.answer 1] :: s.trace }) ∧
  (∀ (s : State) (w : Word) (raw : Byte), s.seq = .running w (.rssiConvert raw) →
    ∃ x : BitVec 16, x.toInt = rssiToDbm raw ∧
      exec .rssi s = .next
        { s with rssiDbm := x, seq := .idle, status := { s.status with busy := false, done := true } })

/-! The burst controller (41_fifo_burst.md). -/

/-- BRD: `n` bytes in one transaction go to RXBUF and RXLEN is `n`; no transaction when `n` is 0 (R145, R141). -/
def Obligations.BrdReadsIntoRxbuf : Prop :=
  ∀ (s : State) (a : Byte) (l n : Nat), s.pos = .start → s.status.chipOk = true → (n = 0 ∨ s.rdy = true) →
    ((a.toNat ≤ 0x2E ∧ (l = 0 ∨ a.toNat + l - 1 ≤ 0x2E) ∧ n = l) ∨ (a = 0x3E#8 ∧ n = min l 8) ∨
      (a = 0x3F#8 ∧ l ≤ 60 ∧ n = l)) →
    ∃ m, storedAt s.mem m .rxbuf ((List.range n).map (fun j => s.answer (j + 1))) ∧
      exec (.brd a l) s = .next
        { s with mem := m, lens := { s.lens with rxlen := BitVec.ofNat 8 n }, seq := .idle,
                 status := { s.status with busy := false, done := true },
                 sel := if n = 0 then s.sel else .deasserted,
                 answers := if n = 0 then s.answers else s.answers.drop (n + 1),
                 drawCount := if n = 0 then s.drawCount else s.drawCount + (n + 1),
                 trace := if n = 0 then s.trace
                   else .txn ((0xC0#8 ||| a) :: List.replicate n 0x00#8) ((List.range (n + 1)).map s.answer) :: s.trace }

/-- BWR: all `l` bytes of TXBUF in one transaction, with a warning when they run past 0x2E or past the PA table, and no byte of
memory changed (R146, R142). -/
def Obligations.BwrWritesAndWarns : Prop :=
  ∀ (s : State) (a : Byte) (l : Nat) (bytes : List Byte), s.pos = .start → s.status.chipOk = true →
    (l = 0 ∨ s.rdy = true) → (a.toNat ≤ 0x2E ∨ a = 0x3E#8 ∨ a = 0x3F#8) → l ≤ 60 → bytes.length = l →
    holdsBytes s.mem .txbuf bytes →
    exec (.bwr a l) s = .next
      { s with seq := .idle,
               status := { s.status with
                 warnCfg := s.status.warnCfg || (decide (a.toNat ≤ 0x2E) && decide (1 ≤ l) && decide (0x2E < a.toNat + l - 1)),
                 warnPa := s.status.warnPa || (a == 0x3E#8 && decide (8 < l)), busy := false, done := true },
               sel := if l = 0 then s.sel else .deasserted,
               answers := if l = 0 then s.answers else s.answers.drop (l + 1),
               drawCount := if l = 0 then s.drawCount else s.drawCount + (l + 1),
               trace := if l = 0 then s.trace
                 else .txn ((0x40#8 ||| a) :: bytes) ((List.range (l + 1)).map s.answer) :: s.trace }

/-- SEND when every poll is stable on its first pair and meets its target: flush, enter TX, one burst (none for 0 bytes),
completion poll; no byte of memory changed (R147). -/
def Obligations.SendRunsToCompletion : Prop :=
  ∀ (s : State) (w : Word) (l c : Nat) (bytes : List Byte), s.seq = .running w .start → s.rdy = true →
    s.status.chipOk = true → l ≤ 60 → bytes.length = l → holdsBytes s.mem .txbuf bytes →
    c = (if l = 0 then 11 else 12 + l) →
    s.answer 3 = s.answer 5 → s.answer 5 &&& 0x1F#8 = 0x01#8 →
    s.answer 8 = s.answer 10 → s.answer 10 &&& 0x1F#8 = 0x13#8 →
    s.answer (c + 1) = s.answer (c + 3) →
    (s.answer (c + 3) &&& 0x1F#8 = 0x01#8 ∨ s.answer (c + 3) &&& 0x1F#8 = 0x16#8) →
    execs (.send l) (if l = 0 then 9 else 10) s = .next
      { s with seq := .idle, sel := .deasserted, stuckIter := 0,
               status := { s.status with busy := false, done := true },
               answers := s.answers.drop (c + 4), drawCount := s.drawCount + (c + 4),
               trace := .txn [0xF5#8, 0x00#8] [s.answer (c + 2), s.answer (c + 3)]
                 :: .txn [0xF5#8, 0x00#8] [s.answer c, s.answer (c + 1)]
                 :: ((if l = 0 then [] else [.txn (0x7F#8 :: bytes) ((List.range (l + 1)).map (fun j => s.answer (11 + j)))])
                   ++ .txn [0xF5#8, 0x00#8] [s.answer 9, s.answer 10] :: .txn [0xF5#8, 0x00#8] [s.answer 7, s.answer 8]
                   :: .txn [0x35#8] [s.answer 6] :: .txn [0xF5#8, 0x00#8] [s.answer 4, s.answer 5]
                   :: .txn [0xF5#8, 0x00#8] [s.answer 2, s.answer 3] :: .txn [0x36#8] [s.answer 1]
                   :: .txn [0x3B#8] [s.answer 0] :: s.trace) }

/-- RECV with a count that is stable on its first pair: min(count & 0x7F, l) bytes go to RXBUF and RXLEN; no burst for 0; and
its last step alone (R148). -/
def Obligations.RecvReadsTheCountedBytes : Prop :=
  (∀ (s : State) (w : Word) (l n : Nat), s.seq = .running w .start → s.rdy = true → s.status.chipOk = true →
    l ≤ 60 → s.answer 1 = s.answer 3 → n = min (s.answer 3 &&& 0x7F#8).toNat l →
    ∃ m, storedAt s.mem m .rxbuf ((List.range n).map (fun j => s.answer (5 + j))) ∧
      execs (.recv l) (if n = 0 then 2 else 3) s = .next
        { s with mem := m, lens := { s.lens with rxlen := BitVec.ofNat 8 n }, seq := .idle, sel := .deasserted,
                 status := { s.status with busy := false, done := true },
                 answers := s.answers.drop (if n = 0 then 4 else 5 + n),
                 drawCount := s.drawCount + (if n = 0 then 4 else 5 + n),
                 trace := (if n = 0 then []
                     else [.txn (0xFF#8 :: List.replicate n 0x00#8) ((List.range (n + 1)).map (fun j => s.answer (4 + j)))])
                   ++ .txn [0xFB#8, 0x00#8] [s.answer 2, s.answer 3] :: .txn [0xFB#8, 0x00#8] [s.answer 0, s.answer 1]
                   :: s.trace }) ∧
  (∀ (s : State) (w : Word) (l n : Nat), s.seq = .running w (.recvBurst n) → s.rdy = true → 1 ≤ n → n ≤ 60 →
    ∃ m, storedAt s.mem m .rxbuf ((List.range n).map (fun j => s.answer (j + 1))) ∧
      exec (.recv l) s = .next
        { s with mem := m, lens := { s.lens with rxlen := BitVec.ofNat 8 n }, seq := .idle, sel := .deasserted,
                 status := { s.status with busy := false, done := true },
                 answers := s.answers.drop (n + 1), drawCount := s.drawCount + (n + 1),
                 trace := .txn (0xFF#8 :: List.replicate n 0x00#8) ((List.range (n + 1)).map s.answer) :: s.trace })

/-! The run-state waits (42_radio_state.md). -/

/-- IDLE when the first poll is stable and reads MARC_IDLE: exactly three transactions (R174). -/
def Obligations.IdleRunsToCompletion : Prop :=
  ∀ (s : State) (w : Word), s.seq = .running w .start → s.rdy = true → s.status.chipOk = true →
    s.answer 2 = s.answer 4 → s.answer 4 &&& 0x1F#8 = 0x01#8 →
    execs .idle 3 s = .next
      { s with seq := .idle, sel := .deasserted, status := { s.status with busy := false, done := true },
               answers := s.answers.drop 5, drawCount := s.drawCount + 5,
               trace := .txn [0xF5#8, 0x00#8] [s.answer 3, s.answer 4]
                 :: .txn [0xF5#8, 0x00#8] [s.answer 1, s.answer 2] :: .txn [0x36#8] [s.answer 0] :: s.trace }

/-- RXON and TXON when the polls are stable and read idle, then the target: six transactions (R175, R176). -/
def Obligations.EntryCommandsRunToCompletion : Prop :=
  ∀ (s : State) (w : Word) (i : Instr) (entry target : Byte),
    ((i = .rxon ∧ entry = 0x34#8 ∧ target = 0x0D#8) ∨ (i = .txon ∧ entry = 0x35#8 ∧ target = 0x13#8)) →
    s.seq = .running w .start → s.rdy = true → s.status.chipOk = true →
    s.answer 2 = s.answer 4 → s.answer 4 &&& 0x1F#8 = 0x01#8 →
    s.answer 7 = s.answer 9 → s.answer 9 &&& 0x1F#8 = target →
    execs i 6 s = .next
      { s with seq := .idle, sel := .deasserted, stuckIter := 0,
               status := { s.status with busy := false, done := true },
               answers := s.answers.drop 10, drawCount := s.drawCount + 10,
               trace := .txn [0xF5#8, 0x00#8] [s.answer 8, s.answer 9] :: .txn [0xF5#8, 0x00#8] [s.answer 6, s.answer 7]
                 :: .txn [entry] [s.answer 5] :: .txn [0xF5#8, 0x00#8] [s.answer 3, s.answer 4]
                 :: .txn [0xF5#8, 0x00#8] [s.answer 1, s.answer 2] :: .txn [0x36#8] [s.answer 0] :: s.trace }

/-- The last poll of IDLE, RXON, TXON and SEND: a second read that agrees and shows the awaited run-state completes the command.
The awaited poll of a wait inside RXON, TXON and SEND goes on to what the wait was for: the entry strobe after ForceIdle, and after
EnterTx SEND's burst, or its completion poll when there is no byte (R170, R171, R173, R147). -/
def Obligations.AwaitedRunStateCompletes : Prop :=
  ∀ (s : State) (w : Word) (k : Pos) (i : Instr) (v : Byte), s.seq = .running w k → s.rdy = true → v = s.answer 1 →
    let after : State :=
      { s with sel := .deasserted, answers := s.answers.drop 2, drawCount := s.drawCount + 2,
               trace := .txn [0xF5#8, 0x00#8] [s.answer 0, s.answer 1] :: s.trace }
    (((i = .idle ∧ k = .idleWait (.poll (some v)) ∧ v &&& 0x1F#8 = 0x01#8) ∨
        (i = .rxon ∧ k = .rxonWait (.poll (some v)) ∧ v &&& 0x1F#8 = 0x0D#8) ∨
        (i = .txon ∧ k = .txonWait (.poll (some v)) ∧ v &&& 0x1F#8 = 0x13#8) ∨
        (∃ l, i = .send l ∧ k = .sendPoll (some v) ∧ (v &&& 0x1F#8 = 0x01#8 ∨ v &&& 0x1F#8 = 0x16#8))) →
      exec i s = .next { after with seq := .idle, status := { s.status with busy := false, done := true } }) ∧
    (∀ k' : Pos,
      ((i = .rxon ∧ k = .rxonWait (.idle (.poll (some v))) ∧ k' = .rxonWait .strobe ∧ v &&& 0x1F#8 = 0x01#8) ∨
        (i = .txon ∧ k = .txonWait (.idle (.poll (some v))) ∧ k' = .txonWait .strobe ∧ v &&& 0x1F#8 = 0x01#8) ∨
        (∃ l bytes, i = .send l ∧ k = .sendEnter bytes (.idle (.poll (some v))) ∧ k' = .sendEnter bytes .strobe ∧
          v &&& 0x1F#8 = 0x01#8) ∨
        (∃ l bytes, i = .send l ∧ k = .sendEnter bytes (.poll (some v)) ∧
          k' = (if bytes = [] then .sendPoll none else .sendBurst bytes) ∧ v &&& 0x1F#8 = 0x13#8)) →
      exec i s = .next { after with seq := .running w k' })

/-- ForceIdle and SEND's completion poll have no detector and no bound: a poll that reads anything else goes back to polling and
changes nothing but the bus (R170). -/
def Obligations.UnboundedPollsGoOn : Prop :=
  ∀ (s : State) (w : Word) (k k' : Pos) (i : Instr) (v : Byte), s.seq = .running w k → s.rdy = true → v = s.answer 1 →
    v &&& 0x1F#8 ≠ 0x01#8 →
    ((i = .idle ∧ k = .idleWait (.poll (some v)) ∧ k' = .idleWait (.poll none)) ∨
      (i = .rxon ∧ k = .rxonWait (.idle (.poll (some v))) ∧ k' = .rxonWait (.idle (.poll none))) ∨
      (i = .txon ∧ k = .txonWait (.idle (.poll (some v))) ∧ k' = .txonWait (.idle (.poll none))) ∨
      (∃ l bytes, i = .send l ∧ k = .sendEnter bytes (.idle (.poll (some v))) ∧
        k' = .sendEnter bytes (.idle (.poll none))) ∨
      (∃ l, i = .send l ∧ k = .sendPoll (some v) ∧ v &&& 0x1F#8 ≠ 0x16#8 ∧ k' = .sendPoll none)) →
    exec i s = .next
      { s with seq := .running w k', sel := .deasserted, answers := s.answers.drop 2, drawCount := s.drawCount + 2,
               trace := .txn [0xF5#8, 0x00#8] [s.answer 0, s.answer 1] :: s.trace }

/-- The stuck detector of RXON, TXON and SEND: each poll that misses the target counts; the 200th is followed by the flush and
the entry strobe, after which the count is 0 again, and polling goes on (R172). That the count reads 200 while the recovery is
under way is the model's (log 11). -/
def Obligations.StuckDetectorRecoversAt200 : Prop :=
  ∀ (s : State) (w : Word) (i : Instr) (place : EnterPlace → Pos) (flush entry target : Byte),
    ((i = .rxon ∧ place = .rxonWait ∧ flush = 0x3A#8 ∧ entry = 0x34#8 ∧ target = 0x0D#8) ∨
      (i = .txon ∧ place = .txonWait ∧ flush = 0x3B#8 ∧ entry = 0x35#8 ∧ target = 0x13#8) ∨
      (∃ l bytes, i = .send l ∧ place = .sendEnter bytes ∧ flush = 0x3B#8 ∧ entry = 0x35#8 ∧ target = 0x13#8)) →
    s.rdy = true →
    (∀ v, s.seq = .running w (place (.poll (some v))) → v = s.answer 1 → v &&& 0x1F#8 ≠ target →
      (i = .rxon → v &&& 0x1F#8 ≠ 0x11#8) →
      exec i s = .next
        { s with stuckIter := s.stuckIter + 1,
                 seq := .running w (place (if s.stuckIter + 1 = 200 then .stuckFlush else .poll none)),
                 sel := .deasserted, answers := s.answers.drop 2, drawCount := s.drawCount + 2,
                 trace := .txn [0xF5#8, 0x00#8] [s.answer 0, s.answer 1] :: s.trace }) ∧
    (s.seq = .running w (place .stuckFlush) →
      execs i 2 s = .next
        { s with stuckIter := 0, seq := .running w (place (.poll none)), sel := .deasserted,
                 answers := s.answers.drop 2, drawCount := s.drawCount + 2,
                 trace := .txn [entry] [s.answer 1] :: .txn [flush] [s.answer 0] :: s.trace })

/-- RXON's overflow: an RX overflow poll is followed at once by the flush strobe, counts like any other, and neither resets the
count nor repeats the entry strobe (R171, R172). -/
def Obligations.OverflowPollFlushesAndCounts : Prop :=
  ∀ (s : State) (w : Word) (v : Byte), s.seq = .running w (.rxonWait (.poll (some v))) → s.rdy = true →
    v = s.answer 1 → v &&& 0x1F#8 = 0x11#8 →
    execs .rxon 2 s = .next
      { s with stuckIter := s.stuckIter + 1,
               seq := .running w (.rxonWait (if s.stuckIter + 1 = 200 then .stuckFlush else .poll none)),
               sel := .deasserted, answers := s.answers.drop 3, drawCount := s.drawCount + 3,
               trace := .txn [0x3A#8] [s.answer 2] :: .txn [0xF5#8, 0x00#8] [s.answer 0, s.answer 1] :: s.trace }

/-! The codec and the checksum (43, 44, 45). -/

/-- Header and footer search: the first header, then the first footer byte after it (R190, R191). -/
def Obligations.SearchFindsTheFirst : Prop :=
  (∀ (f : List Byte) (h : Nat), findHeader f = some h ↔
    (h + 5 ≤ f.length ∧ (f.drop h).take 5 = [0x00#8, 0xB3#8, 0x2A#8, 0xAB#8, 0x2A#8] ∧
      ∀ j, j < h → (f.drop j).take 5 ≠ [0x00#8, 0xB3#8, 0x2A#8, 0xAB#8, 0x2A#8])) ∧
  (∀ (f : List Byte) (h j : Nat) (b : Byte), findFooter f h = some (j, b) ↔
    (h + 5 ≤ j ∧ f[j]? = some b ∧ (b = 0xAC#8 ∨ b = 0xCA#8) ∧
      ∀ k, h + 5 ≤ k → k < j → f[k]? ≠ some 0xAC#8 ∧ f[k]? ≠ some 0xCA#8))

/-- Every bit of a decoded payload, from the Manchester collapse, the de-interleaver and the packing (R193, R194, R195). -/
def Obligations.DecodedPayloadBits : Prop :=
  ∀ (e : List Byte) (m p i : Nat) (b v : Byte), p < 8 → (decodePayload e)[m]? = some b →
    i = 5 * (2 * m + (if 4 ≤ p then 0 else 1)) + p % 4 → e[2 * i / 8]? = some v →
    b.getLsbD p = v.getLsbD (7 - 2 * i % 8)

/-- The decode length law, and the bound for a RawFrame of at most 60 bytes (R199). -/
def Obligations.DecodeLengthLaw : Prop :=
  (∀ e : List Byte, (decodePayload e).length = 2 * e.length / 5) ∧
  (∀ (f : List Byte) (d : Decoded), f.length ≤ 60 → codecDecode f = some d →
    d.plen ≤ 54 ∧ d.payload.length = 2 * d.plen / 5 ∧ d.payload.length ≤ 21)

/-- Every bit of an encoded payload: nibbles high first, bits least significant first, the stop bit, the padding, and each bit
followed by its complement (R220 to R223). -/
def Obligations.EncodedPayloadBits : Prop :=
  ∀ (c : List Byte) (k p x i : Nat) (b : Byte), p < 8 → (encodePayload c)[k]? = some b →
    x = 8 * k + (7 - p) → i = x / 2 →
    b.getLsbD p =
      ((if i < 10 * c.length ∧ i % 5 ≠ 4 then
          (c.getD (i / 5 / 2) 0x00#8).getLsbD ((if i / 5 % 2 = 0 then 4 else 0) + i % 5)
        else true) ^^ decide (x % 2 = 1))

/-- The encode length law, and the Packet of exactly 60 bytes for every frame that fits (R227, R225). -/
def Obligations.EncodeLengthLaw : Prop :=
  ∀ c : List Byte, (encodePayload c).length = (5 * c.length + c.length % 2) / 2 ∧
    (c.length ≤ 21 → (codecEncode c).length = 60)

/-- Every byte of an encoded payload is one of the sixteen Manchester bytes, so it is no footer and no header byte (R231). -/
def Obligations.EncodedBytesAreManchester : Prop :=
  ∀ (c : List Byte) (b : Byte), b ∈ encodePayload c →
    b ∈ [0x55#8, 0x56#8, 0x59#8, 0x5A#8, 0x65#8, 0x66#8, 0x69#8, 0x6A#8, 0x95#8, 0x96#8, 0x99#8, 0x9A#8, 0xA5#8, 0xA6#8,
      0xA9#8, 0xAA#8] ∧ b ∉ [0xAC#8, 0xCA#8, 0x00#8, 0xB3#8, 0x2A#8, 0xAB#8]

/-- The round trip: decoding the Packet of any frame of at most 21 bytes gives the frame, its validity, header index 0 and the
payload's length (R230). -/
def Obligations.CodecRoundTrip : Prop :=
  ∀ c : List Byte, c.length ≤ 21 →
    codecDecode (codecEncode c) = some
      { payload := c, valid := (c.map BitVec.toNat).sum % 256 == 0, hoff := 0, foff := 5 + (encodePayload c).length,
        ftr := if c.length % 2 = 0 then 0xAC#8 else 0xCA#8, plen := (encodePayload c).length }

/-- The checksum byte and the sum law (R250, R251). -/
def Obligations.ChecksumSumsToZero : Prop :=
  ∀ c : List Byte, (cks c).toNat = (256 - (c.map BitVec.toNat).sum % 256) % 256 ∧
    ((c ++ [cks c]).map BitVec.toNat).sum % 256 = 0

/-- DECODE. The decoding of a frame is none exactly when no header or no footer after it is found; else the header index and the
footer are what the searches give, the encoded payload is the bytes strictly between them, and the decoded payload and its validity
are those of that encoded payload (R192, R196, R252). With no packet the flags, DECLEN and DECINFO are 0 and DECBUF is unchanged;
with one, the payload goes to DECBUF and the flags, DECLEN and DECINFO say where it was found; every other byte keeps its value
(R198). -/
def Obligations.DecodeCommandReports : Prop :=
  (∀ f : List Byte, codecDecode f = none ↔
    findHeader f = none ∨ ∃ h, findHeader f = some h ∧ findFooter f h = none) ∧
  (∀ (f : List Byte) (d : Decoded), codecDecode f = some d →
    findHeader f = some d.hoff ∧ findFooter f d.hoff = some (d.foff, d.ftr) ∧ d.hoff + 5 + d.plen = d.foff ∧
      d.payload = decodePayload ((f.take d.foff).drop (d.hoff + 5)) ∧
      d.valid = ((d.payload.map BitVec.toNat).sum % 256 == 0)) ∧
  (∀ (s : State) (l : Nat) (frame : List Byte), l ≤ 60 → frame.length = l → holdsBytes s.mem .rxbuf frame →
    (codecDecode frame = none →
      exec (.decode l) s = .next
        { s with lens := { s.lens with declen := 0x00#8 }, decinfo := ⟨0x00#8, 0x00#8, 0x00#8⟩, seq := .idle,
                 status := { s.status with pktFound := false, decValid := false, busy := false, done := true } }) ∧
    (∀ d, codecDecode frame = some d →
      frame[d.foff]? = some d.ftr ∧
      ∃ m, storedAt s.mem m .decbuf d.payload ∧
        exec (.decode l) s = .next
          { s with mem := m, lens := { s.lens with declen := BitVec.ofNat 8 d.payload.length },
                   decinfo := ⟨BitVec.ofNat 8 d.hoff, d.ftr, BitVec.ofNat 8 d.plen⟩, seq := .idle,
                   status := { s.status with pktFound := true, decValid := d.valid, busy := false, done := true } }))

/-- ENCODE: the Packet goes to TXBUF and TXLEN is 60; every other byte keeps its value (R229). -/
def Obligations.EncodeCommandWritesThePacket : Prop :=
  ∀ (s : State) (l : Nat) (c : List Byte), l ≤ 21 → c.length = l → holdsBytes s.mem .cmdbuf c →
    ∃ m, storedAt s.mem m .txbuf
        ([0x00#8, 0xB3#8, 0x2A#8, 0xAB#8, 0x2A#8] ++ encodePayload c ++ [if l % 2 = 0 then 0xAC#8 else 0xCA#8]
          ++ List.replicate (54 - (encodePayload c).length) 0xAA#8) ∧
      exec (.encode l) s = .next
        { s with mem := m, lens := { s.lens with txlen := 60#8 }, seq := .idle,
                 status := { s.status with busy := false, done := true } }

/-- CKSUM: the checksum of CMDBUF[0..l) goes to CMDBUF[l] and CMDLEN is l + 1; every other byte keeps its value (R255). -/
def Obligations.CksumAppendsTheChecksum : Prop :=
  ∀ (s : State) (l : Nat) (c : List Byte), l ≤ 31 → c.length = l → holdsBytes s.mem .cmdbuf c →
    ∃ (m : Memory) (x : Byte), ((c.map BitVec.toNat).sum + x.toNat) % 256 = 0 ∧
      m.read (0x180 + l) = some x ∧ (∀ a, a ≠ 0x180 + l → m.read a = s.mem.read a) ∧
      exec (.cksum l) s = .next
        { s with mem := m, lens := { s.lens with cmdlen := BitVec.ofNat 8 (l + 1) }, seq := .idle,
                 status := { s.status with busy := false, done := true } }

/-- COMPOSE: the CommandFrame with its checksum goes to CMDBUF, the counter is used and then incremented mod 256, CMDLEN is
l + 6; every other byte keeps its value (R253, R254, R256). -/
def Obligations.ComposeBuildsTheFrame : Prop :=
  ∀ (s : State) (l : Nat) (body : List Byte), l ≤ 26 → s.status.addrSet = true → body.length = l →
    holdsBytes s.mem .cmdbuf body →
    ∃ (m : Memory) (x : Byte),
      let head : List Byte := [0x16#8, s.ownAddr.extractLsb' 16 8, s.ownAddr.extractLsb' 8 8, s.ownAddr.extractLsb' 0 8,
        s.rollCnt] ++ body
      storedAt s.mem m .cmdbuf (head ++ [x]) ∧ ((head ++ [x]).map BitVec.toNat).sum % 256 = 0 ∧
      exec (.compose l) s = .next
        { s with mem := m, rollCnt := BitVec.ofNat 8 ((s.rollCnt.toNat + 1) % 256),
                 lens := { s.lens with cmdlen := BitVec.ofNat 8 (l + 6) }, seq := .idle,
                 status := { s.status with busy := false, done := true } }

/-- IRQACK reads the edge flag into RDATA and clears it in one step; IRQ_CNT is unchanged (R270). -/
def Obligations.IrqackDrainsTheFlag : Prop :=
  ∀ s : State,
    exec .irqack s = .next
      { s with rdata := if s.irqFlag then 0x01#8 else 0x00#8, irqFlag := false, seq := .idle,
               status := { s.status with busy := false, done := true } }

/-- The two frame commands together: ENCODE of a valid or invalid frame in CMDBUF, its Packet copied from TXBUF to RXBUF, and
DECODE of 60 bytes put the same frame in DECBUF and report its length and its validity (R230, program P4). -/
def Obligations.EncodeThenDecodeReproducesTheFrame : Prop :=
  ∀ (s t u : State) (l : Nat) (c : List Byte), l ≤ 21 → c.length = l → holdsBytes s.mem .cmdbuf c →
    exec (.encode l) s = .next t → (∀ j, j < 60 → bufRead u.mem .rxbuf j = bufRead t.mem .txbuf j) →
    ∃ v, exec (.decode 60) u = .next v ∧ holdsBytes v.mem .decbuf c ∧ v.lens.declen.toNat = l ∧
      v.status.pktFound = true ∧ v.status.decValid = ((c.map BitVec.toNat).sum % 256 == 0) ∧ v.decinfo.hoff = 0x00#8

/-! Whole-machine rules. -/

/-- Which command may change which register, at every step of every command that takes one: CMD, OWN_ADDR, IRQ_CNT, HVIOL,
ADDR_SET and LASTOP, none; CHIPID and CHIP_OK, only INIT; DECINFO, PKT_FOUND, DEC_VALID and DECLEN, only DECODE; WARN_CFG and
WARN_PA, only BWR; RDATA, only RREG, STROBE and IRQACK; ROLL_CNT, only COMPOSE; RSSI_DBM, only RSSI; RXLEN, only BRD and RECV;
CMDLEN, only CKSUM and COMPOSE; TXLEN, only ENCODE; IRQ_FLAG (the one bit of IRQ_STAT), only IRQACK; the hidden STUCK_ITER, only RXON,
TXON and SEND. No command changes the model's own RDY level and inputs (logs 6 and 4). BUSY, DONE and ERR,
which every command writes when it completes, are not its subject. -/
def Obligations.CommandsChangeOnlyTheirRegisters : Prop :=
  ∀ (i : Instr) (s t : State), exec i s = .next t →
    t.cmd = s.cmd ∧ t.ownAddr = s.ownAddr ∧ t.irqCnt = s.irqCnt ∧ t.rdy = s.rdy ∧ t.inputs = s.inputs ∧
    t.status.hviol = s.status.hviol ∧ t.status.addrSet = s.status.addrSet ∧ t.status.lastop = s.status.lastop ∧
    (i ≠ .init → t.chipid = s.chipid ∧ t.status.chipOk = s.status.chipOk) ∧
    ((∀ l, i ≠ .decode l) → t.decinfo = s.decinfo ∧ t.status.pktFound = s.status.pktFound ∧
      t.status.decValid = s.status.decValid ∧ t.lens.declen = s.lens.declen) ∧
    ((∀ a l, i ≠ .bwr a l) → t.status.warnCfg = s.status.warnCfg ∧ t.status.warnPa = s.status.warnPa) ∧
    ((∀ a, i ≠ .rreg a) → (∀ c, i ≠ .strobe c) → i ≠ .irqack → t.rdata = s.rdata) ∧
    ((∀ l, i ≠ .compose l) → t.rollCnt = s.rollCnt) ∧ (i ≠ .rssi → t.rssiDbm = s.rssiDbm) ∧
    ((∀ a l, i ≠ .brd a l) → (∀ l, i ≠ .recv l) → t.lens.rxlen = s.lens.rxlen) ∧
    ((∀ l, i ≠ .cksum l) → (∀ l, i ≠ .compose l) → t.lens.cmdlen = s.lens.cmdlen) ∧
    ((∀ l, i ≠ .encode l) → t.lens.txlen = s.lens.txlen) ∧
    (i ≠ .irqack → t.irqFlag = s.irqFlag) ∧
    (i ≠ .rxon → i ≠ .txon → (∀ l, i ≠ .send l) → t.stuckIter = s.stuckIter)

/-- Which command may write which buffer: every byte outside it keeps its value and its defined bit (R42). -/
def Obligations.CommandsWriteOnlyTheirBuffer : Prop :=
  ∀ (i : Instr) (s t : State), belongs i s.pos = true → exec i s = .next t →
    ∀ a, ((∃ a' l, i = .brd a' l) ∨ (∃ l, i = .recv l) → ¬(0x100 ≤ a ∧ a < 0x13C)) →
      ((∃ l, i = .encode l) → ¬(0x140 ≤ a ∧ a < 0x17C)) →
      ((∃ l, i = .cksum l) ∨ (∃ l, i = .compose l) → ¬(0x180 ≤ a ∧ a < 0x1A0)) →
      ((∃ l, i = .decode l) → ¬(0x1C0 ≤ a ∧ a < 0x1D5)) →
      t.mem.read a = s.mem.read a

/-- HVIOL is sticky: no move of any agent but RESET clears it (R29). -/
def Obligations.HviolIsSticky : Prop :=
  ∀ s t : State, step s = .next t → s.status.hviol = true → (∀ rest, s.inputs ≠ .reset :: rest) →
    t.status.hviol = true

/-- The invariant holds after reset. -/
def Obligations.ResetHasTheInvariant : Prop := State.reset.Inv

/-- Every step of every agent keeps the invariant, from every state that has it. -/
def Obligations.StepKeepsTheInvariant : Prop :=
  ∀ s t : State, s.Inv → step s = .next t → t.Inv

/-- A state with the invariant never stops but at the model fault UNDEF, and only while a command that consumes a buffer is at
its start (R308, R300). -/
def Obligations.OnlyUndefStopsTheMachine : Prop :=
  ∀ s : State, s.Inv →
    goesOn (step s) ∨
    ∃ w i b j, s.seq = .running w .start ∧ decode w = .ok i ∧ inputsDefined i s = false ∧
      bufRead s.mem b j = none ∧ step s = .fault (.undef b j)
end

