-- ==== Sys2Proof/Laws/Codec.lean ====
section
/-! SUPPORT. One lemma per stage of the codec and of the checksum: its length, its elements, and what the opposite stage undoes (spec/43_frame_decode.md R190 to R196, spec/44_frame_encode.md R220 to R226, spec/45_checksum.md R250). -/

namespace Sys2Proof.Machine

/-! Bits and bytes (R10). -/

theorem byteBits_length (b : Byte) : (byteBits b).length = 8 := rfl

theorem byteBits_getElem? (b : Byte) (i : Nat) (h : i < 8) : (byteBits b)[i]? = some (b.getLsbD (7 - i)) := by
  interval_cases i <;> rfl

theorem bitsMsb_cons (b : Byte) (s : List Byte) : bitsMsb (b :: s) = byteBits b ++ bitsMsb s := rfl

theorem bitsMsb_length (s : List Byte) : (bitsMsb s).length = 8 * s.length := by
  induction s with
  | nil => rfl
  | cons b s ih => simp only [bitsMsb_cons, List.length_append, byteBits_length, ih, List.length_cons]; omega

theorem bitsMsb_getElem? (s : List Byte) (i : Nat) :
    (bitsMsb s)[i]? = (s[i / 8]?).map (fun b => b.getLsbD (7 - i % 8)) := by
  induction s generalizing i with
  | nil => simp [bitsMsb]
  | cons b s ih =>
    rw [bitsMsb_cons]
    by_cases h : i < 8
    · rw [List.getElem?_append_left (by rw [byteBits_length]; exact h), byteBits_getElem? _ _ h, show i / 8 = 0 by omega, show i % 8 = i by omega]
      rfl
    · rw [List.getElem?_append_right (by rw [byteBits_length]; omega), byteBits_length, ih, show i / 8 = (i - 8) / 8 + 1 by omega, show i % 8 = (i - 8) % 8 by omega]
      rfl

theorem packMsb_length (l : List Bool) : (packMsb l).length = l.length / 8 := by
  induction l using packMsb.induct with
  | case1 x7 x6 x5 x4 x3 x2 x1 x0 rest ih => simp only [packMsb, List.length_cons, ih]; omega
  | case2 l h =>
    rcases l with _ | ⟨x0, _ | ⟨x1, _ | ⟨x2, _ | ⟨x3, _ | ⟨x4, _ | ⟨x5, _ | ⟨x6, _ | ⟨x7, l⟩⟩⟩⟩⟩⟩⟩⟩ <;> first | exact absurd rfl (h _ _ _ _ _ _ _ _ _) | simp [packMsb]

theorem byteBits_byteOfBits (x7 x6 x5 x4 x3 x2 x1 x0 : Bool) :
    byteBits (byteOfBits x7 x6 x5 x4 x3 x2 x1 x0) = [x7, x6, x5, x4, x3, x2, x1, x0] := by
  revert x7 x6 x5 x4 x3 x2 x1 x0; decide

/-- Unpacking what was packed gives whole groups back. -/
theorem bitsMsb_packMsb (l : List Bool) (h : l.length % 8 = 0) : bitsMsb (packMsb l) = l := by
  induction l using packMsb.induct with
  | case1 x7 x6 x5 x4 x3 x2 x1 x0 rest ih =>
    simp only [List.length_cons] at h
    rw [packMsb, bitsMsb_cons, byteBits_byteOfBits, ih (by omega)]; rfl
  | case2 l hl =>
    rcases l with _ | ⟨x0, _ | ⟨x1, _ | ⟨x2, _ | ⟨x3, _ | ⟨x4, _ | ⟨x5, _ | ⟨x6, _ | ⟨x7, l⟩⟩⟩⟩⟩⟩⟩⟩ <;> first | exact absurd rfl (hl _ _ _ _ _ _ _ _ _) | rfl | (simp at h)

/-! The decoding stages (R193 to R195). -/

theorem manCollapse_length (l : List Bool) : (manCollapse l).length = l.length / 2 := by
  induction l using manCollapse.induct with
  | case1 x y rest ih => simp only [manCollapse, List.length_cons, ih]; omega
  | case2 l h =>
    rcases l with _ | ⟨x, _ | ⟨y, l⟩⟩ <;> first | exact absurd rfl (h _ _ _) | simp [manCollapse]

theorem manCollapse_getElem? (l : List Bool) (i : Nat) (h : i < l.length / 2) :
    (manCollapse l)[i]? = l[2 * i]? := by
  induction l using manCollapse.induct generalizing i with
  | case1 x y rest ih =>
    cases i with
    | zero => rfl
    | succ i =>
      simp only [List.length_cons] at h
      exact ih i (by omega)
  | case2 l hl => 
    rcases l with _ | ⟨x, _ | ⟨y, l⟩⟩ <;> first | (exact absurd rfl (hl _ _ _)) | (simp at h)

theorem deintlv_length (l : List Bool) : (deintlv l).length = l.length / 5 := by
  induction l using deintlv.induct with
  | case1 x0 x1 x2 x3 x4 rest ih => simp only [deintlv, List.length_cons, ih]; omega
  | case2 l h =>
    rcases l with _ | ⟨x0, _ | ⟨x1, _ | ⟨x2, _ | ⟨x3, _ | ⟨x4, l⟩⟩⟩⟩⟩ <;> first | exact absurd rfl (h _ _ _ _ _ _) | simp [deintlv]

theorem nibbleOfBits_bit (x0 x1 x2 x3 : Bool) (p : Nat) (h : p < 4) :
    some ((nibbleOfBits x0 x1 x2 x3).getLsbD p) = [x0, x1, x2, x3][p]? := by
  revert x0 x1 x2 x3; interval_cases p <;> decide

/-- Bit `p` of nibble `i` is bit `5 i + p` of the stream. -/
theorem deintlv_getElem? (l : List Bool) (i : Nat) (q : Nibble) (h : (deintlv l)[i]? = some q) (p : Nat) (hp : p < 4) :
    l[5 * i + p]? = some (q.getLsbD p) := by
  induction l using deintlv.induct generalizing i with
  | case1 x0 x1 x2 x3 x4 rest ih =>
    cases i with
    | zero =>
      simp only [deintlv, List.getElem?_cons_zero, Option.some.injEq] at h
      subst h
      rw [nibbleOfBits_bit _ _ _ _ _ hp]
      interval_cases p <;> rfl
    | succ i =>
      have := ih i h
      rw [show 5 * (i + 1) + p = (5 * i + p) + 5 by omega]
      exact this
  | case2 l hl =>
    rcases l with _ | ⟨x0, _ | ⟨x1, _ | ⟨x2, _ | ⟨x3, _ | ⟨x4, l⟩⟩⟩⟩⟩ <;> first | exact absurd rfl (hl _ _ _ _ _ _) | cases h

theorem packNibbles_length (l : List Nibble) : (packNibbles l).length = l.length / 2 := by
  induction l using packNibbles.induct with
  | case1 x y rest ih => simp only [packNibbles, List.length_cons, ih]; omega
  | case2 l h =>
    rcases l with _ | ⟨x, _ | ⟨y, l⟩⟩ <;> first | exact absurd rfl (h _ _ _) | simp [packNibbles]

theorem packNibbles_getElem? (l : List Nibble) (m : Nat) (b : Byte) (h : (packNibbles l)[m]? = some b) :
   ∃ hi lo, l[2 * m]? = some hi ∧ l[2 * m + 1]? = some lo ∧ b = hi ++ lo := by
  induction l using packNibbles.induct generalizing m with
  | case1 x y rest ih =>
    cases m with
    | zero =>
      simp only [packNibbles, List.getElem?_cons_zero, Option.some.injEq] at h
      exact ⟨x, y, rfl, rfl, h.symm⟩
    | succ m =>
      exact ih m h
  | case2 l hl =>
    rcases l with _ | ⟨x0, _ | ⟨x1, l⟩⟩ <;> first | exact absurd rfl (hl _ _ _) | cases h

theorem nibblePair_getLsbD (hi lo : Nibble) (p : Nat) (hp : p < 8) :
    (hi ++ lo : BitVec (4+4)).getLsbD p = if p < 4 then lo.getLsbD p else hi.getLsbD (p % 4) := by
  rw [BitVec.getLsbD_append]
  split
  · rfl
  · rw [show p % 4 = p - 4 by omega]

theorem decodePayload_length (e : List Byte) : (decodePayload e).length = 2 * e.length / 5 := by
  simp only [decodePayload, packNibbles_length, deintlv_length, manCollapse_length, bitsMsb_length]
  omega

/-! The searches (R190, R191) and what a decoding says of the frame (R196). -/

/-- The header search finds the first place from `i` on. -/
theorem findHeaderFrom_iff (f : List Byte) (i h : Nat) : findHeaderFrom i f = some h ↔
   ∃ k, h = i + k ∧ k < f.length ∧ (f.drop k).take 5 = Config.HDR ∧ ∀ j, j < k → (f.drop j).take 5 ≠ Config.HDR := by
  induction f generalizing i with
  | nil => simp [findHeaderFrom]
  | cons b rest ih =>
    rw [findHeaderFrom]
    by_cases hc : (b :: rest).take Config.HDR.length = Config.HDR
    · rw [if_pos hc]
      constructor
      · intro hh; cases hh; exact ⟨0, rfl, by simp, hc, by omega⟩
      · rintro ⟨k, rfl, -, -, hk⟩
        rcases Nat.eq_zero_or_pos k with rfl | hpos
        · rfl
        · exact absurd hc (hk 0 hpos)
    · rw [if_neg hc, ih]
      constructor
      · rintro ⟨k, rfl, hl, hk, hj⟩
        refine ⟨k + 1, by omega, by simpa using hl, hk, ?_⟩
        intro j hjk
        cases j with
        | zero => exact hc
        | succ j => exact hj j (by omega)
      · rintro ⟨k, rfl, hl, hk, hj⟩
        cases k with
        | zero => exact absurd hk hc
        | succ k => exact ⟨k, by omega, by simpa using hl, hk, fun j hjk => hj (j + 1) (by omega)⟩

/-- The footer search finds the first footer byte from `i` on. -/
theorem findFooterFrom_iff (f : List Byte) (i j : Nat) (b : Byte) : findFooterFrom i f = some (j, b) ↔
   ∃ k, j = i + k ∧ f[k]? = some b ∧ (b = 0xAC#8 ∨ b = 0xCA#8) ∧ ∀ x, x < k → f[x]? ≠ some 0xAC#8 ∧ f[x]? ≠ some 0xCA#8 := by
  induction f generalizing i with
  | nil => simp [findFooterFrom]
  | cons c rest ih =>
    rw [findFooterFrom]
    by_cases hc : c = Config.FTR_EVEN ∨ c = Config.FTR_ODD
    · rw [if_pos hc]
      constructor
      · intro hh; cases hh; exact ⟨0, rfl, rfl, hc, by omega⟩
      · rintro ⟨k, rfl, h1, h2, hk⟩
        rcases Nat.eq_zero_or_pos k with rfl | hpos
        · cases h1; rfl
        · have := hk 0 hpos
          rcases hc with rfl | rfl <;> simp at this
    · rw [if_neg hc, ih]
      constructor
      · rintro ⟨k, rfl, hl, hk, hj⟩
        refine ⟨k + 1, by omega, by simpa using hl, hk, ?_⟩
        intro j hjk
        cases j with
        | zero =>
          simp only [not_or] at hc
          exact ⟨by simpa using hc.1, by simpa using hc.2⟩
        | succ j => exact hj j (by omega)
      · rintro ⟨k, rfl, h1, hk, hj⟩
        cases k with
        | zero => cases h1; exact absurd hk hc
        | succ k => exact ⟨k, by omega, by simpa using h1, hk, fun j hjk => hj (j + 1) (by omega)⟩

theorem codecDecode_some (f : List Byte) (d : Decoded) (h : codecDecode f = some d) :
   findHeader f = some d.hoff ∧ findFooter f d.hoff = some (d.foff, d.ftr) ∧ d.plen = d.foff - (d.hoff + 5) ∧
   d.payload = decodePayload ((f.drop (d.hoff + 5)).take d.plen) ∧ d.valid = valid d.payload := by
  unfold codecDecode at h
  split at h
  · cases h
  · split at h
    · cases h
    · cases h
      refine ⟨by assumption, by assumption, rfl, rfl, rfl⟩

/-! The encoding stages (R220 to R223). -/

theorem manEnc_cons (b) (l : List Bool) : manEnc (b :: l) = b :: (!b) :: manEnc l := rfl

theorem manEnc_length (l : List Bool) : (manEnc l).length = 2 * l.length := by
  induction l with
  | nil => rfl
  | cons b l ih => simp only [manEnc, List.flatMap_cons, List.length_append, List.length_cons] at ih ⊢; simp; omega

theorem manEnc_getElem? (l : List Bool) (x : Nat) :
    (manEnc l)[x]? = (l[x / 2]?).map (fun b => b ^^ decide (x % 2 = 1)) := by
  induction l generalizing x with
  | nil => simp [manEnc]
  | cons b l ih =>
    rw [manEnc_cons]
    rcases x with _ | _ | x
    · simp
    · simp
    · rw [show (x + 1 + 1) / 2 = x / 2 + 1 by omega, show (x + 1 + 1) % 2 = x % 2 by omega]
      exact ih x

theorem manCollapse_manEnc (l : List Bool) : manCollapse (manEnc l) = l := by
  induction l with
  | nil => rfl
  | cons b l ih => rw [manEnc_cons, manCollapse, ih]

theorem groups_length (n : List Nibble) : (n.flatMap nibbleGroup).length = 5 * n.length := by
  induction n with
  | nil => rfl
  | cons q n ih => simp only [List.flatMap_cons, List.length_append, ih, List.length_cons]; simp [nibbleGroup]; omega

theorem groups_getElem? (n : List Nibble) (i : Nat) :
    (n.flatMap nibbleGroup)[i]? = (n[i / 5]?).map (fun q => if i % 5 = 4 then true else q.getLsbD (i % 5)) := by
  induction n generalizing i with
  | nil => simp
  | cons q n ih =>
    simp only [List.flatMap_cons]
    by_cases h : i < 5
    · rw [List.getElem?_append_left (by exact h)]
      interval_cases i <;> rfl
    · rw [List.getElem?_append_right (by show 5 ≤ i; omega), show (nibbleGroup q).length = 5 from rfl, ih, show i / 5 = (i - 5) / 5 + 1 by omega, show i % 5 = (i - 5) % 5 by omega]
      rfl

theorem nibbles_length (c : List Byte) : (nibbles c).length = 2 * c.length := by
  induction c with
  | nil => rfl
  | cons b c ih => simp only [nibbles, List.flatMap_cons, List.length_append, List.length_cons] at ih ⊢; simp; omega

theorem nibbles_getElem? (c : List Byte) (i : Nat) :
    (nibbles c)[i]? = ((c : List Byte)[i / 2]?).map (fun b => if i % 2 =
      0 then b.extractLsb' 4 4 else b.extractLsb' 0 4) := by
  induction c generalizing i with
  | nil => simp [nibbles]
  | cons b c ih =>
    show (b.extractLsb' 4 4 :: b.extractLsb' 0 4 :: nibbles c)[i]? = _
    rcases i with _ | _ | i
    · rfl
    · rfl
    · rw [show (i + 1 + 1) / 2 = i / 2 + 1 by omega, show (i + 1 + 1) % 2 = i % 2 by omega]
      exact ih i

theorem intlv_length (c : List Byte) : (intlv c).length = 10 * c.length + (4 - 10 * c.length % 4) % 4 := by
  simp only [intlv, List.length_append, groups_length, nibbles_length, List.length_replicate]; omega

/-- Every bit of the interleaved stream, padding included. -/
theorem intlv_getElem? (c : List Byte) (i : Nat) (h : i < (intlv c).length) :
    (intlv c)[i]? = some (if i < 10 * c.length ∧ i % 5 ≠ 4 then
          (c.getD (i / 5 / 2) 0x00#8).getLsbD ((if i / 5 % 2 = 0 then 4 else 0) + i % 5)
        else true) := by
  by_cases hi : i < 10 * c.length
  · rw [intlv, List.getElem?_append_left (by rw [groups_length, nibbles_length]; omega), groups_getElem?, nibbles_getElem?]
    have hc : i / 5 / 2 < c.length := by omega
    simp only [List.getElem?_eq_getElem hc, Option.map_some, hi, true_and, List.getD_eq_getElem?_getD, Option.getD_some]
    by_cases h4 : i % 5 = 4
    · simp [h4]
    · have h5 : i % 5 < 4 := by omega
      simp only [h4, if_false, not_false_eq_true, if_true, ne_eq]
      split <;> simp [h5]
  · rw [intlv, List.getElem?_append_right (by rw [groups_length, nibbles_length]; omega)]
    rw [intlv_length] at h
    simp only [hi, false_and, if_false, List.getElem?_replicate, groups_length, nibbles_length]
    rw [if_pos (by omega)]

theorem encodePayload_length (c : List Byte) : (encodePayload c).length = (5 * c.length + c.length % 2) / 2 := by
  simp only [encodePayload, packMsb_length, manEnc_length, intlv_length]; omega

theorem bits_encodePayload (c : List Byte) : bitsMsb (encodePayload c) = manEnc (intlv c) :=
  bitsMsb_packMsb _ (by rw [manEnc_length, intlv_length]; omega)

/-- A byte packed from Manchester pairs is four pairs of a bit and its complement. -/
theorem packMsb_manEnc (l : List Bool) (b : Byte) (h : b ∈ packMsb (manEnc l)) :
    ∃ y3 y2 y1 y0, b = byteOfBits y3 (!y3) y2 (!y2) y1 (!y1) y0 (!y0) := by
  induction l using packMsb.induct with
  | case1 x7 x6 x5 x4 x3 x2 x1 x0 rest ih =>
    rw [manEnc_cons, manEnc_cons, manEnc_cons, manEnc_cons, packMsb, manEnc_cons, manEnc_cons, manEnc_cons, manEnc_cons, packMsb] at h
    simp only [List.mem_cons] at h
    rcases h with h | h | h
    · exact ⟨_, _, _, _, h⟩
    · exact ⟨_, _, _, _, h⟩
    · exact ih h
  | case2 l hl =>
    rcases l with _ | ⟨x0, _ | ⟨x1, _ | ⟨x2, _ | ⟨x3, _ | ⟨x4, _ | ⟨x5, _ | ⟨x6, _ | ⟨x7, l⟩⟩⟩⟩⟩⟩⟩⟩ <;> first | exact absurd rfl (hl _ _ _ _ _ _ _ _ _) | (simp [manEnc, packMsb] at h; try exact ⟨_, _, _, _, h⟩)

/-! Decoding an encoded payload. -/

theorem deintlv_groups (n : List Nibble) (p : List Bool) (hp : p.length < 5) :
    deintlv (n.flatMap nibbleGroup ++ p) = n := by
  induction n with
  | nil =>
    rcases p with _ | ⟨x0, _ | ⟨x1, _ | ⟨x2, _ | ⟨x3, _ | ⟨x4, l⟩⟩⟩⟩⟩ <;> first | rfl | (simp only [List.length_cons] at hp; omega)
  | cons q n ih =>
    have : nibbleOfBits (q.getLsbD 0) (q.getLsbD 1) (q.getLsbD 2) (q.getLsbD 3) = q := by revert q; decide
    simp only [List.flatMap_cons, nibbleGroup, List.cons_append, List.nil_append, deintlv, this]
    exact congrArg _ ih

theorem packNibbles_nibbles (c : List Byte) : packNibbles (nibbles c) = c := by
  induction c with
  | nil => rfl
  | cons b c ih =>
    have : (b.extractLsb' 4 4 ++ b.extractLsb' 0 4 : BitVec (4 + 4)) = b := by revert b; decide
    show (b.extractLsb' 4 4 ++ b.extractLsb' 0 4 : BitVec (4 + 4)) :: packNibbles (nibbles c) = _
    rw [this, ih]

theorem decodePayload_encodePayload (c : List Byte) : decodePayload (encodePayload c) = c := by
  rw [decodePayload, bits_encodePayload, manCollapse_manEnc, intlv, deintlv_groups _ _ (by simp; omega), packNibbles_nibbles]

/-! The checksum (R250). -/

theorem byteSum_append (s t : List Byte) : byteSum (s ++ t) = byteSum s + byteSum t := by simp [byteSum]

theorem cks_toNat (s : List Byte) : (cks s).toNat = (256 - byteSum s % 256) % 256 := by
  simp only [cks, BitVec.toNat_ofInt]; omega

end Sys2Proof.Machine
end

