-- ==== Sys2Proof/Laws/Encoding.lean ====
section
/-! SUPPORT. The fields of a command word, put in and taken out (spec/30_encoding.md R80). -/

namespace Sys2Proof

/-- Every bit of a command word. -/
theorem getLsbD_commandWord (op a l d : Byte) (i : Nat) : (commandWord op a l d).getLsbD i =
   if i < 8 then d.getLsbD i else if i < 16 then l.getLsbD (i-8) else if i < 24 then a.getLsbD (i - 16) else op.getLsbD (i-24) := by
  show (BitVec.append (n := 24) (m := 8) (BitVec.append (n := 16) (m := 8) (BitVec.append op a) l) d).getLsbD i = _
  simp only [BitVec.append_eq, BitVec.getLsbD_append]
  have e1 : i - 8 - 8 = i - 16 := by omega
  have e2 : i - 16 - 8 = i - 24 := by omega
  have e3 : (i - 8 < 8) = (i < 16) ∨ i < 8 := by by_cases h : i < 8 <;> simp [h] ; omega
  have e4 : (i - 16 < 8) = (i < 24) ∨ i < 16 := by by_cases h : i < 16 <;> simp [h] ; omega
  rw [e1, e2]
  split_ifs <;> first | rfl | omega

theorem opField_commandWord (op a l d : Byte) : opField (commandWord op a l d) = op := by
  apply BitVec.eq_of_getLsbD_eq
  intro i hi
  have h : ¬ (24 + i < 8) ∧ ¬ (24 + i < 16) ∧ ¬ (24 + i < 24) := by omega
  simp [opField, getLsbD_commandWord, hi, h]

theorem aField_commandWord (op a l d : Byte) : aField (commandWord op a l d) = a := by
  apply BitVec.eq_of_getLsbD_eq
  intro i hi
  have h : ¬ (16 + i < 8) ∧ ¬ (16 + i < 16) ∧ (16 + i < 24) := by omega
  simp [aField, getLsbD_commandWord, hi, h]

theorem lField_commandWord (op a l d : Byte) : lField (commandWord op a l d) = l := by
  apply BitVec.eq_of_getLsbD_eq
  intro i hi
  have h : ¬ (8 + i < 8) ∧ (8 + i < 16) := by omega
  simp [lField, getLsbD_commandWord, hi, h]

theorem dField_commandWord (op a l d : Byte) : dField (commandWord op a l d) = d := by
  apply BitVec.eq_of_getLsbD_eq
  intro i hi
  simp [dField, getLsbD_commandWord, hi]

/-- A word is its four fields. -/
theorem commandWord_fields (w : Word) : commandWord (opField w) (aField w) (lField w) (dField w) = w := by
  apply BitVec.eq_of_getLsbD_eq
  intro i hi
  simp only [getLsbD_commandWord, opField, aField, lField, dField, BitVec.getLsbD_extractLsb']
  split_ifs with h1 h2 h3
  · simp [h1]
  · have : i - 8 < 8 ∧ 8 + (i-8) = i := by omega
    simp [this]
  · have : i - 16 < 8 ∧ 16 + (i-16) = i := by omega
    simp [this]
  · have : i - 24 < 8 ∧ 24 + (i-24) = i := by omega
    simp [this]

theorem commandWord_inj {op a l d op' a' l' d' : Byte} (h : commandWord op a l d = commandWord op' a' l' d') :
   op = op' ∧ a = a' ∧ l = l' ∧ d = d' :=
  ⟨by simpa only [opField_commandWord] using congrArg opField h, by simpa only [aField_commandWord] using congrArg aField h,
   by simpa only [lField_commandWord] using congrArg lField h,by simpa only [dField_commandWord] using congrArg dField h⟩

/-- A count that fits its field is read back. -/
theorem lengthByte_toNat (l : Nat) (h : fitsLengthField l = true) : (lengthByte l).toNat = l := by
  simp only [fitsLengthField, decide_eq_true_eq] at h
  simp [lengthByte, Nat.mod_eq_of_lt h]

/-! Masks. -/

theorem and_allOnes (b : Byte) : b &&& 255#8 = b := by revert b; decide

theorem and_commandWord (op a l d op' a' l' d' : Byte) : commandWord op a l d &&& commandWord op' a' l' d' =
   commandWord (op &&& op') (a &&& a') (l &&& l') (d &&& d') := by
  apply BitVec.eq_of_getLsbD_eq
  intro i hi
  simp only [getLsbD_commandWord, BitVec.getLsbD_and]
  split_ifs <;> rfl

/-- The mask and match columns of R85, as conditions on the fields. -/
theorem mask_iff (w : Word) (i : Instr) : w &&& i.mask = i.matchWord ↔
   opField w = i.opcode ∧ aField w &&& aField i.mask = 0 ∧ lField w &&& lField i.mask = 0 ∧ dField w &&& dField i.mask = 0 := by
  have hm : opField i.mask = 0xFF#8 := by cases i <;> simp only [Instr.mask] <;> decide
  have hv : i.matchWord = commandWord i.opcode 0 0 0 := by cases i <;> simp only [Instr.matchWord, Instr.opcode] <;> decide
  constructor
  · intro h
    rw [hv, ← commandWord_fields w, ← commandWord_fields i.mask, and_commandWord, hm] at h
    obtain ⟨h1, h2, h3, h4⟩ := commandWord_inj h
    exact ⟨by rw [and_allOnes] at h1; exact h1, by simpa [commandWord_fields] using h2, by simpa [commandWord_fields] using h3, by simpa [commandWord_fields] using h4⟩
  · rintro ⟨h1, h2, h3, h4⟩
    rw [hv]
    conv_lhs => rw [← commandWord_fields w, ← commandWord_fields i.mask]
    rw [and_commandWord, hm, and_allOnes, h1, h2, h3, h4]

theorem and_eq_zero_of {a b : Byte} (h : a = 0#8 ∨ b = 0#8) : a &&& b = 0#8 := by
  rcases h with rfl | rfl
  · exact BitVec.zero_and
  · exact BitVec.and_zero

end Sys2Proof
end

