-- ==== Sys2Proof/Laws/Memory.lean ====
section
/-! SUPPORT. The laws of memory: a read after a write, the canonical form kept by every operation, whole-buffer reads and writes. -/

namespace Sys2Proof.Machine

theorem Memory.read_write_same (m : Memory) (a : Nat) (v : Byte) : (m.write a v).read a = some v := by
  induction m with
  | nil => simp [Memory.write, Memory.read]
  | cons c rest ih =>
    obtain ⟨a', v'⟩ := c
    unfold Memory.write
    split
    · simp [Memory.read]
    · split
      · simp [Memory.read]
      · rename_i h1 h2
        simp [Memory.read, h2, ih]

theorem Memory.read_write_other (m : Memory) (a b : Nat) (v : Byte) (h : b ≠ a) : (m.write a v).read b = m.read b := by
  induction m with
  | nil => simp [Memory.write, Memory.read, h]
  | cons c rest ih =>
    obtain ⟨a', v'⟩ := c
    unfold Memory.write
    split
    · simp [Memory.read, h]
    · split
      · rename_i h1 h2
        subst h2
        simp [Memory.read, h]
      · simp [Memory.read, ih]

/-- A write keeps the addresses above a lower bound that the written address meets. -/
theorem Memory.rising_write_some (m : Memory) (lo a : Nat) (v : Byte) (hlo : lo < a)
    (h : Memory.rising (some lo) m = true) : Memory.rising (some lo) (m.write a v) = true := by
  induction m generalizing lo with
  | nil => simp [Memory.write, Memory.rising, hlo]
  | cons c rest ih =>
    obtain ⟨a', v'⟩ := c
    simp only [Memory.rising, Bool.and_eq_true, decide_eq_true_eq] at h
    unfold Memory.write
    split
    · rename_i h1
      simp [Memory.rising, hlo, h1, h.2]
    · split
      · rename_i h1 h2
        subst h2
        simp [Memory.rising, hlo, h.2]
      · rename_i h1 h2
        simp [Memory.rising, h.1, ih a' (by omega) h.2]

theorem Memory.rising_write (m : Memory) (a : Nat) (v : Byte) (h : Memory.rising none m = true) :
    Memory.rising none (m.write a v) = true := by
  cases m with
  | nil => simp [Memory.write, Memory.rising]
  | cons c rest =>
    obtain ⟨a', v'⟩ := c
    simp only [Memory.rising] at h
    unfold Memory.write
    split
    · rename_i h1
      simp [Memory.rising, h1, h]
    · split
      · rename_i h1 h2
        subst h2
        simp [Memory.rising, h]
      · rename_i h1 h2
        simp [Memory.rising, Memory.rising_write_some rest a' a v (by omega) h]

theorem Memory.all_write (m : Memory) (a : Nat) (v : Byte) (p : Nat → Bool) (ha : p a = true)
    (h : m.all (fun c => p c.1) = true) : (m.write a v).all (fun c => p c.1) = true := by
  induction m with
  | nil => simp [Memory.write, ha]
  | cons c rest ih =>
    obtain ⟨a', v'⟩ := c
    simp only [List.all_cons, Bool.and_eq_true] at h
    unfold Memory.write
    split
    · simp only [List.all_cons, ha, h.1, h.2, Bool.and_self]
    · split
      · simp only [List.all_cons, ha, h.2, Bool.and_self]
      · simp only [List.all_cons, h.1, ih h.2, Bool.and_self]

theorem Buf.holds_iff (b : Buf) (a : Nat) : b.holds a = true ↔ b.base ≤ a ∧ a < b.base + b.size := by
  simp [Buf.holds]

/-- Every byte of a buffer is at an address the map gives to it. -/
theorem Buf.locate_base_add (b : Buf) (i : Nat) (h : i < b.size) : Buf.locate (b.base + i) = some (b, i) := by
  cases b <;> simp only [Buf.size, Config.RXBUF_SIZE, Config.TXBUF_SIZE, Config.CMDBUF_SIZE, Config.DECBUF_SIZE] at h <;>
    simp only [Buf.locate, Buf.holds_iff, Buf.base, Buf.size, Config.RXBUF_SIZE, Config.TXBUF_SIZE, Config.CMDBUF_SIZE,
      Config.DECBUF_SIZE] <;>
    split_ifs <;> first | omega | simp

/-- The converse: a located address is that byte's, in range. -/
theorem Buf.locate_eq_some (a : Nat) (b : Buf) (i : Nat) (h : Buf.locate a = some (b, i)) : a = b.base + i ∧ i < b.size := by
  simp only [Buf.locate, Buf.holds, decide_eq_true_eq] at h
  split at h
  · cases h; constructor <;> omega
  · split at h
    · cases h; constructor <;> omega
    · split at h
      · cases h; constructor <;> omega
      · split at h
        · cases h; constructor <;> omega
        · cases h

theorem Memory.wf_nil : Memory.wf [] = true := rfl

/-- BufWrite keeps the canonical form. -/
theorem bufWrite_wf (m : Memory) (b : Buf) (i : Nat) (v : Byte) (hi : i < b.size) (h : m.wf = true) :
    (bufWrite m b i v).wf = true := by
  simp only [Memory.wf, Bool.and_eq_true] at h ⊢
  exact ⟨Memory.rising_write m _ v h.1,
    Memory.all_write m _ v (fun a => (Buf.locate a).isSome) (by simp [Buf.locate_base_add b i hi]) h.2⟩

theorem bufWriteFrom_wf (m : Memory) (b : Buf) (i : Nat) (vs : List Byte) (hi : i + vs.length ≤ b.size)
    (h : m.wf = true) : (bufWriteFrom m b i vs).wf = true := by
  induction vs generalizing m i with
  | nil => exact h
  | cons v vs ih =>
    simp only [List.length_cons] at hi
    exact ih _ _ (by omega) (bufWrite_wf m b i v (by omega) h)

theorem bufWriteAll_wf (m : Memory) (b : Buf) (vs : List Byte) (hi : vs.length ≤ b.size) (h : m.wf = true) :
    (bufWriteAll m b vs).wf = true :=
  bufWriteFrom_wf m b 0 vs (by omega) h

/-- A run of writes leaves every other address alone. -/
theorem bufWriteFrom_read_other (m : Memory) (b : Buf) (i : Nat) (vs : List Byte) (a : Nat)
    (h : a < b.base + i ∨ b.base + i + vs.length ≤ a) : (bufWriteFrom m b i vs).read a = m.read a := by
  induction vs generalizing m i with
  | nil => rfl
  | cons v vs ih =>
    simp only [List.length_cons] at h
    rw [bufWriteFrom, ih _ _ (by omega), bufWrite, Memory.read_write_other _ _ _ _ (by omega)]

/-- A run of writes leaves its bytes in order. -/
theorem bufWriteFrom_read (m : Memory) (b : Buf) (i : Nat) (vs : List Byte) (j : Nat) (h : j < vs.length) :
    (bufWriteFrom m b i vs).read (b.base + i + j) = some vs[j] := by
  induction vs generalizing m i j with
  | nil => simp at h
  | cons v vs ih =>
    rw [bufWriteFrom]
    cases j with
    | zero =>
      rw [bufWriteFrom_read_other _ _ _ _ _ (by omega)]
      simp [bufWrite, Memory.read_write_same]
    | succ j =>
      simp only [List.length_cons] at h
      have := ih (bufWrite m b i v) (i + 1) j (by omega)
      simpa [Nat.add_assoc, Nat.add_comm 1 j] using this

/-- Reading `n` bytes from index `i` gives them all, or the first undefined index. -/
theorem bufReadFrom_cases (m : Memory) (b : Buf) (i n : Nat) :
    (∃ vs, bufReadFrom m b i n = .ok vs ∧ vs.length = n ∧ ∀ j (h : j < vs.length), bufRead m b (i + j) = some vs[j]) ∨
    (∃ j, bufReadFrom m b i n = .error j ∧ i ≤ j ∧ j < i + n ∧ bufRead m b j = none ∧
      ∀ k, i ≤ k → k < j → (bufRead m b k).isSome = true) := by
  induction n generalizing i with
  | zero => exact .inl ⟨[], rfl, rfl, by simp⟩
  | succ n ih =>
    rw [bufReadFrom]
    cases hv : bufRead m b i with
    | none => exact .inr ⟨i, rfl, by omega, by omega, hv, by intro k; omega⟩
    | some v =>
      obtain ⟨vs, h, hl, hr⟩ | ⟨j, h, h1, h2, hn, hs⟩ := ih (i + 1)
      · refine .inl ⟨v :: vs, by simp [h], by simp [hl], ?_⟩
        intro j hj
        cases j with
        | zero => simpa using hv
        | succ j =>
          simp only [List.length_cons] at hj
          have := hr j (by omega)
          simpa [Nat.add_assoc, Nat.add_comm 1 j] using this
      · refine .inr ⟨j, by simp [h], by omega, by omega, hn, ?_⟩
        intro k hk hkj
        obtain rfl | hk := Nat.eq_or_lt_of_le hk
        · simp [hv]
        · exact hs k (by omega) hkj

theorem bufReadAll_cases (m : Memory) (b : Buf) (n : Nat) :
    (∃ vs, bufReadAll m b n = .ok vs ∧ vs.length = n ∧ ∀ j (h : j < vs.length), bufRead m b j = some vs[j]) ∨
    (∃ j, bufReadAll m b n = .error j ∧ j < n ∧ bufRead m b j = none ∧
      ∀ k, k < j → (bufRead m b k).isSome = true) := by
  obtain ⟨vs, h, hl, hr⟩ | ⟨j, h, -, h2, hn, hs⟩ := bufReadFrom_cases m b 0 n
  · exact .inl ⟨vs, h, hl, fun j hj => by simpa using hr j hj⟩
  · exact .inr ⟨j, h, by omega, hn, fun k hk => hs k (Nat.zero_le _) hk⟩

/-- When the buffer holds `vs` at its beginning, reading that many bytes gives them. -/
theorem bufReadAll_eq (m : Memory) (b : Buf) (vs : List Byte)
    (h : ∀ j (hj : j < vs.length), bufRead m b j = some vs[j]) : bufReadAll m b vs.length = .ok vs := by
  obtain ⟨ws, hw, hl, hr⟩ | ⟨j, -, hj, hn, -⟩ := bufReadAll_cases m b vs.length
  · rw [hw]
    congr 1
    apply List.ext_getElem hl
    intro j h1 h2
    have := (hr j h1).symm.trans (h j h2)
    simpa using this
  · rw [h j hj] at hn
    cases hn

end Sys2Proof.Machine
end

