-- ==== Sys2Proof/Laws/State.lean ====
section
/-! SUPPORT. One lemma per field per state update, true by rfl, so that no later proof unfolds a record update. -/

namespace Sys2Proof.Machine

@[simp] theorem State.issue_cmd (s : State) (w : Word) : (s.issue w).cmd = w := rfl
@[simp] theorem State.issue_status (s : State) (w : Word) : (s.issue w).status = s.status.issued w := rfl
@[simp] theorem State.issue_rdata (s : State) (w : Word) : (s.issue w).rdata = s.rdata := rfl
@[simp] theorem State.issue_ownAddr (s : State) (w : Word) : (s.issue w).ownAddr = s.ownAddr := rfl
@[simp] theorem State.issue_rollCnt (s : State) (w : Word) : (s.issue w).rollCnt = s.rollCnt := rfl
@[simp] theorem State.issue_rssiDbm (s : State) (w : Word) : (s.issue w).rssiDbm = s.rssiDbm := rfl
@[simp] theorem State.issue_lens (s : State) (w : Word) : (s.issue w).lens = s.lens := rfl
@[simp] theorem State.issue_chipid (s : State) (w : Word) : (s.issue w).chipid = s.chipid := rfl
@[simp] theorem State.issue_decinfo (s : State) (w : Word) : (s.issue w).decinfo = s.decinfo := rfl
@[simp] theorem State.issue_irqFlag (s : State) (w : Word) : (s.issue w).irqFlag = s.irqFlag := rfl
@[simp] theorem State.issue_irqCnt (s : State) (w : Word) : (s.issue w).irqCnt = s.irqCnt := rfl
@[simp] theorem State.issue_mem (s : State) (w : Word) : (s.issue w).mem = s.mem := rfl
@[simp] theorem State.issue_seq (s : State) (w : Word) : (s.issue w).seq = .running w .start := rfl
@[simp] theorem State.issue_sel (s : State) (w : Word) : (s.issue w).sel = s.sel := rfl
@[simp] theorem State.issue_stuckIter (s : State) (w : Word) : (s.issue w).stuckIter = s.stuckIter := rfl
@[simp] theorem State.issue_rdy (s : State) (w : Word) : (s.issue w).rdy = s.rdy := rfl
@[simp] theorem State.issue_answers (s : State) (w : Word) : (s.issue w).answers = s.answers := rfl
@[simp] theorem State.issue_inputs (s : State) (w : Word) : (s.issue w).inputs = s.inputs := rfl
@[simp] theorem State.issue_drawCount (s : State) (w : Word) : (s.issue w).drawCount = s.drawCount := rfl
@[simp] theorem State.issue_trace (s : State) (w : Word) : (s.issue w).trace = s.trace := rfl

@[simp] theorem State.complete_cmd (s : State) : (s.complete).cmd = s.cmd := rfl
@[simp] theorem State.complete_status (s : State) : (s.complete).status = s.status.completed := rfl
@[simp] theorem State.complete_rdata (s : State) : (s.complete).rdata = s.rdata := rfl
@[simp] theorem State.complete_ownAddr (s : State) : (s.complete).ownAddr = s.ownAddr := rfl
@[simp] theorem State.complete_rollCnt (s : State) : (s.complete).rollCnt = s.rollCnt := rfl
@[simp] theorem State.complete_rssiDbm (s : State) : (s.complete).rssiDbm = s.rssiDbm := rfl
@[simp] theorem State.complete_lens (s : State) : (s.complete).lens = s.lens := rfl
@[simp] theorem State.complete_chipid (s : State) : (s.complete).chipid = s.chipid := rfl
@[simp] theorem State.complete_decinfo (s : State) : (s.complete).decinfo = s.decinfo := rfl
@[simp] theorem State.complete_irqFlag (s : State) : (s.complete).irqFlag = s.irqFlag := rfl
@[simp] theorem State.complete_irqCnt (s : State) : (s.complete).irqCnt = s.irqCnt := rfl
@[simp] theorem State.complete_mem (s : State) : (s.complete).mem = s.mem := rfl
@[simp] theorem State.complete_seq (s : State) : (s.complete).seq = .idle := rfl
@[simp] theorem State.complete_sel (s : State) : (s.complete).sel = s.sel := rfl
@[simp] theorem State.complete_stuckIter (s : State) : (s.complete).stuckIter = s.stuckIter := rfl
@[simp] theorem State.complete_rdy (s : State) : (s.complete).rdy = s.rdy := rfl
@[simp] theorem State.complete_answers (s : State) : (s.complete).answers = s.answers := rfl
@[simp] theorem State.complete_inputs (s : State) : (s.complete).inputs = s.inputs := rfl
@[simp] theorem State.complete_drawCount (s : State) : (s.complete).drawCount = s.drawCount := rfl
@[simp] theorem State.complete_trace (s : State) : (s.complete).trace = s.trace := rfl

@[simp] theorem State.raiseErr_cmd (s : State) (e : ErrCode) : (s.raiseErr e).cmd = s.cmd := rfl
@[simp] theorem State.raiseErr_status (s : State) (e : ErrCode) : (s.raiseErr e).status = s.status.raised e := rfl
@[simp] theorem State.raiseErr_rdata (s : State) (e : ErrCode) : (s.raiseErr e).rdata = s.rdata := rfl
@[simp] theorem State.raiseErr_ownAddr (s : State) (e : ErrCode) : (s.raiseErr e).ownAddr = s.ownAddr := rfl
@[simp] theorem State.raiseErr_rollCnt (s : State) (e : ErrCode) : (s.raiseErr e).rollCnt = s.rollCnt := rfl
@[simp] theorem State.raiseErr_rssiDbm (s : State) (e : ErrCode) : (s.raiseErr e).rssiDbm = s.rssiDbm := rfl
@[simp] theorem State.raiseErr_lens (s : State) (e : ErrCode) : (s.raiseErr e).lens = s.lens := rfl
@[simp] theorem State.raiseErr_chipid (s : State) (e : ErrCode) : (s.raiseErr e).chipid = s.chipid := rfl
@[simp] theorem State.raiseErr_decinfo (s : State) (e : ErrCode) : (s.raiseErr e).decinfo = s.decinfo := rfl
@[simp] theorem State.raiseErr_irqFlag (s : State) (e : ErrCode) : (s.raiseErr e).irqFlag = s.irqFlag := rfl
@[simp] theorem State.raiseErr_irqCnt (s : State) (e : ErrCode) : (s.raiseErr e).irqCnt = s.irqCnt := rfl
@[simp] theorem State.raiseErr_mem (s : State) (e : ErrCode) : (s.raiseErr e).mem = s.mem := rfl
@[simp] theorem State.raiseErr_seq (s : State) (e : ErrCode) : (s.raiseErr e).seq = .idle := rfl
@[simp] theorem State.raiseErr_sel (s : State) (e : ErrCode) : (s.raiseErr e).sel = s.sel := rfl
@[simp] theorem State.raiseErr_stuckIter (s : State) (e : ErrCode) : (s.raiseErr e).stuckIter = s.stuckIter := rfl
@[simp] theorem State.raiseErr_rdy (s : State) (e : ErrCode) : (s.raiseErr e).rdy = s.rdy := rfl
@[simp] theorem State.raiseErr_answers (s : State) (e : ErrCode) : (s.raiseErr e).answers = s.answers := rfl
@[simp] theorem State.raiseErr_inputs (s : State) (e : ErrCode) : (s.raiseErr e).inputs = s.inputs := rfl
@[simp] theorem State.raiseErr_drawCount (s : State) (e : ErrCode) : (s.raiseErr e).drawCount = s.drawCount := rfl
@[simp] theorem State.raiseErr_trace (s : State) (e : ErrCode) : (s.raiseErr e).trace = s.trace := rfl

@[simp] theorem State.warn_cmd (s : State) (x : Option Warning) : (s.warn x).cmd = s.cmd := rfl
@[simp] theorem State.warn_status (s : State) (x : Option Warning) : (s.warn x).status = s.status.warned x := rfl
@[simp] theorem State.warn_rdata (s : State) (x : Option Warning) : (s.warn x).rdata = s.rdata := rfl
@[simp] theorem State.warn_ownAddr (s : State) (x : Option Warning) : (s.warn x).ownAddr = s.ownAddr := rfl
@[simp] theorem State.warn_rollCnt (s : State) (x : Option Warning) : (s.warn x).rollCnt = s.rollCnt := rfl
@[simp] theorem State.warn_rssiDbm (s : State) (x : Option Warning) : (s.warn x).rssiDbm = s.rssiDbm := rfl
@[simp] theorem State.warn_lens (s : State) (x : Option Warning) : (s.warn x).lens = s.lens := rfl
@[simp] theorem State.warn_chipid (s : State) (x : Option Warning) : (s.warn x).chipid = s.chipid := rfl
@[simp] theorem State.warn_decinfo (s : State) (x : Option Warning) : (s.warn x).decinfo = s.decinfo := rfl
@[simp] theorem State.warn_irqFlag (s : State) (x : Option Warning) : (s.warn x).irqFlag = s.irqFlag := rfl
@[simp] theorem State.warn_irqCnt (s : State) (x : Option Warning) : (s.warn x).irqCnt = s.irqCnt := rfl
@[simp] theorem State.warn_mem (s : State) (x : Option Warning) : (s.warn x).mem = s.mem := rfl
@[simp] theorem State.warn_seq (s : State) (x : Option Warning) : (s.warn x).seq = s.seq := rfl
@[simp] theorem State.warn_sel (s : State) (x : Option Warning) : (s.warn x).sel = s.sel := rfl
@[simp] theorem State.warn_stuckIter (s : State) (x : Option Warning) : (s.warn x).stuckIter = s.stuckIter := rfl
@[simp] theorem State.warn_rdy (s : State) (x : Option Warning) : (s.warn x).rdy = s.rdy := rfl
@[simp] theorem State.warn_answers (s : State) (x : Option Warning) : (s.warn x).answers = s.answers := rfl
@[simp] theorem State.warn_inputs (s : State) (x : Option Warning) : (s.warn x).inputs = s.inputs := rfl
@[simp] theorem State.warn_drawCount (s : State) (x : Option Warning) : (s.warn x).drawCount = s.drawCount := rfl
@[simp] theorem State.warn_trace (s : State) (x : Option Warning) : (s.warn x).trace = s.trace := rfl

@[simp] theorem State.violate_cmd (s : State) : (s.violate).cmd = s.cmd := rfl
@[simp] theorem State.violate_status (s : State) : (s.violate).status = { s.status with hviol := true } := rfl
@[simp] theorem State.violate_rdata (s : State) : (s.violate).rdata = s.rdata := rfl
@[simp] theorem State.violate_ownAddr (s : State) : (s.violate).ownAddr = s.ownAddr := rfl
@[simp] theorem State.violate_rollCnt (s : State) : (s.violate).rollCnt = s.rollCnt := rfl
@[simp] theorem State.violate_rssiDbm (s : State) : (s.violate).rssiDbm = s.rssiDbm := rfl
@[simp] theorem State.violate_lens (s : State) : (s.violate).lens = s.lens := rfl
@[simp] theorem State.violate_chipid (s : State) : (s.violate).chipid = s.chipid := rfl
@[simp] theorem State.violate_decinfo (s : State) : (s.violate).decinfo = s.decinfo := rfl
@[simp] theorem State.violate_irqFlag (s : State) : (s.violate).irqFlag = s.irqFlag := rfl
@[simp] theorem State.violate_irqCnt (s : State) : (s.violate).irqCnt = s.irqCnt := rfl
@[simp] theorem State.violate_mem (s : State) : (s.violate).mem = s.mem := rfl
@[simp] theorem State.violate_seq (s : State) : (s.violate).seq = s.seq := rfl
@[simp] theorem State.violate_sel (s : State) : (s.violate).sel = s.sel := rfl
@[simp] theorem State.violate_stuckIter (s : State) : (s.violate).stuckIter = s.stuckIter := rfl
@[simp] theorem State.violate_rdy (s : State) : (s.violate).rdy = s.rdy := rfl
@[simp] theorem State.violate_answers (s : State) : (s.violate).answers = s.answers := rfl
@[simp] theorem State.violate_inputs (s : State) : (s.violate).inputs = s.inputs := rfl
@[simp] theorem State.violate_drawCount (s : State) : (s.violate).drawCount = s.drawCount := rfl
@[simp] theorem State.violate_trace (s : State) : (s.violate).trace = s.trace := rfl

@[simp] theorem State.goto_cmd (s : State) (k : Pos) : (s.goto k).cmd = s.cmd := rfl
@[simp] theorem State.goto_status (s : State) (k : Pos) : (s.goto k).status = s.status := rfl
@[simp] theorem State.goto_rdata (s : State) (k : Pos) : (s.goto k).rdata = s.rdata := rfl
@[simp] theorem State.goto_ownAddr (s : State) (k : Pos) : (s.goto k).ownAddr = s.ownAddr := rfl
@[simp] theorem State.goto_rollCnt (s : State) (k : Pos) : (s.goto k).rollCnt = s.rollCnt := rfl
@[simp] theorem State.goto_rssiDbm (s : State) (k : Pos) : (s.goto k).rssiDbm = s.rssiDbm := rfl
@[simp] theorem State.goto_lens (s : State) (k : Pos) : (s.goto k).lens = s.lens := rfl
@[simp] theorem State.goto_chipid (s : State) (k : Pos) : (s.goto k).chipid = s.chipid := rfl
@[simp] theorem State.goto_decinfo (s : State) (k : Pos) : (s.goto k).decinfo = s.decinfo := rfl
@[simp] theorem State.goto_irqFlag (s : State) (k : Pos) : (s.goto k).irqFlag = s.irqFlag := rfl
@[simp] theorem State.goto_irqCnt (s : State) (k : Pos) : (s.goto k).irqCnt = s.irqCnt := rfl
@[simp] theorem State.goto_mem (s : State) (k : Pos) : (s.goto k).mem = s.mem := rfl
@[simp] theorem State.goto_seq (s : State) (k : Pos) : (s.goto k).seq = s.seq.goto k := rfl
@[simp] theorem State.goto_sel (s : State) (k : Pos) : (s.goto k).sel = s.sel := rfl
@[simp] theorem State.goto_stuckIter (s : State) (k : Pos) : (s.goto k).stuckIter = s.stuckIter := rfl
@[simp] theorem State.goto_rdy (s : State) (k : Pos) : (s.goto k).rdy = s.rdy := rfl
@[simp] theorem State.goto_answers (s : State) (k : Pos) : (s.goto k).answers = s.answers := rfl
@[simp] theorem State.goto_inputs (s : State) (k : Pos) : (s.goto k).inputs = s.inputs := rfl
@[simp] theorem State.goto_drawCount (s : State) (k : Pos) : (s.goto k).drawCount = s.drawCount := rfl
@[simp] theorem State.goto_trace (s : State) (k : Pos) : (s.goto k).trace = s.trace := rfl

@[simp] theorem State.setStuck_cmd (s : State) (n : Nat) : (s.setStuck n).cmd = s.cmd := rfl
@[simp] theorem State.setStuck_status (s : State) (n : Nat) : (s.setStuck n).status = s.status := rfl
@[simp] theorem State.setStuck_rdata (s : State) (n : Nat) : (s.setStuck n).rdata = s.rdata := rfl
@[simp] theorem State.setStuck_ownAddr (s : State) (n : Nat) : (s.setStuck n).ownAddr = s.ownAddr := rfl
@[simp] theorem State.setStuck_rollCnt (s : State) (n : Nat) : (s.setStuck n).rollCnt = s.rollCnt := rfl
@[simp] theorem State.setStuck_rssiDbm (s : State) (n : Nat) : (s.setStuck n).rssiDbm = s.rssiDbm := rfl
@[simp] theorem State.setStuck_lens (s : State) (n : Nat) : (s.setStuck n).lens = s.lens := rfl
@[simp] theorem State.setStuck_chipid (s : State) (n : Nat) : (s.setStuck n).chipid = s.chipid := rfl
@[simp] theorem State.setStuck_decinfo (s : State) (n : Nat) : (s.setStuck n).decinfo = s.decinfo := rfl
@[simp] theorem State.setStuck_irqFlag (s : State) (n : Nat) : (s.setStuck n).irqFlag = s.irqFlag := rfl
@[simp] theorem State.setStuck_irqCnt (s : State) (n : Nat) : (s.setStuck n).irqCnt = s.irqCnt := rfl
@[simp] theorem State.setStuck_mem (s : State) (n : Nat) : (s.setStuck n).mem = s.mem := rfl
@[simp] theorem State.setStuck_seq (s : State) (n : Nat) : (s.setStuck n).seq = s.seq := rfl
@[simp] theorem State.setStuck_sel (s : State) (n : Nat) : (s.setStuck n).sel = s.sel := rfl
@[simp] theorem State.setStuck_stuckIter (s : State) (n : Nat) : (s.setStuck n).stuckIter = n := rfl
@[simp] theorem State.setStuck_rdy (s : State) (n : Nat) : (s.setStuck n).rdy = s.rdy := rfl
@[simp] theorem State.setStuck_answers (s : State) (n : Nat) : (s.setStuck n).answers = s.answers := rfl
@[simp] theorem State.setStuck_inputs (s : State) (n : Nat) : (s.setStuck n).inputs = s.inputs := rfl
@[simp] theorem State.setStuck_drawCount (s : State) (n : Nat) : (s.setStuck n).drawCount = s.drawCount := rfl
@[simp] theorem State.setStuck_trace (s : State) (n : Nat) : (s.setStuck n).trace = s.trace := rfl

@[simp] theorem State.exchange_cmd (s : State) (out : List Byte) : (s.exchange out).cmd = s.cmd := rfl
@[simp] theorem State.exchange_status (s : State) (out : List Byte) : (s.exchange out).status = s.status := rfl
@[simp] theorem State.exchange_rdata (s : State) (out : List Byte) : (s.exchange out).rdata = s.rdata := rfl
@[simp] theorem State.exchange_ownAddr (s : State) (out : List Byte) : (s.exchange out).ownAddr = s.ownAddr := rfl
@[simp] theorem State.exchange_rollCnt (s : State) (out : List Byte) : (s.exchange out).rollCnt = s.rollCnt := rfl
@[simp] theorem State.exchange_rssiDbm (s : State) (out : List Byte) : (s.exchange out).rssiDbm = s.rssiDbm := rfl
@[simp] theorem State.exchange_lens (s : State) (out : List Byte) : (s.exchange out).lens = s.lens := rfl
@[simp] theorem State.exchange_chipid (s : State) (out : List Byte) : (s.exchange out).chipid = s.chipid := rfl
@[simp] theorem State.exchange_decinfo (s : State) (out : List Byte) : (s.exchange out).decinfo = s.decinfo := rfl
@[simp] theorem State.exchange_irqFlag (s : State) (out : List Byte) : (s.exchange out).irqFlag = s.irqFlag := rfl
@[simp] theorem State.exchange_irqCnt (s : State) (out : List Byte) : (s.exchange out).irqCnt = s.irqCnt := rfl
@[simp] theorem State.exchange_mem (s : State) (out : List Byte) : (s.exchange out).mem = s.mem := rfl
@[simp] theorem State.exchange_seq (s : State) (out : List Byte) : (s.exchange out).seq = s.seq := rfl
@[simp] theorem State.exchange_sel (s : State) (out : List Byte) : (s.exchange out).sel = .deasserted := rfl
@[simp] theorem State.exchange_stuckIter (s : State) (out : List Byte) : (s.exchange out).stuckIter = s.stuckIter := rfl
@[simp] theorem State.exchange_rdy (s : State) (out : List Byte) : (s.exchange out).rdy = s.rdy := rfl
@[simp] theorem State.exchange_answers (s : State) (out : List Byte) : (s.exchange out).answers = s.answers.drop out.length := rfl
@[simp] theorem State.exchange_inputs (s : State) (out : List Byte) : (s.exchange out).inputs = s.inputs := rfl
@[simp] theorem State.exchange_drawCount (s : State) (out : List Byte) : (s.exchange out).drawCount = s.drawCount + out.length := rfl
@[simp] theorem State.exchange_trace (s : State) (out : List Byte) : (s.exchange out).trace = .txn out (s.received out.length) :: s.trace := rfl

@[simp] theorem State.hold_cmd (s : State) : (s.hold).cmd = s.cmd := rfl
@[simp] theorem State.hold_status (s : State) : (s.hold).status = s.status := rfl
@[simp] theorem State.hold_rdata (s : State) : (s.hold).rdata = s.rdata := rfl
@[simp] theorem State.hold_ownAddr (s : State) : (s.hold).ownAddr = s.ownAddr := rfl
@[simp] theorem State.hold_rollCnt (s : State) : (s.hold).rollCnt = s.rollCnt := rfl
@[simp] theorem State.hold_rssiDbm (s : State) : (s.hold).rssiDbm = s.rssiDbm := rfl
@[simp] theorem State.hold_lens (s : State) : (s.hold).lens = s.lens := rfl
@[simp] theorem State.hold_chipid (s : State) : (s.hold).chipid = s.chipid := rfl
@[simp] theorem State.hold_decinfo (s : State) : (s.hold).decinfo = s.decinfo := rfl
@[simp] theorem State.hold_irqFlag (s : State) : (s.hold).irqFlag = s.irqFlag := rfl
@[simp] theorem State.hold_irqCnt (s : State) : (s.hold).irqCnt = s.irqCnt := rfl
@[simp] theorem State.hold_mem (s : State) : (s.hold).mem = s.mem := rfl
@[simp] theorem State.hold_seq (s : State) : (s.hold).seq = s.seq := rfl
@[simp] theorem State.hold_sel (s : State) : (s.hold).sel = .asserted := rfl
@[simp] theorem State.hold_stuckIter (s : State) : (s.hold).stuckIter = s.stuckIter := rfl
@[simp] theorem State.hold_rdy (s : State) : (s.hold).rdy = s.rdy := rfl
@[simp] theorem State.hold_answers (s : State) : (s.hold).answers = s.answers := rfl
@[simp] theorem State.hold_inputs (s : State) : (s.hold).inputs = s.inputs := rfl
@[simp] theorem State.hold_drawCount (s : State) : (s.hold).drawCount = s.drawCount := rfl
@[simp] theorem State.hold_trace (s : State) : (s.hold).trace = s.trace := rfl

@[simp] theorem State.edge_cmd (s : State) : (s.edge).cmd = s.cmd := rfl
@[simp] theorem State.edge_status (s : State) : (s.edge).status = s.status := rfl
@[simp] theorem State.edge_rdata (s : State) : (s.edge).rdata = s.rdata := rfl
@[simp] theorem State.edge_ownAddr (s : State) : (s.edge).ownAddr = s.ownAddr := rfl
@[simp] theorem State.edge_rollCnt (s : State) : (s.edge).rollCnt = s.rollCnt := rfl
@[simp] theorem State.edge_rssiDbm (s : State) : (s.edge).rssiDbm = s.rssiDbm := rfl
@[simp] theorem State.edge_lens (s : State) : (s.edge).lens = s.lens := rfl
@[simp] theorem State.edge_chipid (s : State) : (s.edge).chipid = s.chipid := rfl
@[simp] theorem State.edge_decinfo (s : State) : (s.edge).decinfo = s.decinfo := rfl
@[simp] theorem State.edge_irqFlag (s : State) : (s.edge).irqFlag = true := rfl
@[simp] theorem State.edge_irqCnt (s : State) : (s.edge).irqCnt = s.irqCnt + 1 := rfl
@[simp] theorem State.edge_mem (s : State) : (s.edge).mem = s.mem := rfl
@[simp] theorem State.edge_seq (s : State) : (s.edge).seq = s.seq := rfl
@[simp] theorem State.edge_sel (s : State) : (s.edge).sel = s.sel := rfl
@[simp] theorem State.edge_stuckIter (s : State) : (s.edge).stuckIter = s.stuckIter := rfl
@[simp] theorem State.edge_rdy (s : State) : (s.edge).rdy = s.rdy := rfl
@[simp] theorem State.edge_answers (s : State) : (s.edge).answers = s.answers := rfl
@[simp] theorem State.edge_inputs (s : State) : (s.edge).inputs = s.inputs := rfl
@[simp] theorem State.edge_drawCount (s : State) : (s.edge).drawCount = s.drawCount := rfl
@[simp] theorem State.edge_trace (s : State) : (s.edge).trace = s.trace := rfl

@[simp] theorem Status.issued_busy (t : Status) (w : Word) : (t.issued w).busy = true := rfl
@[simp] theorem Status.issued_done (t : Status) (w : Word) : (t.issued w).done = false := rfl
@[simp] theorem Status.issued_chipOk (t : Status) (w : Word) : (t.issued w).chipOk = t.chipOk := rfl
@[simp] theorem Status.issued_pktFound (t : Status) (w : Word) : (t.issued w).pktFound = t.pktFound := rfl
@[simp] theorem Status.issued_decValid (t : Status) (w : Word) : (t.issued w).decValid = t.decValid := rfl
@[simp] theorem Status.issued_warnCfg (t : Status) (w : Word) : (t.issued w).warnCfg = false := rfl
@[simp] theorem Status.issued_warnPa (t : Status) (w : Word) : (t.issued w).warnPa = false := rfl
@[simp] theorem Status.issued_hviol (t : Status) (w : Word) : (t.issued w).hviol = t.hviol := rfl
@[simp] theorem Status.issued_addrSet (t : Status) (w : Word) : (t.issued w).addrSet = t.addrSet := rfl
@[simp] theorem Status.issued_err (t : Status) (w : Word) : (t.issued w).err = .ok := rfl
@[simp] theorem Status.issued_lastop (t : Status) (w : Word) : (t.issued w).lastop = opField w := rfl

@[simp] theorem Status.completed_busy (t : Status) : (t.completed).busy = false := rfl
@[simp] theorem Status.completed_done (t : Status) : (t.completed).done = true := rfl
@[simp] theorem Status.completed_chipOk (t : Status) : (t.completed).chipOk = t.chipOk := rfl
@[simp] theorem Status.completed_pktFound (t : Status) : (t.completed).pktFound = t.pktFound := rfl
@[simp] theorem Status.completed_decValid (t : Status) : (t.completed).decValid = t.decValid := rfl
@[simp] theorem Status.completed_warnCfg (t : Status) : (t.completed).warnCfg = t.warnCfg := rfl
@[simp] theorem Status.completed_warnPa (t : Status) : (t.completed).warnPa = t.warnPa := rfl
@[simp] theorem Status.completed_hviol (t : Status) : (t.completed).hviol = t.hviol := rfl
@[simp] theorem Status.completed_addrSet (t : Status) : (t.completed).addrSet = t.addrSet := rfl
@[simp] theorem Status.completed_err (t : Status) : (t.completed).err = t.err := rfl
@[simp] theorem Status.completed_lastop (t : Status) : (t.completed).lastop = t.lastop := rfl

@[simp] theorem Status.raised_busy (t : Status) (e : ErrCode) : (t.raised e).busy = false := rfl
@[simp] theorem Status.raised_done (t : Status) (e : ErrCode) : (t.raised e).done = true := rfl
@[simp] theorem Status.raised_chipOk (t : Status) (e : ErrCode) : (t.raised e).chipOk = t.chipOk := rfl
@[simp] theorem Status.raised_pktFound (t : Status) (e : ErrCode) : (t.raised e).pktFound = t.pktFound := rfl
@[simp] theorem Status.raised_decValid (t : Status) (e : ErrCode) : (t.raised e).decValid = t.decValid := rfl
@[simp] theorem Status.raised_warnCfg (t : Status) (e : ErrCode) : (t.raised e).warnCfg = t.warnCfg := rfl
@[simp] theorem Status.raised_warnPa (t : Status) (e : ErrCode) : (t.raised e).warnPa = t.warnPa := rfl
@[simp] theorem Status.raised_hviol (t : Status) (e : ErrCode) : (t.raised e).hviol = t.hviol := rfl
@[simp] theorem Status.raised_addrSet (t : Status) (e : ErrCode) : (t.raised e).addrSet = t.addrSet := rfl
@[simp] theorem Status.raised_err (t : Status) (e : ErrCode) : (t.raised e).err = e := rfl
@[simp] theorem Status.raised_lastop (t : Status) (e : ErrCode) : (t.raised e).lastop = t.lastop := rfl

@[simp] theorem Status.warned_busy (t : Status) (x : Option Warning) : (t.warned x).busy = t.busy := by
  rcases x with _ | _ | _ <;> rfl
@[simp] theorem Status.warned_done (t : Status) (x : Option Warning) : (t.warned x).done = t.done := by
  rcases x with _ | _ | _ <;> rfl
@[simp] theorem Status.warned_chipOk (t : Status) (x : Option Warning) : (t.warned x).chipOk = t.chipOk := by
  rcases x with _ | _ | _ <;> rfl
@[simp] theorem Status.warned_pktFound (t : Status) (x : Option Warning) : (t.warned x).pktFound = t.pktFound := by
  rcases x with _ | _ | _ <;> rfl
@[simp] theorem Status.warned_decValid (t : Status) (x : Option Warning) : (t.warned x).decValid = t.decValid := by
  rcases x with _ | _ | _ <;> rfl
@[simp] theorem Status.warned_hviol (t : Status) (x : Option Warning) : (t.warned x).hviol = t.hviol := by
  rcases x with _ | _ | _ <;> rfl
@[simp] theorem Status.warned_addrSet (t : Status) (x : Option Warning) : (t.warned x).addrSet = t.addrSet := by
  rcases x with _ | _ | _ <;> rfl
@[simp] theorem Status.warned_err (t : Status) (x : Option Warning) : (t.warned x).err = t.err := by
  rcases x with _ | _ | _ <;> rfl
@[simp] theorem Status.warned_lastop (t : Status) (x : Option Warning) : (t.warned x).lastop = t.lastop := by
  rcases x with _ | _ | _ <;> rfl

@[simp] theorem Seq.goto_running (w : Word) (k k' : Pos) : (Seq.running w k).goto k' = .running w k' := rfl
@[simp] theorem Seq.goto_idle (k' : Pos) : Seq.idle.goto k' = .idle := rfl

/-- The position of a running command. -/
theorem State.pos_running (s : State) (w : Word) (k : Pos) (h : s.seq = .running w k) : s.pos = k := by
  simp [State.pos, h]

@[simp] theorem Seq.goto_eq_idle (q : Seq) (k : Pos) : q.goto k = .idle ↔ q = .idle := by
  cases q <;> simp [Seq.goto]

/-- A running command is where it was sent. -/
theorem State.goto_pos (s : State) (k : Pos) (h : s.seq ≠ .idle) : (s.goto k).pos = k := by
  cases hs : s.seq with
  | idle => exact absurd hs h
  | running w k' => simp [State.pos, State.goto, hs]

/-- Answers after an exchange are the later answers before it. -/
@[simp] theorem State.exchange_answer (s : State) (out : List Byte) (i : Nat) :
    (s.exchange out).answer i = s.answer (out.length + i) := by
  simp [State.answer, List.getD_eq_getElem?_getD, Nat.add_assoc]

@[simp] theorem State.received_length (s : State) (n : Nat) : (s.received n).length = n := by
  simp [State.received]

/-- The byte received while byte `i` goes out is answer `i`. -/
theorem State.byteIn_received (s : State) (n i : Nat) (h : i < n) : byteIn (s.received n) i = s.answer i := by
  simp [byteIn, State.received, List.getD_eq_getElem?_getD, h]

@[simp] theorem State.goto_answer (s : State) (k : Pos) (i : Nat) : (s.goto k).answer i = s.answer i := rfl
@[simp] theorem State.setStuck_answer (s : State) (n i : Nat) : (s.setStuck n).answer i = s.answer i := rfl
@[simp] theorem State.goto_received (s : State) (k : Pos) (n : Nat) : (s.goto k).received n = s.received n := rfl
@[simp] theorem State.setStuck_received (s : State) (m n : Nat) : (s.setStuck m).received n = s.received n := rfl

end Sys2Proof.Machine
end

