-- ==== Sys2Proof/Laws/Ops.lean ====
section
/-! SUPPORT. One lemma per shared operation that says all it can do: with the ready gate open, with it closed, and for `Ensures`, what every next state it can answer satisfies. -/

namespace Sys2Proof.Machine

/-- Every next state that `r` can be satisfies `P`. -/
def Ensures (r : Result) (P : State → Prop) : Prop := ∀ t, r = .next t → P t

theorem Ensures.next {s : State} {P : State → Prop} (h : P s) : Ensures (.next s) P := by
  intro t ht
  cases ht
  exact h

theorem Ensures.fault {f : Fault} {P : State → Prop} : Ensures (.fault f) P := by
  intro t ht
  cases ht

theorem Ensures.ite {c : Prop} [Decidable c] {r r' : Result} {P : State → Prop} (h : c → Ensures r P)
    (h' : ¬c → Ensures r' P) : Ensures (if c then r else r') P := by
  split
  · exact h ‹_›
  · exact h' ‹_›

/-! The transaction and what is built on it, with RDY true. -/

theorem txn_ready (out : List Byte) (s : State) (k : List Byte → State → Result) (h : s.rdy = true) :
    txn out s k = k (s.received out.length) (s.exchange out) := by
  simp [txn, h]

theorem txn_held (out : List Byte) (s : State) (k : List Byte → State → Result) (h : s.rdy = false) :
    txn out s k = .next s.hold := by
  simp [txn, h]

theorem readOnce_ready (hb : Byte) (s : State) (k : Byte → State → Result) (h : s.rdy = true) :
    readOnce hb s k = k (s.answer 1) (s.exchange [hb, Config.DUMMY]) := by
  rw [readOnce, txn_ready _ _ _ h]
  simp only [List.length_cons, List.length_nil]
  rw [State.byteIn_received _ _ _ (by decide)]

theorem readOnce_held (hb : Byte) (s : State) (k : Byte → State → Result) (h : s.rdy = false) :
    readOnce hb s k = .next s.hold :=
  txn_held _ _ _ h

theorem strobe_ready (c : Byte) (s : State) (k : Byte → State → Result) (h : s.rdy = true) :
    strobe c s k = k (s.answer 0) (s.exchange [hdrByte c false false]) := by
  rw [strobe, txn_ready _ _ _ h]
  simp only [List.length_cons, List.length_nil]
  rw [State.byteIn_received _ _ _ (by decide)]

theorem strobe_held (c : Byte) (s : State) (k : Byte → State → Result) (h : s.rdy = false) :
    strobe c s k = .next s.hold :=
  txn_held _ _ _ h

theorem stableRead_first (hb : Byte) (at' : Option Byte → Pos) (s : State) (k : Byte → State → Result)
    (h : s.rdy = true) :
    stableRead hb none at' s k = .next ((s.exchange [hb, Config.DUMMY]).goto (at' (some (s.answer 1)))) := by
  simp [stableRead, readOnce_ready, h]

theorem stableRead_second (hb u : Byte) (at' : Option Byte → Pos) (s : State) (k : Byte → State → Result)
    (h : s.rdy = true) :
    stableRead hb (some u) at' s k =
      if u = s.answer 1 then k (s.answer 1) (s.exchange [hb, Config.DUMMY])
      else .next ((s.exchange [hb, Config.DUMMY]).goto (at' none)) := by
  simp [stableRead, readOnce_ready, h]

theorem stableRead_held (hb : Byte) (v1 : Option Byte) (at' : Option Byte → Pos) (s : State)
    (k : Byte → State → Result) (h : s.rdy = false) : stableRead hb v1 at' s k = .next s.hold :=
  readOnce_held _ _ _ h

theorem regRead_held (a : Byte) (v1 : Option Byte) (at' : Option Byte → Pos) (s : State)
    (k : Byte → State → Result) (h : s.rdy = false) : regRead a v1 at' s k = .next s.hold := by
  unfold regRead
  split
  · split
    · exact stableRead_held _ _ _ _ _ h
    · exact readOnce_held _ _ _ h
  · exact readOnce_held _ _ _ h

/-- A register that is not in GLITCH_SET is read once (R105). -/
theorem regRead_once (a : Byte) (v1 : Option Byte) (at' : Option Byte → Pos) (s : State)
    (k : Byte → State → Result) (h : s.rdy = true) (ha : a ∉ Config.GLITCH_SET) :
    regRead a v1 at' s k = k (s.answer 1) (s.exchange [hdrByte a true (isStatAddr a), Config.DUMMY]) := by
  unfold regRead
  cases hs : isStatAddr a
  · simp [readOnce_ready, h]
  · simp only [ha, if_true, if_false]
    rw [readOnce_ready _ _ _ h]

theorem isStatAddr_glitch (a : Byte) (ha : a ∈ Config.GLITCH_SET) : isStatAddr a = true := by
  simp only [Config.GLITCH_SET, List.mem_cons, List.not_mem_nil, or_false] at ha
  rcases ha with rfl | rfl | rfl | rfl | rfl | rfl <;> decide

/-- A register in GLITCH_SET is read until stable (R104, R105). -/
theorem regRead_stable (a : Byte) (v1 : Option Byte) (at' : Option Byte → Pos) (s : State)
    (k : Byte → State → Result) (ha : a ∈ Config.GLITCH_SET) :
    regRead a v1 at' s k = stableRead (hdrByte a true true) v1 at' s k := by
  simp [regRead, isStatAddr_glitch a ha, ha]

theorem runState_first (at' : Option Byte → Pos) (s : State) (k : Byte → State → Result) (h : s.rdy = true) :
    runState none at' s k = .next ((s.exchange [0xF5#8, 0x00#8]).goto (at' (some (s.answer 1)))) := by
  rw [runState, regRead_stable _ _ _ _ _ (by decide), stableRead_first _ _ _ _ h]
  rfl

theorem runState_second (u : Byte) (at' : Option Byte → Pos) (s : State) (k : Byte → State → Result)
    (h : s.rdy = true) :
    runState (some u) at' s k =
      if u = s.answer 1 then k (s.answer 1 &&& 0x1F#8) (s.exchange [0xF5#8, 0x00#8])
      else .next ((s.exchange [0xF5#8, 0x00#8]).goto (at' none)) := by
  rw [runState, regRead_stable _ _ _ _ _ (by decide), stableRead_second _ _ _ _ _ h]
  rfl

theorem runState_held (v1 : Option Byte) (at' : Option Byte → Pos) (s : State) (k : Byte → State → Result)
    (h : s.rdy = false) : runState v1 at' s k = .next s.hold :=
  regRead_held _ _ _ _ _ h

theorem gated_open (s : State) (k : Result) (h : s.status.chipOk = true) : gated s k = k := by
  simp [gated, h]

theorem gated_closed (s : State) (k : Result) (h : s.status.chipOk = false) : gated s k = .next (s.raiseErr .notInit) := by
  simp [gated, h]

theorem withBytes_ok (b : Buf) (n : Nat) (s : State) (k : List Byte → Result) (bytes : List Byte)
    (h : bufReadAll s.mem b n = .ok bytes) : withBytes b n s k = k bytes := by
  simp [withBytes, h]

/-! The run-state waits place by place, with RDY true. -/

theorem forceIdle_strobe_ready (at' : IdlePlace → Pos) (s : State) (k : State → Result) (h : s.rdy = true) :
    forceIdle .strobe at' s k = .next ((s.exchange [0x36#8]).goto (at' (.poll none))) := by
  rw [forceIdle, strobe_ready _ _ _ h]
  rfl

theorem forceIdle_poll_first (at' : IdlePlace → Pos) (s : State) (k : State → Result) (h : s.rdy = true) :
    forceIdle (.poll none) at' s k
      = .next ((s.exchange [0xF5#8, 0x00#8]).goto (at' (.poll (some (s.answer 1))))) := by
  rw [forceIdle, runState_first _ _ _ h]

theorem forceIdle_poll_second (u : Byte) (at' : IdlePlace → Pos) (s : State) (k : State → Result)
    (h : s.rdy = true) :
    forceIdle (.poll (some u)) at' s k =
      if u = s.answer 1 ∧ u &&& 0x1F#8 = 0x01#8 then k (s.exchange [0xF5#8, 0x00#8])
      else .next ((s.exchange [0xF5#8, 0x00#8]).goto (at' (.poll none))) := by
  rw [forceIdle, runState_second _ _ _ _ h]
  by_cases hu : u = s.answer 1 <;> simp [hu]

theorem forceIdle_poll_differs (u : Byte) (at' : IdlePlace → Pos) (s : State) (k : State → Result) (h : s.rdy = true)
    (hne : u ≠ s.answer 1) :
    forceIdle (.poll (some u)) at' s k = .next ((s.exchange [0xF5#8, 0x00#8]).goto (at' (.poll none))) := by
  rw [forceIdle_poll_second _ _ _ _ h, if_neg (fun h => hne h.1)]

/-- The stuck detector counts the poll and chooses where to go on (R172). -/
theorem stuckStep_eq (at' : EnterPlace → Pos) (s : State) :
    stuckStep at' s = (s.setStuck (s.stuckIter + 1)).goto
      (at' (if s.stuckIter + 1 = 200 then .stuckFlush else .poll none)) := by
  by_cases h : s.stuckIter + 1 = 200 <;> simp [stuckStep, h]

theorem enterStrobe_ready (c : Byte) (at' : EnterPlace → Pos) (s : State) (h : s.rdy = true) :
    enterStrobe c at' s = .next (((s.exchange [hdrByte c false false]).setStuck 0).goto (at' (.poll none))) := by
  rw [enterStrobe, strobe_ready _ _ _ h]

theorem enterRx_idle (q : IdlePlace) (at' : EnterPlace → Pos) (o : Pos) (s : State) (k : State → Result) :
    enterRx (.idle q) at' o s k = forceIdle q (fun q => at' (.idle q)) s (fun s => .next (s.goto (at' .strobe))) := by
  rw [enterRx]

theorem enterRx_strobe (at' : EnterPlace → Pos) (o : Pos) (s : State) (k : State → Result) :
    enterRx .strobe at' o s k = enterStrobe Config.S_SRX at' s := by
  rw [enterRx]

theorem enterRx_poll_first (at' : EnterPlace → Pos) (o : Pos) (s : State) (k : State → Result) (h : s.rdy = true) :
    enterRx (.poll none) at' o s k
      = .next ((s.exchange [0xF5#8, 0x00#8]).goto (at' (.poll (some (s.answer 1))))) := by
  rw [enterRx, runState_first _ _ _ h]

theorem enterRx_poll_second (u : Byte) (at' : EnterPlace → Pos) (o : Pos) (s : State) (k : State → Result)
    (h : s.rdy = true) :
    enterRx (.poll (some u)) at' o s k =
      if u = s.answer 1 then
        if u &&& 0x1F#8 = 0x0D#8 then k (s.exchange [0xF5#8, 0x00#8])
        else if u &&& 0x1F#8 = 0x11#8 then .next ((s.exchange [0xF5#8, 0x00#8]).goto o)
        else .next (stuckStep at' (s.exchange [0xF5#8, 0x00#8]))
      else .next ((s.exchange [0xF5#8, 0x00#8]).goto (at' (.poll none))) := by
  rw [enterRx, runState_second _ _ _ _ h]
  by_cases hu : u = s.answer 1 <;> simp [hu]

theorem enterRx_stuckFlush (at' : EnterPlace → Pos) (o : Pos) (s : State) (k : State → Result) (h : s.rdy = true) :
    enterRx .stuckFlush at' o s k = .next ((s.exchange [0x3A#8]).goto (at' .stuckStrobe)) := by
  rw [enterRx, strobe_ready _ _ _ h]
  rfl

theorem enterRx_stuckStrobe (at' : EnterPlace → Pos) (o : Pos) (s : State) (k : State → Result) :
    enterRx .stuckStrobe at' o s k = enterStrobe Config.S_SRX at' s := by
  rw [enterRx]

theorem overflowFlush_ready (at' : EnterPlace → Pos) (s : State) (h : s.rdy = true) :
    overflowFlush at' s = .next (stuckStep at' (s.exchange [0x3A#8])) := by
  rw [overflowFlush, strobe_ready _ _ _ h]
  rfl

theorem enterTx_idle (q : IdlePlace) (at' : EnterPlace → Pos) (s : State) (k : State → Result) :
    enterTx (.idle q) at' s k = forceIdle q (fun q => at' (.idle q)) s (fun s => .next (s.goto (at' .strobe))) := by
  rw [enterTx]

theorem enterTx_strobe (at' : EnterPlace → Pos) (s : State) (k : State → Result) :
    enterTx .strobe at' s k = enterStrobe Config.S_STX at' s := by
  rw [enterTx]

theorem enterTx_poll_first (at' : EnterPlace → Pos) (s : State) (k : State → Result) (h : s.rdy = true) :
    enterTx (.poll none) at' s k
      = .next ((s.exchange [0xF5#8, 0x00#8]).goto (at' (.poll (some (s.answer 1))))) := by
  rw [enterTx, runState_first _ _ _ h]

theorem enterTx_poll_second (u : Byte) (at' : EnterPlace → Pos) (s : State) (k : State → Result)
    (h : s.rdy = true) :
    enterTx (.poll (some u)) at' s k =
      if u = s.answer 1 then
        if u &&& 0x1F#8 = 0x13#8 then k (s.exchange [0xF5#8, 0x00#8])
        else .next (stuckStep at' (s.exchange [0xF5#8, 0x00#8]))
      else .next ((s.exchange [0xF5#8, 0x00#8]).goto (at' (.poll none))) := by
  rw [enterTx, runState_second _ _ _ _ h]
  by_cases hu : u = s.answer 1 <;> simp [hu]

theorem enterTx_stuckFlush (at' : EnterPlace → Pos) (s : State) (k : State → Result) (h : s.rdy = true) :
    enterTx .stuckFlush at' s k = .next ((s.exchange [0x3B#8]).goto (at' .stuckStrobe)) := by
  rw [enterTx, strobe_ready _ _ _ h]
  rfl

theorem enterTx_stuckStrobe (at' : EnterPlace → Pos) (s : State) (k : State → Result) :
    enterTx .stuckStrobe at' s k = enterStrobe Config.S_STX at' s := by
  rw [enterTx]

/-! `Ensures` through each operation. -/

theorem Ensures.txn {out : List Byte} {s : State} {k : List Byte → State → Result} {P : State → Prop}
    (h : s.rdy = true → Ensures (k (s.received out.length) (s.exchange out)) P) (h' : s.rdy = false → P s.hold) :
    Ensures (Machine.txn out s k) P := by
  cases hr : s.rdy
  · rw [txn_held _ _ _ hr]
    exact .next (h' hr)
  · rw [txn_ready _ _ _ hr]
    exact h hr

theorem Ensures.readOnce {hb : Byte} {s : State} {k : Byte → State → Result} {P : State → Prop}
    (h : s.rdy = true → Ensures (k (s.answer 1) (s.exchange [hb, Config.DUMMY])) P) (h' : s.rdy = false → P s.hold) :
    Ensures (Machine.readOnce hb s k) P := by
  cases hr : s.rdy
  · rw [readOnce_held _ _ _ hr]
    exact .next (h' hr)
  · rw [readOnce_ready _ _ _ hr]
    exact h hr

theorem Ensures.strobe {c : Byte} {s : State} {k : Byte → State → Result} {P : State → Prop}
    (h : s.rdy = true → Ensures (k (s.answer 0) (s.exchange [hdrByte c false false])) P)
    (h' : s.rdy = false → P s.hold) : Ensures (Machine.strobe c s k) P := by
  cases hr : s.rdy
  · rw [strobe_held _ _ _ hr]
    exact .next (h' hr)
  · rw [strobe_ready _ _ _ hr]
    exact h hr

/-- A register read, whichever its policy: it moves to a position of the caller's read, or goes on with a value, after one
transaction of two bytes. -/
theorem Ensures.regRead {a : Byte} {v1 : Option Byte} {at' : Option Byte → Pos} {s : State}
    {k : Byte → State → Result} {P : State → Prop}
    (h : s.rdy = true → ∀ hb, Ensures (k (s.answer 1) (s.exchange [hb, Config.DUMMY])) P)
    (hp : s.rdy = true → a ∈ Config.GLITCH_SET → ∀ hb v, P ((s.exchange [hb, Config.DUMMY]).goto (at' v)))
    (h' : s.rdy = false → P s.hold) : Ensures (Machine.regRead a v1 at' s k) P := by
  cases hr : s.rdy
  · rw [regRead_held _ _ _ _ _ hr]
    exact .next (h' hr)
  · by_cases ha : a ∈ Config.GLITCH_SET
    · rw [regRead_stable _ _ _ _ _ ha]
      cases v1 with
      | none =>
        rw [stableRead_first _ _ _ _ hr]
        exact .next (hp hr ha _ _)
      | some u =>
        rw [stableRead_second _ _ _ _ _ hr]
        exact .ite (fun _ => h hr _) (fun _ => .next (hp hr ha _ _))
    · rw [regRead_once _ _ _ _ _ hr ha]
      exact h hr _

theorem Ensures.runState {v1 : Option Byte} {at' : Option Byte → Pos} {s : State}
    {k : Byte → State → Result} {P : State → Prop}
    (h : s.rdy = true → Ensures (k (s.answer 1 &&& 0x1F#8) (s.exchange [0xF5#8, 0x00#8])) P)
    (hp : s.rdy = true → ∀ v, P ((s.exchange [0xF5#8, 0x00#8]).goto (at' v)))
    (h' : s.rdy = false → P s.hold) : Ensures (Machine.runState v1 at' s k) P := by
  cases hr : s.rdy
  · rw [runState_held _ _ _ _ hr]
    exact .next (h' hr)
  · cases v1 with
    | none =>
      rw [runState_first _ _ _ hr]
      exact .next (hp hr _)
    | some u =>
      rw [runState_second _ _ _ _ hr]
      exact .ite (fun _ => h hr) (fun _ => .next (hp hr _))

theorem Ensures.gated {s : State} {k : Result} {P : State → Prop} (h : s.status.chipOk = true → Ensures k P)
    (h' : s.status.chipOk = false → P (s.raiseErr .notInit)) : Ensures (Machine.gated s k) P := by
  cases hc : s.status.chipOk
  · rw [gated_closed _ _ hc]
    exact .next (h' hc)
  · rw [gated_open _ _ hc]
    exact h hc

theorem Ensures.withBytes {b : Buf} {n : Nat} {s : State} {k : List Byte → Result} {P : State → Prop}
    (h : ∀ bytes, bufReadAll s.mem b n = .ok bytes → bytes.length = n → Ensures (k bytes) P) :
    Ensures (Machine.withBytes b n s k) P := by
  obtain ⟨vs, hv, hl, -⟩ | ⟨j, hj, -⟩ := bufReadAll_cases s.mem b n
  · rw [withBytes_ok _ _ _ _ _ hv]
    exact h vs hv hl
  · simp only [Machine.withBytes, hj]
    exact .fault

theorem Ensures.burstRead {a : Byte} {n : Nat} {s : State} {k : List Byte → State → Result} {P : State → Prop}
    (h0 : n = 0 → Ensures (k [] s) P)
    (h : n ≠ 0 → s.rdy = true → ∀ bytes, bytes.length = n → Ensures (k bytes
      (s.exchange (hdrByte a true true :: List.replicate n Config.DUMMY))) P)
    (h' : n ≠ 0 → s.rdy = false → P s.hold) : Ensures (Machine.burstRead a n s k) P := by
  unfold Machine.burstRead
  exact .ite h0 (fun hn => .txn (fun hr => h hn hr _ (by simp)) (h' hn))

theorem Ensures.burstWrite {a : Byte} {bytes : List Byte} {s : State} {k : State → Result} {P : State → Prop}
    (h0 : bytes = [] → Ensures (k s) P)
    (h : bytes ≠ [] → s.rdy = true → Ensures (k (s.exchange (hdrByte a false true :: bytes))) P)
    (h' : bytes ≠ [] → s.rdy = false → P s.hold) : Ensures (Machine.burstWrite a bytes s k) P := by
  unfold Machine.burstWrite
  exact .ite h0 (fun hn => .txn (fun hr => h hn hr) (h' hn))

theorem Ensures.enterStrobe {c : Byte} {at' : EnterPlace → Pos} {s : State} {P : State → Prop}
    (h : s.rdy = true → P (((s.exchange [hdrByte c false false]).setStuck 0).goto (at' (.poll none))))
    (h' : s.rdy = false → P s.hold) : Ensures (Machine.enterStrobe c at' s) P :=
  .strobe (fun hr => .next (h hr)) h'

theorem Ensures.forceIdle {p : IdlePlace} {at' : IdlePlace → Pos} {s : State} {k : State → Result}
    {P : State → Prop} (hk : s.rdy = true → (∃ v, p = .poll v) → ∀ out, out ≠ [] → Ensures (k (s.exchange out)) P)
    (hp : s.rdy = true → ∀ out v, out ≠ [] → P ((s.exchange out).goto (at' (.poll v))))
    (h' : s.rdy = false → P s.hold) : Ensures (Machine.forceIdle p at' s k) P := by
  unfold Machine.forceIdle
  split
  · exact Ensures.strobe (fun hr => Ensures.next (hp hr _ _ (List.cons_ne_nil _ _))) h'
  · refine Ensures.runState (fun hr => ?_) (fun hr _ => hp hr _ _ (List.cons_ne_nil _ _)) h'
    exact .ite (fun _ => hk hr ⟨_, rfl⟩ _ (List.cons_ne_nil _ _)) (fun _ => .next (hp hr _ _ (List.cons_ne_nil _ _)))

/-- What one step inside EnterTx can do: complete the wait, move on without counting, begin to poll with the count at 0, or
count a poll. -/
theorem Ensures.enterTx {p : EnterPlace} {at' : EnterPlace → Pos} {s : State} {k : State → Result}
    {P : State → Prop}
    (hk : s.rdy = true → ∀ v out, p = .poll v → out ≠ [] → Ensures (k (s.exchange out)) P)
    (hm : s.rdy = true → ∀ q out, out ≠ [] → p ≠ .stuckStrobe → q ≠ .idle .strobe → q ≠ .stuckFlush →
      (q = .stuckStrobe ↔ p = .stuckFlush) → P ((s.exchange out).goto (at' q)))
    (h0 : s.rdy = true → ∀ out, out ≠ [] → P (((s.exchange out).setStuck 0).goto (at' (.poll none))))
    (hc : s.rdy = true → ∀ v out, p = .poll v → out ≠ [] → P (stuckStep at' (s.exchange out)))
    (h' : s.rdy = false → P s.hold) : Ensures (Machine.enterTx p at' s k) P := by
  unfold Machine.enterTx
  split
  · refine Ensures.forceIdle (fun hr _ out ho => .next ?_) (fun hr out v ho => ?_) h'
    · exact hm hr _ _ ho (by simp) (by simp) (by simp) (by simp)
    · exact hm hr _ _ ho (by simp) (by simp) (by simp) (by simp)
  · exact Ensures.enterStrobe (fun hr => h0 hr _ (List.cons_ne_nil _ _)) h'
  · refine Ensures.runState (fun hr => ?_) (fun hr v => ?_) h'
    · exact .ite (fun _ => hk hr _ _ rfl (List.cons_ne_nil _ _))
        (fun _ => .next (hc hr _ _ rfl (List.cons_ne_nil _ _)))
    · exact hm hr _ _ (List.cons_ne_nil _ _) (by simp) (by simp) (by simp) (by simp)
  · exact Ensures.strobe
      (fun hr => .next (hm hr _ _ (List.cons_ne_nil _ _) (by simp) (by simp) (by simp) (by simp))) h'
  · exact Ensures.enterStrobe (fun hr => h0 hr _ (List.cons_ne_nil _ _)) h'

/-- The same for EnterRx, which can also go to the overflow flush. -/
theorem Ensures.enterRx {p : EnterPlace} {at' : EnterPlace → Pos} {o : Pos} {s : State} {k : State → Result}
    {P : State → Prop}
    (hk : s.rdy = true → ∀ v out, p = .poll v → out ≠ [] → Ensures (k (s.exchange out)) P)
    (hm : s.rdy = true → ∀ q out, out ≠ [] → p ≠ .stuckStrobe → q ≠ .idle .strobe → q ≠ .stuckFlush →
      (q = .stuckStrobe ↔ p = .stuckFlush) → P ((s.exchange out).goto (at' q)))
    (h0 : s.rdy = true → ∀ out, out ≠ [] → P (((s.exchange out).setStuck 0).goto (at' (.poll none))))
    (hc : s.rdy = true → ∀ v out, p = .poll v → out ≠ [] → P (stuckStep at' (s.exchange out)))
    (ho : s.rdy = true → ∀ v out, p = .poll v → out ≠ [] → P ((s.exchange out).goto o))
    (h' : s.rdy = false → P s.hold) : Ensures (Machine.enterRx p at' o s k) P := by
  unfold Machine.enterRx
  split
  · refine Ensures.forceIdle (fun hr _ out ho => .next ?_) (fun hr out v ho => ?_) h'
    · exact hm hr _ _ ho (by simp) (by simp) (by simp) (by simp)
    · exact hm hr _ _ ho (by simp) (by simp) (by simp) (by simp)
  · exact Ensures.enterStrobe (fun hr => h0 hr _ (List.cons_ne_nil _ _)) h'
  · refine Ensures.runState (fun hr => ?_) (fun hr v => ?_) h'
    · exact .ite (fun _ => hk hr _ _ rfl (List.cons_ne_nil _ _))
        (fun _ => .ite (fun _ => .next (ho hr _ _ rfl (List.cons_ne_nil _ _)))
          (fun _ => .next (hc hr _ _ rfl (List.cons_ne_nil _ _))))
    · exact hm hr _ _ (List.cons_ne_nil _ _) (by simp) (by simp) (by simp) (by simp)
  · exact Ensures.strobe
      (fun hr => .next (hm hr _ _ (List.cons_ne_nil _ _) (by simp) (by simp) (by simp) (by simp))) h'
  · exact Ensures.enterStrobe (fun hr => h0 hr _ (List.cons_ne_nil _ _)) h'

end Sys2Proof.Machine
end

