-- ==== Sys2Proof/Laws/Operands.lean ====
section
/-! SUPPORT. The operand forms on numbers: address classes, header bytes, burst plans and their errors, host words (spec/40_register_arbiter.md R103, R117, spec/41_fifo_burst.md R140 to R142, spec/20_memory.md R62). -/

namespace Sys2Proof.Machine

/-! Addresses and header bytes. -/

theorem rdAddrOK_eq (a : Byte) : rdAddrOK a = (decide (a.toNat < 0x40) && a != 0x2F#8) := by
  revert a; decide

theorem wrAddrOK_eq (a : Byte) : wrAddrOK a = (decide (a.toNat ≤ 0x2E) || a == 0x3E#8 || a == 0x3F#8) := by
  revert a; decide

theorem isStatAddr_eq (a : Byte) : isStatAddr a = (decide (0x30 ≤ a.toNat ∧ a.toNat ≤ 0x3D)) := by
  revert a; decide

theorem addrClass_cases (a : Byte) :
    (addrClass a = .cfg ∧ a.toNat ≤ 0x2E) ∨ (addrClass a =
      .stat ∧ 0x30 ≤ a.toNat ∧ a.toNat ≤ 0x3D) ∨ (addrClass a = .pa ∧ a.toNat = 0x3E) ∨
  (addrClass a = .fifo ∧ a.toNat = 0x3F) ∨ (addrClass a = .none ∧ (a.toNat = 0x2F ∨ 0x40 ≤ a.toNat)) := by revert a; decide

theorem addrClass_cfg (a : Byte) (h : a.toNat ≤ 0x2E) :
    addrClass a = .cfg ∧ hdrByte a true true = 0xC0#8 ||| a ∧ hdrByte a false true = 0x40#8 ||| a := by
  revert h; revert a; decide

theorem hdrByte_write (a : Byte) (h : a.toNat < 64) : hdrByte a false false = a := by
  revert h; revert a; decide

theorem hdrByte_read (a : Byte) (h : a.toNat < 64) :
    hdrByte a true (isStatAddr a) = (if 0x30 ≤ a.toNat ∧ a.toNat ≤ 0x3D then 0xC0#8 else 0x80#8) ||| a := by
  revert h; revert a; decide

theorem rangeError_rreg (a : Byte) : rangeError (.rreg a) = !rdAddrOK a := by revert a; decide

theorem rangeError_wreg (a d : Byte) :
    rangeError (.wreg a d) = !wrAddrOK a := by simp only [rangeError]; revert a; decide

theorem rangeError_strobe (a : Byte) : rangeError (.strobe a) = !isStatAddr a := by revert a; decide

/-! Burst plans. -/

theorem cfgLast_toNat : Config.CFG_LAST.toNat = 0x2E := rfl

/-- The operands a burst read accepts, its count and its header. -/
theorem readPlan_ok (a : Byte) (l n : Nat) (h : (a.toNat ≤ 0x2E ∧ (l = 0 ∨ a.toNat + l - 1 ≤ 0x2E) ∧ n = l) ∨ (a = 0x3E#8 ∧ n = min l 8) ∨
      (a = 0x3F#8 ∧ l ≤ 60 ∧ n = l)) : readPlan a l = .ok n ∧ hdrByte a true true = 0xC0#8 ||| a ∧ n ≤ 60:= by
  rcases h with ⟨h1, h2, rfl⟩ | ⟨rfl, rfl⟩ | ⟨rfl, h, rfl⟩
  · obtain ⟨e1, e2, -⟩ := addrClass_cfg a h1
    have hp : pastCfgLast a n = false := by
      simp only [pastCfgLast, cfgLast_toNat, decide_eq_false_iff_not]; omega
    have : ¬ Config.RXBUF_SIZE < n := by simp only [Config.RXBUF_SIZE]; omega
    exact ⟨by simp only [readPlan, e1, hp, this, if_false]; rfl, e2, by omega⟩
  · refine ⟨?_, by decide, by omega⟩
    have e : addrClass 0x3E#8 = .pa := by decide
    have : ¬ Config.RXBUF_SIZE < min l 8 := by simp only [Config.RXBUF_SIZE]; omega
    simp only [readPlan, e, this, if_false]
  · refine ⟨?_, by decide, by omega⟩
    have e : addrClass 0x3F#8 = .fifo := by decide
    have : ¬ Config.RXBUF_SIZE < n := by simp only [Config.RXBUF_SIZE]; omega
    simp only [readPlan, e, this, if_false]

/-- A burst read's plan agrees with the checks of R303. -/
theorem readPlan_cases (a : Byte) (l : Nat) : (readPlan a l = .error .range ∧ rangeError (.brd a l) = true) ∨
   (readPlan a l = .error .len ∧ rangeError (.brd a l) = false ∧ lengthError (.brd a l) = true) ∨
   (∃ n, readPlan a l = .ok n ∧ rangeError (.brd a l) = false ∧ lengthError (.brd a l) = false ∧ (n = 0 ↔ l = 0) ∧ n ≤ 60) := by
  rcases addrClass_cases a with ⟨e, h⟩ | ⟨e, h⟩ | ⟨e, h⟩ | ⟨e, h⟩ | ⟨e, h⟩
  · by_cases hp : 1 ≤ l ∧ 46 < a.toNat + l - 1
    · left; exact ⟨by simp [readPlan, e, pastCfgLast, hp], by simp [rangeError, hp, h]⟩
    · right; right
      have : ¬ Config.RXBUF_SIZE < l := by simp only [Config.RXBUF_SIZE]; omega
      refine ⟨l, by simp only [readPlan, e, pastCfgLast, cfgLast_toNat, hp, this]; rfl, ?_, ?_, Iff.rfl, by omega⟩
      · simp only [rangeError, h]; simp; omega
      · simp [lengthError]; omega
  · left; exact ⟨by simp [readPlan, e], by simp [rangeError]; omega⟩
  · right; right
    have : ¬ Config.RXBUF_SIZE < min l 8 := by simp only [Config.RXBUF_SIZE]; omega
    refine ⟨min l 8, by simp only [readPlan, e, this]; rfl, ?_, ?_, by omega, by omega⟩
    · simp [rangeError, h]
    · simp [lengthError, h]
  · by_cases hl : 60 < l
    · right; left
      exact ⟨by simp [readPlan, e, hl], by simp [rangeError, h], by simp [lengthError, h, hl]⟩
    · right; right
      exact ⟨l, by simp [readPlan, e, hl], by simp [rangeError, h], by simp [lengthError, h, hl], Iff.rfl, by omega⟩
  · left; exact ⟨by simp [readPlan, e], by simp [rangeError]; omega⟩

/-- The operands a burst write accepts, its header and its warnings. -/
theorem writePlan_ok (a : Byte) (l : Nat) (h : a.toNat ≤ 0x2E ∨ a = 0x3E#8 ∨ a = 0x3F#8) (hl : l ≤ 60) (t : Status) :
   writePlan a l = .ok (writeWarning a l) ∧ hdrByte a false true = 0x40#8 ||| a ∧ 
   t.warned (writeWarning a l) = { t with 
                 warnCfg := t.warnCfg || (decide (a.toNat ≤ 0x2E) && decide (1 ≤ l) && decide (0x2E < a.toNat + l - 1)),
                 warnPa := t.warnPa || (a == 0x3E#8 && decide (8 < l))} := by
  have hl' : ¬ Config.TXBUF_SIZE < l := by simp only [Config.TXBUF_SIZE]; omega
  rcases h with h1 | rfl | rfl
  · obtain ⟨e1, -, e2⟩ := addrClass_cfg a h1
    have hne : (a == 0x3E#8) = false := by rw [beq_eq_false_iff_ne]; rintro rfl; simp at h1
    refine ⟨by simp only [writePlan, e1, hl', if_false], e2, ?_⟩
    simp only [writeWarning, e1, hne, pastCfgLast, cfgLast_toNat]
    by_cases hq : 1 ≤ l ∧ 46 < a.toNat + l - 1
    · simp [hq, Status.warned, h1]
    · rcases Decidable.not_and_iff_not_or_not.mp hq with h | h <;> simp [h, Status.warned]
  · have e : addrClass 0x3E#8 = .pa := by decide
    refine ⟨by simp only [writePlan, e, hl', if_false], by decide, ?_⟩
    simp only [writeWarning, e]
    by_cases hq : 8 < l
    · simp [Config.PA_MAX, hq, Status.warned]
    · simp [Config.PA_MAX, hq, Status.warned]
  · have e : addrClass 0x3F#8 = .fifo := by decide
    refine ⟨by simp only [writePlan, e, hl', if_false], by decide, ?_⟩
    simp [writeWarning, e, Status.warned]

/-- A burst write's plan agrees with the checks of R303. -/
theorem writePlan_cases (a : Byte) (l : Nat) : (writePlan a l = .error .range ∧ rangeError (.bwr a l) = true) ∨
   (writePlan a l = .error .len ∧ rangeError (.bwr a l) = false ∧ lengthError (.bwr a l) = true) ∨
   (∃ w, writePlan a l = .ok w ∧ rangeError (.bwr a l) = false ∧ lengthError (.bwr a l) = false ∧ l ≤ 60) := by
  by_cases hl : 60 < l <;> rcases addrClass_cases a with ⟨e, h⟩ | ⟨e, h⟩ | ⟨e, h⟩ | ⟨e, h⟩ | ⟨e, h⟩ <;>
    first
    | (have hh : (48 ≤ a.toNat ∧ a.toNat ≤ 61) ∨ (a.toNat = 0x2F ∨ 0x40 ≤ a.toNat) := by omega
       left; exact ⟨by simp [writePlan, e], by simp [rangeError]; omega⟩)
    | (have hh : 60 < l := hl; right; left; exact ⟨by simp [writePlan, e, hl], by simp [rangeError, h]; try omega, by simp [lengthError, hl]⟩)
    | (right; right; exact ⟨writeWarning a l, by simp [writePlan, e, hl], by simp [rangeError, h]; try omega, by simp [lengthError, hl], by omega⟩)

/-! Host words. -/

theorem getLsbD_append_eq {n m : Nat} (x : BitVec n) (y : BitVec m) (i : Nat) :
     (BitVec.append x y).getLsbD i = if i < m then y.getLsbD i else x.getLsbD (i - m) := by
  rw [BitVec.append_eq, BitVec.getLsbD_append]

theorem wordOfBytes_getLsbD (b0 b1 b2 b3 : Byte) (i : Nat) : (wordOfBytes b0 b1 b2 b3).getLsbD i =
   if i < 8 then b0.getLsbD i else if i < 16 then b1.getLsbD (i-8) else if i < 24 then b2.getLsbD (i - 16) else b3.getLsbD (i-24) := by
  simp only [wordOfBytes, ← BitVec.append_eq]
  repeat rw [getLsbD_append_eq]
  have e1 : i - 8 - 8 = i - 16 := by omega
  have e2 : i - 16 - 8 = i - 24 := by omega
  rw [e1, e2]
  split_ifs <;> first | rfl | omega

/-- A word is the four bytes it is read from. -/
theorem wordOfBytes_eq (v : Word) (b0 b1 b2 b3 : Byte) (h0 : v.extractLsb' 0 8 = b0) (h1 : v.extractLsb' 8 8 = b1)
   (h2 : v.extractLsb' 16 8 = b2) (h3 : v.extractLsb' 24 8 = b3) : wordOfBytes b0 b1 b2 b3 = v := by
  subst h0 h1 h2 h3
  apply BitVec.eq_of_getLsbD_eq
  intro i hi
  simp only [wordOfBytes_getLsbD, BitVec.getLsbD_extractLsb']
  split_ifs with h1 h2 h3
  · simp [h1]
  · have : i - 8 < 8 ∧ 8 + (i-8) = i := by omega
    simp [this]
  · have : i - 16 < 8 ∧ 16 + (i-16) = i := by omega
    simp [this]
  · have : i - 24 < 8 ∧ 24 + (i-24) = i := by omega
    simp [this]

end Sys2Proof.Machine
end

