-- ==== Sys2Proof/Laws/HostPort.lean ====
section
/-! SUPPORT. The host port: which addresses are bytes of a buffer, the bytes of a host word, and the whole next state of a host read (spec/20_memory.md R60 to R65, R71). -/

namespace Sys2Proof.Machine

/-- An address is a byte of a buffer, or it lies in none of them. -/
theorem Buf.locate_cases (a : Nat) :
    (∃ b i, Buf.locate a = some (b, i) ∧ a = b.base + i ∧ i < b.size) ∨
    (Buf.locate a = none ∧ ∀ b : Buf, ¬(b.base ≤ a ∧ a < b.base + b.size)) := by
  rcases h : Buf.locate a with _ | ⟨b, i⟩
  · refine .inr ⟨rfl, fun b hb => ?_⟩
    have := Buf.locate_base_add b (a - b.base) (by omega)
    rw [show b.base + (a - b.base) = a by omega, h] at this
    cases this
  · exact .inl ⟨b, i, rfl, Buf.locate_eq_some _ _ _ h⟩

/-- The four bytes of a host word made from bytes. -/
theorem wordOfBytes_extract (b0 b1 b2 b3 : Byte) :
    (wordOfBytes b0 b1 b2 b3).extractLsb' 0 8 = b0 ∧ (wordOfBytes b0 b1 b2 b3).extractLsb' 8 8 = b1 ∧
    (wordOfBytes b0 b1 b2 b3).extractLsb' 16 8 = b2 ∧ (wordOfBytes b0 b1 b2 b3).extractLsb' 24 8 = b3 := by
  refine ⟨?_, ?_, ?_, ?_⟩ <;> apply BitVec.eq_of_getLsbD_eq <;> intro j hj <;>
    simp only [BitVec.getLsbD_extractLsb', wordOfBytes_getLsbD] <;> interval_cases j <;> simp

/-- A recorded violation, as one equation. -/
theorem State.violateIf_eq (s : State) (bad : Bool) :
    s.violateIf bad = { s with status := { s.status with hviol := s.status.hviol || bad } } := by
  cases bad <;> simp [State.violateIf, State.violate]

/-- An 8-bit read is legal exactly at a byte of a buffer. -/
theorem State.peek8_isNone (s : State) (a : HostAddr) : (s.peek8 a).isNone = (Buf.locate a.toNat).isNone := by
  unfold State.peek8
  cases Buf.locate a.toNat <;> rfl

/-- A legal 8-bit read while BUSY = 0. -/
theorem State.hostRead8_legal (s : State) (a : HostAddr) (v : Byte) (hb : s.status.busy = false)
    (h : s.peek8 a = some v) :
    s.hostRead8 a = { s with drawCount := s.drawCount + 1, trace := .read8 a v :: s.trace } := by
  simp [State.hostRead8, hb, h, State.violateIf]

/-- A legal 32-bit read while BUSY = 0. -/
theorem State.hostRead32_legal (s : State) (a : HostAddr) (v : Word) (hb : s.status.busy = false)
    (h : s.peek32 a = some v) :
    s.hostRead32 a = { s with drawCount := s.drawCount + 1, trace := .read32 a v :: s.trace } := by
  simp [State.hostRead32, hb, h, State.violateIf]

/-- A register read is legal at every aligned offset of the register window. -/
theorem State.peek32_register (s : State) (a : HostAddr) (h4 : a.toNat % 4 = 0) (h : a.toNat < 0x100) :
    s.peek32 a = some (s.regWord a.toNat) := by
  simp [State.peek32, h4, h]

end Sys2Proof.Machine
end

