-- ==== Sys2Proof/Laws/Meanings.lean ====
section
/-! SUPPORT. What each meaning with more than one position does at each of them, one equation per position, so that no later proof unfolds the match on positions. -/

namespace Sys2Proof.Machine

/-! INIT. -/

theorem execInit_start (s : State) (h : s.pos = .start) :
    execInit s = strobe Config.S_SRES s (fun _ s => .next (s.goto (.initPart none))) := by
  simp only [execInit, h]

theorem execInit_part (s : State) (v1 : Option Byte) (h : s.pos = .initPart v1) :
    execInit s = regRead Config.ADDR_PARTNUM v1 .initPart s (fun part s => .next (s.goto (.initVersion part none))) := by
  simp only [execInit, h]

theorem execInit_version (s : State) (part : Byte) (v1 : Option Byte) (h : s.pos = .initVersion part v1) :
    execInit s = regRead Config.ADDR_VERSION v1 (.initVersion part) s (initIdentify part) := by
  simp only [execInit, h]

theorem execInit_flushRx (s : State) (h : s.pos = .initFlushRx) :
    execInit s = strobe Config.S_SFRX s (fun _ s => .next (s.goto .initFlushTx)) := by
  simp only [execInit, h]

theorem execInit_flushTx (s : State) (h : s.pos = .initFlushTx) :
    execInit s = strobe Config.S_SFTX s
      (fun _ s => .next (State.complete { s with status := { s.status with chipOk := true } })) := by
  simp only [execInit, h]

/-- INIT's positions; any other position acts as the beginning. -/
theorem execInit_cases (s : State) :
    (∃ v1, s.pos = .initPart v1) ∨ (∃ part v1, s.pos = .initVersion part v1) ∨ s.pos = .initFlushRx ∨
    s.pos = .initFlushTx ∨ execInit s = strobe Config.S_SRES s (fun _ s => .next (s.goto (.initPart none))) := by
  unfold execInit
  cases s.pos <;> simp

/-! RREG and RSSI. -/

theorem execRreg_start (a : Byte) (s : State) (h : s.pos = .start) :
    execRreg a s
      = gated s (if rdAddrOK a then regRead a none .rregRead s rregStore else .next (s.raiseErr .range)) := by
  simp only [execRreg, h]

theorem execRreg_read (a : Byte) (s : State) (v1 : Option Byte) (h : s.pos = .rregRead v1) :
    execRreg a s = regRead a v1 .rregRead s rregStore := by
  simp only [execRreg, h]

theorem execRssi_start (s : State) (h : s.pos = .start) :
    execRssi s
      = gated s (regRead Config.ADDR_RSSI none .rssiRead s (fun raw s => .next (s.goto (.rssiConvert raw)))) := by
  simp only [execRssi, h]

theorem execRssi_convert (s : State) (raw : Byte) (h : s.pos = .rssiConvert raw) :
    execRssi s = .next (State.complete { s with rssiDbm := BitVec.ofInt 16 (rssiToDbm raw) }) := by
  simp only [execRssi, h]

/-! SEND. -/

theorem execSend_start (l : Nat) (s : State) (h : s.pos = .start) :
    execSend l s
      = gated s (if Config.TXBUF_SIZE < l then .next (s.raiseErr .len)
        else withBytes .txbuf l s (fun bytes =>
          strobe Config.S_SFTX s (fun _ s => .next (s.goto (.sendEnter bytes (.idle .strobe)))))) := by
  simp only [execSend, h]

theorem execSend_enter (l : Nat) (s : State) (bytes : List Byte) (p : EnterPlace) (h : s.pos = .sendEnter bytes p) :
    execSend l s = enterTx p (.sendEnter bytes) s (fun s => .next (s.goto (sendAfterEnter bytes))) := by
  simp only [execSend, h]

theorem execSend_burst (l : Nat) (s : State) (bytes : List Byte) (h : s.pos = .sendBurst bytes) :
    execSend l s = burstWrite Config.FIFO_ADDR bytes s (fun s => .next (s.goto (.sendPoll none))) := by
  simp only [execSend, h]

theorem execSend_poll (l : Nat) (s : State) (v1 : Option Byte) (h : s.pos = .sendPoll v1) :
    execSend l s = runState v1 .sendPoll s (fun st s =>
      if st = Config.MARC_IDLE ∨ st = Config.MARC_TXUNF then .next s.complete else .next (s.goto (.sendPoll none))) := by
  simp only [execSend, h]

/-! RECV. -/

theorem execRecv_start (l : Nat) (s : State) (h : s.pos = .start) :
    execRecv l s
      = gated s (if Config.RXBUF_SIZE < l then .next (s.raiseErr .len)
        else regRead Config.ADDR_RXBYTES none .recvCount s (recvCounted l)) := by
  simp only [execRecv, h]

theorem execRecv_count (l : Nat) (s : State) (v1 : Option Byte) (h : s.pos = .recvCount v1) :
    execRecv l s = regRead Config.ADDR_RXBYTES v1 .recvCount s (recvCounted l) := by
  simp only [execRecv, h]

theorem execRecv_burst (l : Nat) (s : State) (n : Nat) (h : s.pos = .recvBurst n) :
    execRecv l s = burstRead Config.FIFO_ADDR n s (storeReceived n) := by
  simp only [execRecv, h]

/-! IDLE, RXON and TXON. -/

theorem execIdle_start (s : State) (h : s.pos = .start) :
    execIdle s = gated s (forceIdle .strobe .idleWait s (fun s => .next s.complete)) := by
  simp only [execIdle, h]

theorem execIdle_wait (s : State) (p : IdlePlace) (h : s.pos = .idleWait p) :
    execIdle s = forceIdle p .idleWait s (fun s => .next s.complete) := by
  simp only [execIdle, h]

theorem execRxon_start (s : State) (h : s.pos = .start) :
    execRxon s = gated s (enterRx (.idle .strobe) .rxonWait .rxonOverflow s (fun s => .next s.complete)) := by
  simp only [execRxon, h]

theorem execRxon_wait (s : State) (p : EnterPlace) (h : s.pos = .rxonWait p) :
    execRxon s = enterRx p .rxonWait .rxonOverflow s (fun s => .next s.complete) := by
  simp only [execRxon, h]

theorem execRxon_overflow (s : State) (h : s.pos = .rxonOverflow) : execRxon s = overflowFlush .rxonWait s := by
  simp only [execRxon, h]

theorem execTxon_start (s : State) (h : s.pos = .start) :
    execTxon s = gated s (enterTx (.idle .strobe) .txonWait s (fun s => .next s.complete)) := by
  simp only [execTxon, h]

theorem execTxon_wait (s : State) (p : EnterPlace) (h : s.pos = .txonWait p) :
    execTxon s = enterTx p .txonWait s (fun s => .next s.complete) := by
  simp only [execTxon, h]

end Sys2Proof.Machine
end

