-- ==== Sys2Proof/Laws/PerInstr.lean ====
section
/-! SUPPORT. The family TableRow: the word of every command, whatever its operands, matches its own row of the opcode map (spec/30_encoding.md R85). -/

namespace Sys2Proof.Laws

/-- The word of the command meets its row's mask and match columns. -/
def TableRow.Statement (i : Instr) : Prop := encode i &&& i.mask = i.matchWord

/-- It is enough that each field is zero or outside the row's mask. -/
theorem TableRow.of_fields (i : Instr) (ha : i.fieldA = 0#8 ∨ aField i.mask = 0#8)
    (hl : i.fieldL = 0#8 ∨ lField i.mask = 0#8) (hd : i.fieldD = 0#8 ∨ dField i.mask = 0#8) :
    TableRow.Statement i := by
  rw [TableRow.Statement, mask_iff, encode, opField_commandWord, aField_commandWord, lField_commandWord,
    dField_commandWord]
  exact ⟨rfl, and_eq_zero_of ha, and_eq_zero_of hl, and_eq_zero_of hd⟩

theorem TableRow.nop : TableRow.Statement .nop :=
  TableRow.of_fields _ (.inl rfl) (.inl rfl) (.inl rfl)
theorem TableRow.init : TableRow.Statement .init :=
  TableRow.of_fields _ (.inl rfl) (.inl rfl) (.inl rfl)
theorem TableRow.rreg (a : Byte) : TableRow.Statement (.rreg a) :=
  TableRow.of_fields _ (.inr (by simp only [Instr.mask]; decide)) (.inl rfl) (.inl rfl)
theorem TableRow.wreg (a d : Byte) : TableRow.Statement (.wreg a d) :=
  TableRow.of_fields _ (.inr (by simp only [Instr.mask]; decide)) (.inl rfl) (.inr (by simp only [Instr.mask]; decide))
theorem TableRow.strobe (c : Byte) : TableRow.Statement (.strobe c) :=
  TableRow.of_fields _ (.inr (by simp only [Instr.mask]; decide)) (.inl rfl) (.inl rfl)
theorem TableRow.rssi : TableRow.Statement .rssi :=
  TableRow.of_fields _ (.inl rfl) (.inl rfl) (.inl rfl)
theorem TableRow.brd (a : Byte) (l : Nat) : TableRow.Statement (.brd a l) :=
  TableRow.of_fields _ (.inr (by simp only [Instr.mask]; decide)) (.inr (by simp only [Instr.mask]; decide)) (.inl rfl)
theorem TableRow.bwr (a : Byte) (l : Nat) : TableRow.Statement (.bwr a l) :=
  TableRow.of_fields _ (.inr (by simp only [Instr.mask]; decide)) (.inr (by simp only [Instr.mask]; decide)) (.inl rfl)
theorem TableRow.send (l : Nat) : TableRow.Statement (.send l) :=
  TableRow.of_fields _ (.inl rfl) (.inr (by simp only [Instr.mask]; decide)) (.inl rfl)
theorem TableRow.recv (l : Nat) : TableRow.Statement (.recv l) :=
  TableRow.of_fields _ (.inl rfl) (.inr (by simp only [Instr.mask]; decide)) (.inl rfl)
theorem TableRow.idle : TableRow.Statement .idle :=
  TableRow.of_fields _ (.inl rfl) (.inl rfl) (.inl rfl)
theorem TableRow.rxon : TableRow.Statement .rxon :=
  TableRow.of_fields _ (.inl rfl) (.inl rfl) (.inl rfl)
theorem TableRow.txon : TableRow.Statement .txon :=
  TableRow.of_fields _ (.inl rfl) (.inl rfl) (.inl rfl)
theorem TableRow.decode (l : Nat) : TableRow.Statement (.decode l) :=
  TableRow.of_fields _ (.inl rfl) (.inr (by simp only [Instr.mask]; decide)) (.inl rfl)
theorem TableRow.encode (l : Nat) : TableRow.Statement (.encode l) :=
  TableRow.of_fields _ (.inl rfl) (.inr (by simp only [Instr.mask]; decide)) (.inl rfl)
theorem TableRow.cksum (l : Nat) : TableRow.Statement (.cksum l) :=
  TableRow.of_fields _ (.inl rfl) (.inr (by simp only [Instr.mask]; decide)) (.inl rfl)
theorem TableRow.compose (l : Nat) : TableRow.Statement (.compose l) :=
  TableRow.of_fields _ (.inl rfl) (.inr (by simp only [Instr.mask]; decide)) (.inl rfl)
theorem TableRow.irqack : TableRow.Statement .irqack :=
  TableRow.of_fields _ (.inl rfl) (.inl rfl) (.inl rfl)

end Sys2Proof.Laws
end

