-- ==== Sys2Proof/Laws/Start.lean ====
section
/-! SUPPORT. What a command that passes its checks does at its start, when an operation goes on, when it is held, and bytes stored in a buffer. -/

namespace Sys2Proof.Machine

/-! The start of a command. -/

theorem execs_one {i s t n} (h : exec i s = .next t) : execs i (n+1) s = execs i n t := by
  simp [execs, h]

/-- What passing the checks means. -/
theorem firstError_none (i s) (h : firstError i s = none) :
    (usesBus i = true → s.status.chipOk = true) ∧ rangeError i = false ∧ lengthError i =
      false ∧ (needsOwnAddr i = true → s.status.addrSet = true) := by
  unfold firstError at h
  split_ifs at h with h1 h2 h3 h4
  refine ⟨?_, by simpa using h2, by simpa using h3, ?_⟩
  · intro h; simpa [h] using h1
  · intro h; simpa [h] using h4

/-- The first step of a command whose checks pass. -/
def startOk (i : Instr) (s : State) : Result :=
  match i with
  | .nop => execNop s
  | .init => strobe Config.S_SRES s (fun _ s => .next (s.goto (.initPart none)))
  | .rreg a => regRead a none .rregRead s rregStore
  | .wreg a d => regWrite a d s (fun s => .next s.complete)
  | .strobe c => strobe c s (fun v s => .next (State.complete { s with rdata := v }))
  | .rssi => regRead Config.ADDR_RSSI none .rssiRead s (fun raw s => .next (s.goto (.rssiConvert raw)))
  | .brd a l => match readPlan a l with | .ok n => burstRead a n s (storeReceived n) | _ => .next s
  | .bwr a l => match writePlan a l with | .ok w => withBytes .txbuf l s (fun bytes => burstWrite a bytes (s.warn w) (fun s => .next s.complete)) | _ => .next s
  | .send l => withBytes .txbuf l s (fun bytes =>
          strobe Config.S_SFTX s (fun _ s => .next (s.goto (.sendEnter bytes (.idle .strobe)))))
  | .recv l => regRead Config.ADDR_RXBYTES none .recvCount s (recvCounted l)
  | .idle => (forceIdle .strobe .idleWait s (fun s => .next s.complete))
  | .rxon => (enterRx (.idle .strobe) .rxonWait .rxonOverflow s (fun s => .next s.complete))
  | .txon => (enterTx (.idle .strobe) .txonWait s (fun s => .next s.complete))
  | .decode l => withBytes .rxbuf l s (fun frame => .next (decodeStore (codecDecode frame) s).complete)
  | .encode l => withBytes .cmdbuf l s (fun c =>
    .next (State.complete
      { s with mem := bufWriteAll s.mem .txbuf (codecEncode c),
               lens := { s.lens with txlen := countByte Config.FRAME_LEN } }))
  | .cksum l => withBytes .cmdbuf l s (fun bytes =>
    .next (State.complete
      { s with mem := bufWrite s.mem .cmdbuf l (cks bytes),
               lens := { s.lens with cmdlen := countByte (l + 1) } }))
  | .compose l => withBytes .cmdbuf l s (fun body =>
    .next (State.complete
      { s with mem := bufWrite (bufWriteAll s.mem .cmdbuf (frameHead s.ownAddr s.rollCnt body)) .cmdbuf (l + 5) (cks (frameHead s.ownAddr s.rollCnt body)),
               rollCnt := s.rollCnt + 1,
               lens := { s.lens with cmdlen := countByte (l + 6) } }))
  | .irqack => execIrqack s

/-- A command that passes its checks begins as `startOk` says. -/
theorem exec_start (i s) (hp : s.pos = .start) (h : firstError i s = none) : exec i s = startOk i s := by
  obtain ⟨h1, h2, h3, h4⟩ := firstError_none i s h
  cases i <;> simp only [exec, startOk]
  case init => exact execInit_start _ hp
  case rreg a => rw [rangeError_rreg] at h2; rw [execRreg_start _ _ hp, gated_open _ _ (h1 rfl), if_pos (by simpa using h2)]
  case wreg a d => rw [rangeError_wreg] at h2; rw [execWreg, gated_open _ _ (h1 rfl), if_pos (by simpa using h2)]
  case strobe c => rw [rangeError_strobe] at h2; rw [execStrobe, gated_open _ _ (h1 rfl), if_pos (by simpa using h2)]
  case rssi => rw [execRssi_start _ hp, gated_open _ _ (h1 rfl)]
  case brd a l =>
    rw [execBrd, gated_open _ _ (h1 rfl)]
    rcases readPlan_cases a l with ⟨h5, h6⟩ | ⟨h5, h6, h7⟩ | ⟨n, h5, h6, h7, -⟩
    · rw [h2] at h6; cases h6
    · rw [h3] at h7; cases h7
    · rw [h5]
  case bwr a l =>
    rw [execBwr, gated_open _ _ (h1 rfl)]
    rcases writePlan_cases a l with ⟨h5, h6⟩ | ⟨h5, h6, h7⟩ | ⟨n, h5, h6, h7, -⟩
    · rw [h2] at h6; cases h6
    · rw [h3] at h7; cases h7
    · rw [h5]
  case send l => rw [execSend_start _ _ hp, gated_open _ _ (h1 rfl), if_neg (by simpa [lengthError] using h3)]
  case recv l => rw [execRecv_start _ _ hp, gated_open _ _ (h1 rfl), if_neg (by simpa [lengthError] using h3)]
  case idle => rw [execIdle_start _ hp, gated_open _ _ (h1 rfl)]
  case rxon => rw [execRxon_start _ hp, gated_open _ _ (h1 rfl)]
  case txon => rw [execTxon_start _ hp, gated_open _ _ (h1 rfl)]
  case decode l => rw [execDecode, if_neg (by simpa [lengthError] using h3)]
  case encode l => rw [execEncode, if_neg (by simpa [lengthError] using h3)]
  case cksum l => rw [execCksum, if_neg (by simpa [lengthError] using h3)]
  case compose l => rw [execCompose, if_neg (by simpa [lengthError] using h3), if_neg (by simp [h4 rfl])]

/-- A transaction at the start means that every check has passed. -/
theorem atBus_start {i : Instr} {s : State} (hp : s.pos = .start) (h : atBus i s = true) :
    firstError i s = none ∧ inputsDefined i s = true := by
  unfold atBus at h
  rw [hp] at h
  simp only [Bool.and_eq_true] at h
  exact ⟨by simpa using h.1.1, h.1.2⟩

/-! Bytes of a buffer. -/

theorem storedAt_bufWriteAll (m b vs) : storedAt m (bufWriteAll m b vs) b vs := by
  refine ⟨fun j h => ?_, fun a h => bufWriteFrom_read_other m b 0 vs a (by omega)⟩
  exact bufWriteFrom_read m b 0 vs j h

theorem bufWriteAll_snoc (m b) (vs : List Byte) (x) :
    bufWrite (bufWriteAll m b vs) b vs.length x = bufWriteAll m b (vs ++ [x]) := by
  have : ∀ (vs : List Byte) m i, bufWrite (bufWriteFrom m b i vs) b (i + vs.length) x = bufWriteFrom m b i (vs ++ [x]) := by
    intro vs
    induction vs with
    | nil => intro m i; rfl
    | cons v vs ih => intro m i; simp only [bufWriteFrom, List.cons_append]; rw [← ih]; simp only [List.length_cons]; rw [show i + (vs.length + 1) = i + 1 + vs.length by omega]
  simpa [bufWriteAll] using this vs m 0

theorem bufReadAll_holds (m b bytes l) (hl : bytes.length = l) (h : holdsBytes m b bytes) :
    bufReadAll m b l = .ok bytes := by
  subst hl; exact bufReadAll_eq m b bytes h

/-- Bytes that are all defined are read. -/
theorem bufReadAll_defined (m b n) (h : (List.range n).all (fun j => (bufRead m b j).isSome) = true) :
    ∃ vs, bufReadAll m b n = .ok vs ∧ vs.length = n := by
  rcases bufReadAll_cases m b n with ⟨vs, h1, h2, -⟩ | ⟨j, -, h2, h3, -⟩
  · exact ⟨vs, h1, h2⟩
  · simp only [List.all_eq_true, List.mem_range] at h
    have := h j h2
    rw [h3] at this; cases this

/-- The first undefined byte is the one reported. -/
theorem withBytes_undef {b n s} {k : List Byte → Result} {j} (hj : j < n) (hn : bufRead s.mem b j = none) (hs : ∀ k, k < j → (bufRead s.mem b k).isSome = true) :
   withBytes b n s k = .fault (.undef b j) := by
  rcases bufReadAll_cases s.mem b n with ⟨vs, h1, h2, h3⟩ | ⟨j', h1, h2, h3, h4⟩
  · have := h3 j (by omega); rw [hn] at this; cases this
  · have : j' = j := by
      rcases Nat.lt_trichotomy j' j with h | h | h
      · have := hs _ h; rw [h3] at this; cases this
      · exact h
      · have := h4 _ h; rw [hn] at this; cases this
    subst this
    simp [withBytes, h1]

/-! Bursts. -/

theorem State.received_drop_one (s : State) (n : Nat) :
    (s.received (n+1)).drop 1 = (List.range n).map (fun j => s.answer (j+1)) := by
  simp only [State.received, List.range_succ_eq_map, List.map_cons, List.drop_one, List.tail_cons, List.map_map]
  rfl

theorem burstRead_pos (a n s k) (hn : n ≠ 0) (hr : s.rdy = true) : burstRead a n s k =
   k ((List.range n).map (fun j => s.answer (j+1))) (s.exchange (hdrByte a true true :: List.replicate n Config.DUMMY)) := by
  rw [burstRead, if_neg hn, txn_ready _ _ _ hr]
  simp only [List.length_cons, List.length_replicate, State.received_drop_one]

theorem burstRead_held (a n s k) (h : s.rdy = false) (hn : n ≠ 0) : burstRead a n s k = .next s.hold := by
  rw [burstRead, if_neg hn]; exact txn_held _ _ _ h

theorem burstWrite_held (a n s k) (h : s.rdy = false) (hn : n ≠ []) : burstWrite a n s k = .next s.hold := by
  rw [burstWrite, if_neg hn]; exact txn_held _ _ _ h

/-! Waits under a false RDY. -/

theorem forceIdle_held (p at' s k) (h : s.rdy = false) : forceIdle p at' s k = .next s.hold := by
  cases p
  · rw [forceIdle]; exact strobe_held _ _ _ h
  · rw [forceIdle]; exact runState_held _ _ _ _ h

theorem enterTx_held (p at' s k) (h : s.rdy = false) : enterTx p at' s k = .next s.hold := by
  cases p <;> rw [enterTx]
  · exact forceIdle_held _ _ _ _ h
  · exact strobe_held _ _ _ h
  · exact runState_held _ _ _ _ h
  · exact strobe_held _ _ _ h
  · exact strobe_held _ _ _ h

theorem enterRx_held (p at' o s k) (h : s.rdy = false) : enterRx p at' o s k = .next s.hold := by
  cases p <;> rw [enterRx]
  · exact forceIdle_held _ _ _ _ h
  · exact strobe_held _ _ _ h
  · exact runState_held _ _ _ _ h
  · exact strobe_held _ _ _ h
  · exact strobe_held _ _ _ h

/-! No operation stops. -/

theorem goes_next (s : State) : goesOn (.next s) := ⟨s, rfl⟩

theorem goes_ite {c : Prop} [Decidable c] {a b : Result} (h1 : c → goesOn a) (h2 : ¬c → goesOn b) :
    goesOn (if c then a else b) := by
  split
  · exact h1 ‹_›
  · exact h2 ‹_›

theorem goes_txn {out s k} (h : ∀ s', s'.rdy = true → ∀ x, goesOn (k x s')) :
    goesOn (txn out s k) := goes_ite (fun hr => h _ (by simpa using hr) _) (fun _ => goes_next _)

theorem goes_readOnce {hb s} {k : Byte → State → Result} (h : ∀ s' x, goesOn (k x s')) :
    goesOn (readOnce hb s k) := goes_txn (fun _ _ _ => h _ _)

theorem goes_strobe {hb s} {k : Byte → State → Result} (h : ∀ s' x, goesOn (k x s')) :
    goesOn (strobe hb s k) := goes_txn (fun _ _ _ => h _ _)

theorem goes_stable {hb v1 at' s} {k : Byte → State → Result} (h : ∀ s' x, goesOn (k x s')) :
    goesOn (stableRead hb v1 at' s k) := by
  refine goes_readOnce (fun s' x => ?_)
  cases v1
  · exact goes_next _
  · exact goes_ite (fun _ => h _ _) (fun _ => goes_next _)

theorem goes_regRead {a v1 at' s} {k : Byte → State → Result} (h : ∀ s' x, goesOn (k x s')) :
    goesOn (regRead a v1 at' s k) :=
  goes_ite (fun _ => goes_ite (fun _ => goes_stable h) (fun _ => goes_readOnce h)) (fun _ => goes_readOnce h)

theorem goes_runState {v1 at' s} {k : Byte → State → Result} (h : ∀ s' x, goesOn (k x s')) :
    goesOn (runState v1 at' s k) :=
  goes_regRead (fun _ _ => h _ _)

theorem goes_forceIdle {p at' s} {k : State → Result} (h : ∀ s', goesOn (k s')) :
    goesOn (forceIdle p at' s k) := by
  cases p
  · exact goes_strobe (fun _ _ => goes_next _)
  · rw [forceIdle]; exact goes_runState (fun _ _ => goes_ite (fun _ => h _) (fun _ => goes_next _))

theorem goes_enterStrobe {c at' s} : goesOn (enterStrobe c at' s) := goes_strobe (fun _ _ => goes_next _)

theorem goes_enterTx {p at' s} {k : State → Result} (h : ∀ s', goesOn (k s')) : goesOn (enterTx p at' s k) := by
  cases p
  · rw [enterTx]; exact goes_forceIdle (fun _ => goes_next _)
  · exact goes_enterStrobe
  · rw [enterTx]; exact goes_runState (fun _ _ => goes_ite (fun _ => h _) (fun _ => goes_next _))
  · exact goes_strobe (fun _ _ => goes_next _)
  · exact goes_enterStrobe

theorem goes_enterRx {p at' o s} {k : State → Result} (h : ∀ s', goesOn (k s')) :
    goesOn (enterRx p at' o s k) := by
  cases p
  · rw [enterRx]; exact goes_forceIdle (fun _ => goes_next _)
  · exact goes_enterStrobe
  · rw [enterRx]; exact goes_runState (fun _ _ => goes_ite (fun _ => h _) (fun _ => goes_ite (fun _ => goes_next _) (fun _ => goes_next _)))
  · exact goes_strobe (fun _ _ => goes_next _)
  · exact goes_enterStrobe

theorem goes_withBytes {b n s} {k : List Byte → Result} (hd : (List.range n).all (fun j => (bufRead s.mem b j).isSome) = true) (h : ∀ x, goesOn (k x)) :
    goesOn (withBytes b n s k) := by
  obtain ⟨vs, hv, -⟩ := bufReadAll_defined _ _ _ hd
  rw [withBytes_ok _ _ _ _ _ hv]; exact h _

theorem goes_burstRead {a n s} {k : List Byte → State → Result} (h : ∀ s' x, goesOn (k x s')) :
    goesOn (burstRead a n s k) :=
  goes_ite (fun _ => h _ _) (fun _ => goes_txn (fun _ _ _ => h _ _))

theorem goes_burstWrite {a n s} {k : State → Result} (h : ∀ s', goesOn (k s')) : goesOn (burstWrite a n s k) :=
  goes_ite (fun _ => h _) (fun _ => goes_txn (fun _ _ _ => h _))

theorem goes_recvCounted (l v s) :
    goesOn (recvCounted l v s) := goes_ite (fun _ => goes_next _) (fun _ => goes_next _)

end Sys2Proof.Machine
end

