-- ==== Sys2Proof/Tests/Slice0.lean ====
section
/-! SUPPORT. The model's own tests. Expected values come from spec/: the words of 30_encoding.md R85, the vectors of 95_test_vectors.md (named V-…) and the examples of the rules. Theorems named witness_… show that the hypotheses of a statement can be met. -/

namespace Sys2Proof.Machine

/-! Helpers. -/

/-- A state with the word `w` running at position `k`, the transceiver about to answer `ans`, and memory `m`; CHIP_OK and
ADDR_SET are 1. -/
def testAt (w : Word) (k : Pos) (ans : List Byte) (m : Memory) : State :=
  { State.reset with
    cmd := w, seq := .running w k, answers := ans, mem := m
    status := { Status.reset with busy := true, chipOk := true, addrSet := true, lastop := opField w } }

/-- The same with an uninitialised transceiver. -/
def testGated (w : Word) : State :=
  { testAt w .start [] [] with status := { Status.reset with busy := true, lastop := opField w } }

/-- The outcome is a next state that satisfies `p`. -/
def nextHas (r : Result) (p : State → Bool) : Bool :=
  match r with
  | .next t => p t
  | .fault _ => false
  | .refused _ => false

/-- The next state; for an outcome that has none, the state before. -/
def nextOr (s : State) (r : Result) : State :=
  match r with
  | .next t => t
  | .fault _ => s
  | .refused _ => s

/-- Bytes at the beginning of a buffer. -/
def bytesAt (b : Buf) (vs : List Byte) : Memory := bufWriteAll [] b vs

/-! WellFormed refuses a count that does not fit its field (R80, R89). -/

theorem test_brd_illFormed : Instr.WellFormed (.brd 0x3F#8 256) = false := by decide
theorem test_bwr_illFormed : Instr.WellFormed (.bwr 0x3F#8 256) = false := by decide
theorem test_send_illFormed : Instr.WellFormed (.send 256) = false := by decide
theorem test_recv_illFormed : Instr.WellFormed (.recv 256) = false := by decide
theorem test_decode_illFormed : Instr.WellFormed (.decode 256) = false := by decide
theorem test_encode_illFormed : Instr.WellFormed (.encode 256) = false := by decide
theorem test_cksum_illFormed : Instr.WellFormed (.cksum 256) = false := by decide
theorem test_compose_illFormed : Instr.WellFormed (.compose 256) = false := by decide

/-! Decoding: each word written out from the table of R85 as OP, A, L, D. -/

theorem test_word_nop : decode 0b00000000_00000000_00000000_00000000#32 = .ok .nop := by decide
theorem test_word_init : decode 0b00000001_00000000_00000000_00000000#32 = .ok .init := by decide
theorem test_word_rreg : decode 0b00000010_00110101_00000000_00000000#32 = .ok (.rreg 0x35#8) := by decide
theorem test_word_wreg : decode 0b00000011_00000010_00000000_00000110#32 = .ok (.wreg 0x02#8 0x06#8) := by decide
theorem test_word_strobe : decode 0b00000100_00110110_00000000_00000000#32 = .ok (.strobe 0x36#8) := by decide
theorem test_word_rssi : decode 0b00000101_00000000_00000000_00000000#32 = .ok .rssi := by decide
theorem test_word_brd : decode 0b00000110_00111110_00010100_00000000#32 = .ok (.brd 0x3E#8 20) := by decide
theorem test_word_bwr : decode 0b00000111_00111110_00001000_00000000#32 = .ok (.bwr 0x3E#8 8) := by decide
theorem test_word_send : decode 0b00001000_00000000_00111100_00000000#32 = .ok (.send 60) := by decide
theorem test_word_recv : decode 0b00001001_00000000_00111100_00000000#32 = .ok (.recv 60) := by decide
theorem test_word_idle : decode 0b00001010_00000000_00000000_00000000#32 = .ok .idle := by decide
theorem test_word_rxon : decode 0b00001011_00000000_00000000_00000000#32 = .ok .rxon := by decide
theorem test_word_txon : decode 0b00001100_00000000_00000000_00000000#32 = .ok .txon := by decide
theorem test_word_decode : decode 0b00010000_00000000_00111100_00000000#32 = .ok (.decode 60) := by decide
theorem test_word_encode : decode 0b00010001_00000000_00001000_00000000#32 = .ok (.encode 8) := by decide
theorem test_word_cksum : decode 0b00010010_00000000_00000101_00000000#32 = .ok (.cksum 5) := by decide
theorem test_word_compose : decode 0b00010011_00000000_00000010_00000000#32 = .ok (.compose 2) := by decide
theorem test_word_irqack : decode 0b00100000_00000000_00000000_00000000#32 = .ok .irqack := by decide

/-- V-ENCW and V-IRQ: an unused field that is not 0, and a reserved opcode. -/
theorem test_words_refused :
    decode 0x02350001#32 = .error (.unusedFieldNotZero 0x02#8) ∧ decode 0x0A000100#32 = .error (.unusedFieldNotZero 0x0A#8) ∧
    decode 0x20000001#32 = .error (.unusedFieldNotZero 0x20#8) ∧ decode 0x0D000000#32 = .error (.reservedOpcode 0x0D#8) ∧
    decode 0xFF000000#32 = .error (.reservedOpcode 0xFF#8) := by decide

/-- The encoder on the worked encodings of R85. -/
theorem test_encoder : encode (.rreg 0x35#8) = 0x02350000#32 ∧ encode (.wreg 0x02#8 0x06#8) = 0x03020006#32 ∧
    encode (.brd 0x3E#8 20) = 0x063E1400#32 ∧ encode (.encode 8) = 0x11000800#32 ∧
    encode (.strobe 0x36#8) = 0x04360000#32 := by decide

/-- The host's form of the decoder. -/
theorem test_tableWord : decodeTableWord 32 0x02350000 = some (.rreg 0x35#8) ∧ decodeTableWord 32 0x02350001 = none := by
  decide

/-! One step from reset with a word issued. -/

/-- V-ENCW: NOP from reset gives STATUS 0x00000002. -/
theorem test_step_nop : nextHas (step (State.reset.withFetchWord 32 0x00000000))
    (fun t => t.status.word == 0x00000002#32) = true := by decide

/-- V-ENCW: a reserved opcode from reset gives STATUS 0xFF010002. -/
theorem test_step_reserved : nextHas (step (State.reset.withFetchWord 32 0xFF000000))
    (fun t => t.status.word == 0xFF010002#32) = true := by decide

/-- V-TRA: RREG 0x35 with CHIP_OK 0 gives STATUS 0x02050002. -/
theorem test_step_notInit : nextHas (step (State.reset.withFetchWord 32 0x02350000))
    (fun t => t.status.word == 0x02050002#32) = true := by decide

/-! The arbiter (V-TRA). -/

/-- INIT begins with the strobe 0x30. -/
theorem test_init_strobe : nextHas (exec .init (testAt 0x01000000#32 .start [0x0F#8] []))
    (fun t => t.trace == [.txn [0x30#8] [0x0F#8]]) = true := by decide

/-- INIT with version 0xFF ends with ERR 0x04 and CHIPID 0x0000FF00. -/
theorem test_init_badVersion :
    nextHas (exec .init (testAt 0x01000000#32 (.initVersion 0x00#8 none) [0x0F#8, 0xFF#8] []))
      (fun t => t.regWord 0x01C == 0x0000FF00#32 && t.status.err.code == 0x04#8 && !t.status.chipOk) = true := by decide

/-- RREG 0x00: one transaction with header 0x80. -/
theorem test_rreg_config : nextHas (exec (.rreg 0x00#8) (testAt 0x02000000#32 .start [0x0F#8, 0x29#8] []))
    (fun t => t.rdata == 0x29#8 && t.trace == [.txn [0x80#8, 0x00#8] [0x0F#8, 0x29#8]]) = true := by decide

/-- WREG 0x02, 0x06: the bytes 0x02 0x06. -/
theorem test_wreg_config : nextHas (exec (.wreg 0x02#8 0x06#8) (testAt 0x03020006#32 .start [0x0F#8, 0x0F#8] []))
    (fun t => t.trace == [.txn [0x02#8, 0x06#8] [0x0F#8, 0x0F#8]]) = true := by decide

/-- WREG 0x36: a write to a status address is refused. -/
theorem test_wreg_status : nextHas (exec (.wreg 0x36#8 0x00#8) (testAt 0x03360000#32 .start [] []))
    (fun t => t.status.err == .range && t.trace == []) = true := by decide

/-- STROBE 0x36 with the status byte 0x1F. -/
theorem test_strobe_idle : nextHas (exec (.strobe 0x36#8) (testAt 0x04360000#32 .start [0x1F#8] []))
    (fun t => t.rdata == 0x1F#8 && t.trace == [.txn [0x36#8] [0x1F#8]]) = true := by decide

/-- STROBE 0x3E is refused. -/
theorem test_strobe_range : nextHas (exec (.strobe 0x3E#8) (testAt 0x043E0000#32 .start [] []))
    (fun t => t.status.err == .range) = true := by decide

/-- V-RSSI: the table of conversions. -/
theorem test_rssi_table : rssiToDbm 0x00#8 = -74 ∧ rssiToDbm 0x01#8 = -74 ∧ rssiToDbm 0x02#8 = -73 ∧
    rssiToDbm 0x7F#8 = -11 ∧ rssiToDbm 0x80#8 = -138 ∧ rssiToDbm 0x81#8 = -137 ∧ rssiToDbm 0xFE#8 = -75 ∧
    rssiToDbm 0xFF#8 = -74 := by decide

/-- R116: the raw answer 0x80 gives RSSI_DBM 0xFFFFFF76. -/
theorem test_rssi_word : nextHas (exec .rssi (testAt 0x05000000#32 (.rssiConvert 0x80#8) [] []))
    (fun t => t.regWord 0x014 == 0xFFFFFF76#32) = true := by decide

/-! The burst controller (V-FBC). -/

/-- BRD 0x00, 3. -/
theorem test_brd_config :
    nextHas (exec (.brd 0x00#8 3) (testAt 0x06000300#32 .start [0x0F#8, 0x11#8, 0x22#8, 0x33#8] []))
      (fun t => t.trace == [.txn [0xC0#8, 0x00#8, 0x00#8, 0x00#8] [0x0F#8, 0x11#8, 0x22#8, 0x33#8]]
        && t.lens.rxlen == 3#8 && bufRead t.mem .rxbuf 2 == some 0x33#8) = true := by decide

/-- BRD 0x2E, 2 passes 0x2E: ERR_RANGE. -/
theorem test_brd_range : nextHas (exec (.brd 0x2E#8 2) (testAt 0x062E0200#32 .start [] []))
    (fun t => t.status.err == .range && t.trace == []) = true := by decide

/-- BWR 0x2D, 3 runs past 0x2E and warns WARN_CFG only. -/
theorem test_bwr_warns :
    nextHas (exec (.bwr 0x2D#8 3) (testAt 0x072D0300#32 .start [0x0F#8, 0x0F#8, 0x0F#8, 0x0F#8]
        (bytesAt .txbuf [0x11#8, 0x22#8, 0x33#8])))
      (fun t => t.status.word == 0x07000126#32
        && t.trace == [.txn [0x6D#8, 0x11#8, 0x22#8, 0x33#8] [0x0F#8, 0x0F#8, 0x0F#8, 0x0F#8]]) = true := by decide

/-- BWR 0x3F, 4 with TXBUF[3] never written: the model fault UNDEF. -/
theorem test_bwr_undefined :
    exec (.bwr 0x3F#8 4) (testAt 0x073F0400#32 .start [] (bytesAt .txbuf [0x11#8, 0x22#8, 0x33#8]))
      = .fault (.undef .txbuf 3) := by rfl

/-- SEND begins with the flush strobe 0x3B. -/
theorem test_send_flush : nextHas (exec (.send 1) (testAt 0x08000100#32 .start [0x0F#8] (bytesAt .txbuf [0x55#8])))
    (fun t => t.trace == [.txn [0x3B#8] [0x0F#8]] && t.pos == .sendEnter [0x55#8] (.idle .strobe)) = true := by decide

/-- SEND's completion poll accepts 0x16 (TXUNF). -/
theorem test_send_underflow :
    nextHas (exec (.send 1) (testAt 0x08000100#32 (.sendPoll (some 0x16#8)) [0x0F#8, 0x16#8] []))
      (fun t => t.seq == .idle && t.status.done && t.status.err == .ok) = true := by decide

/-- RECV 60, count 0x8A: 10 bytes, since bit 7 is masked. -/
theorem test_recv_masks :
    nextHas (exec (.recv 60) (testAt 0x09003C00#32 (.recvCount (some 0x8A#8)) [0x0F#8, 0x8A#8] []))
      (fun t => t.pos == .recvBurst 10) = true := by decide

/-- RECV 61: ERR_LEN. -/
theorem test_recv_length : nextHas (exec (.recv 61) (testAt 0x09003D00#32 .start [] []))
    (fun t => t.status.err == .len && t.trace == []) = true := by decide

/-! Run-state control (V-RS). -/

/-- IDLE: 0x21 & 0x1F is 0x01, so the poll completes. -/
theorem test_idle_masks :
    nextHas (exec .idle (testAt 0x0A000000#32 (.idleWait (.poll (some 0x21#8))) [0x0F#8, 0x21#8] []))
      (fun t => t.seq == .idle && t.status.done) = true := by decide

/-- IDLE: 0x0D goes on polling. -/
theorem test_idle_polls :
    nextHas (exec .idle (testAt 0x0A000000#32 (.idleWait (.poll (some 0x0D#8))) [0x0F#8, 0x0D#8] []))
      (fun t => t.pos == .idleWait (.poll none) && t.status.busy) = true := by decide

/-- RXON: 0x11 (RXOVF) is counted once and flushed. -/
theorem test_rxon_overflow :
    nextHas (execs .rxon 2 (testAt 0x0B000000#32 (.rxonWait (.poll (some 0x11#8))) [0x0F#8, 0x11#8, 0x0F#8] []))
      (fun t => t.pos == .rxonWait (.poll none) && t.stuckIter == 1
        && t.trace == [.txn [0x3A#8] [0x0F#8], .txn [0xF5#8, 0x00#8] [0x0F#8, 0x11#8]]) = true := by decide

/-- RXON: the 200th poll that misses is followed by the recovery. -/
theorem test_rxon_stuck :
    nextHas (exec .rxon
        { testAt 0x0B000000#32 (.rxonWait (.poll (some 0x01#8))) [0x0F#8, 0x01#8] [] with stuckIter := 199 })
      (fun t => t.pos == .rxonWait .stuckFlush) = true := by decide

/-- TXON's recovery is the flush 0x3B, then the entry strobe 0x35. -/
theorem test_txon_recovers :
    nextHas (execs .txon 2 { testAt 0x0C000000#32 (.txonWait .stuckFlush) [0x0F#8, 0x0F#8] [] with stuckIter := 200 })
      (fun t => t.stuckIter == 0 && t.trace == [.txn [0x35#8] [0x0F#8], .txn [0x3B#8] [0x0F#8]]) = true := by decide

/-- TXON: 0x16 (TXUNF) is not its target. -/
theorem test_txon_underflow :
    nextHas (exec .txon (testAt 0x0C000000#32 (.txonWait (.poll (some 0x16#8))) [0x0F#8, 0x16#8] []))
      (fun t => t.pos == .txonWait (.poll none) && t.stuckIter == 1) = true := by decide

/-! The codec (V-DEC, V-ENC). -/

/-- HDR, FF 95 6A, CA: a bad Manchester pair is decoded all the same, to F0, and is not valid. -/
theorem test_decode_badPair :
    nextHas (exec (.decode 9) (testAt 0x10000900#32 .start []
        (bytesAt .rxbuf [0x00#8, 0xB3#8, 0x2A#8, 0xAB#8, 0x2A#8, 0xFF#8, 0x95#8, 0x6A#8, 0xCA#8])))
      (fun t => bufRead t.mem .decbuf 0 == some 0xF0#8 && t.regWord 0x020 == 0x0003CA00#32
        && t.status.pktFound && !t.status.decValid && t.lens.declen == 1#8) = true := by decide

/-- HDR, 55: no footer, so no packet. -/
theorem test_decode_noFooter :
    nextHas (exec (.decode 6) (testAt 0x10000600#32 .start []
        (bytesAt .rxbuf [0x00#8, 0xB3#8, 0x2A#8, 0xAB#8, 0x2A#8, 0x55#8])))
      (fun t => !t.status.pktFound && t.regWord 0x020 == 0x00000000#32) = true := by decide

/-- R232: single bytes and short frames. -/
theorem test_encode_table :
    encodePayload [0x00#8] = [0x55#8, 0x95#8, 0x6A#8] ∧ encodePayload [0x01#8] = [0x55#8, 0xA5#8, 0x6A#8] ∧
    encodePayload [0x80#8] = [0x56#8, 0x95#8, 0x6A#8] ∧ encodePayload [0xA5#8] = [0x66#8, 0xA6#8, 0x6A#8] ∧
    encodePayload [0x12#8, 0x34#8] = [0x95#8, 0x99#8, 0x6A#8, 0x59#8, 0x66#8] := by decide

/-- ENCODE 1 of 16: HDR, 95 9A 6A, CA, then AA; TXLEN is 60. -/
theorem test_encode_packet :
    nextHas (exec (.encode 1) (testAt 0x11000100#32 .start [] (bytesAt .cmdbuf [0x16#8])))
      (fun t => bufReadFrom t.mem .txbuf 5 5 == .ok [0x95#8, 0x9A#8, 0x6A#8, 0xCA#8, 0xAA#8]
        && bufRead t.mem .txbuf 59 == some 0xAA#8 && t.lens.txlen == 60#8) = true := by decide

/-! Checksum and composer (V-CSG). -/

/-- CKSUM 2 of 12 34 appends BA. -/
theorem test_cksum : nextHas (exec (.cksum 2) (testAt 0x12000200#32 .start [] (bytesAt .cmdbuf [0x12#8, 0x34#8])))
    (fun t => bufRead t.mem .cmdbuf 2 == some 0xBA#8 && t.lens.cmdlen == 3#8) = true := by decide

/-- CKSUM 32: ERR_LEN. -/
theorem test_cksum_length : nextHas (exec (.cksum 32) (testAt 0x12002000#32 .start [] []))
    (fun t => t.status.err == .len) = true := by decide

/-- ROLL_CNT 0xFF, body A1 02: 16 50 72 A2 FF A1 02 E4, and ROLL_CNT wraps. -/
theorem test_compose :
    nextHas (exec (.compose 2)
        { testAt 0x13000200#32 .start [] (bytesAt .cmdbuf [0xA1#8, 0x02#8]) with ownAddr := 0x5072A2#24, rollCnt := 0xFF#8 })
      (fun t => bufReadAll t.mem .cmdbuf 8
          == .ok [0x16#8, 0x50#8, 0x72#8, 0xA2#8, 0xFF#8, 0xA1#8, 0x02#8, 0xE4#8]
        && t.rollCnt == 0x00#8 && t.lens.cmdlen == 8#8) = true := by decide

/-- ADDR_SET 0, COMPOSE 27: the length is checked before the address. -/
theorem test_compose_priority : nextHas (exec (.compose 27) (testGated 0x13001B00#32))
    (fun t => t.status.err == .len) = true := by decide

/-! Edge and host port (V-IRQ, V-HOST). -/

/-- An edge, then IRQACK: RDATA 1, the flag 0. -/
theorem test_irqack : nextHas (exec .irqack (testAt 0x20000000#32 .start [] []).edge)
    (fun t => t.rdata == 0x01#8 && !t.irqFlag && t.irqCnt == 1#32) = true := by decide

/-- IRQ_CNT wraps. -/
theorem test_edge_wraps :
    (State.edge { State.reset with irqCnt := 0xFFFFFFFF#32 }).irqCnt = 0x00000000#32 := by decide

/-- W32 0x100, 0x44332211 writes 11 22 33 44. -/
theorem test_host_littleEndian :
    bufReadAll (State.reset.hostAccess (.write32 0x100#9 0x44332211#32)).mem .rxbuf 4
      = .ok [0x11#8, 0x22#8, 0x33#8, 0x44#8] := by decide

/-- W32 0x00C, 0xFF123456: OWN_ADDR reads 0x00123456 and ADDR_SET is 1. -/
theorem test_host_ownAddr :
    (State.reset.hostAccess (.write32 0x00C#9 0xFF123456#32)).regWord 0x00C = 0x00123456#32 ∧
    (State.reset.hostAccess (.write32 0x00C#9 0xFF123456#32)).status.addrSet = true := by decide

/-- R32 0x102 is misaligned: it returns 0 and sets HVIOL. -/
theorem test_host_misaligned :
    (State.reset.hostAccess (.read32 0x102#9)).status.hviol = true ∧
    (State.reset.hostAccess (.read32 0x102#9)).trace = [.read32 0x102#9 0x00000000#32] := by decide

/-! Witnesses: the hypotheses of each statement, met together, clause by clause at boundary values. -/

theorem witness_DecodeInvertsEncode : Instr.WellFormed (.brd 0xFF#8 255) = true ∧ Instr.WellFormed (.brd 0x00#8 0) = true := by
  decide

theorem witness_DecodedWordEncodesBack : decode 0x0300FFFF#32 ≠ .ok (.wreg 0x00#8 0xFF#8) ∧
    decode 0x030000FF#32 = .ok (.wreg 0x00#8 0xFF#8) := by decide

theorem witness_DecodeFollowsMatchAndMask : decode 0x06FFFF00#32 = .ok (.brd 0xFF#8 255) ∧
    0x06FFFF00#32 &&& Instr.mask (.brd 0xFF#8 255) = Instr.matchWord (.brd 0xFF#8 255) := by decide

/-- Both ends of each reserved range. -/
theorem witness_IllegalWordsEndWithIllegalOp :
    (testAt 0x0D000000#32 .start [] []).seq = .running 0x0D000000#32 .start ∧
    (0x0D ≤ (opField 0x0D000000#32).toNat ∧ (opField 0x0F000000#32).toNat ≤ 0x0F) ∧
    (0x14 ≤ (opField 0x14000000#32).toNat ∧ (opField 0x1F000000#32).toNat ≤ 0x1F) ∧
    (0x21 ≤ (opField 0x21000000#32).toNat ∧ 0x21 ≤ (opField 0xFF000000#32).toNat) := by decide

/-- A used opcode with a non-zero unused field. -/
theorem witness_IllegalWordsEndWithIllegalOp_field :
    (0x02350001#32).extractLsb' 24 8 = Instr.opcode (.rreg 0x35#8) ∧
    0x02350001#32 &&& Instr.mask (.rreg 0x35#8) ≠ Instr.matchWord (.rreg 0x35#8) := by
  simp [Instr.opcode, Instr.mask, Instr.matchWord]

theorem witness_StepRunsTheDecodedCommand :
    (testAt 0x02350000#32 (.rregRead none) [] []).seq = .running 0x02350000#32 (.rregRead none) ∧
    decode 0x02350000#32 = .ok (.rreg 0x35#8) ∧ (testAt 0x02350000#32 (.rregRead none) [] []).inputs = [] ∧
    (State.inputs { testAt 0x02350000#32 (.rregRead none) [] [] with inputs := [.sequencer, .edge] }) = .sequencer :: [.edge] := by
  decide

/-- A state with BUSY = 0 and one with BUSY = 1, for the statements about the host port. -/
theorem witness_hostPort : State.reset.status.busy = false ∧ (testAt 0x0B000000#32 .start [] []).status.busy = true := by
  decide

theorem witness_RegisterReadsReturnTheRegister : State.reset.status.busy = false ∧
    (0x00000000#32).extractLsb' 0 8 = State.reset.lens.rxlen ∧ (0x00000000#32).extractLsb' 8 8 = State.reset.lens.declen ∧
    (0x00000000#32).extractLsb' 16 8 = State.reset.lens.cmdlen ∧ (0x00000000#32).extractLsb' 24 8 = State.reset.lens.txlen ∧
    (0x00000000#32).extractLsb' 0 8 = State.reset.chipid.partnum ∧ (0x00000000#32).extractLsb' 8 8 = State.reset.chipid.version ∧
    (0x00000000#32).extractLsb' 16 16 = 0#16 ∧ (0x00000000#32).extractLsb' 0 8 = State.reset.decinfo.hoff ∧
    (0x00000000#32).extractLsb' 8 8 = State.reset.decinfo.ftr ∧ (0x00000000#32).extractLsb' 16 8 = State.reset.decinfo.plen ∧
    (∀ a ∈ [0x02C#9, 0x0FC#9], 0x02C ≤ a.toNat ∧ a.toNat < 0x100 ∧ a.toNat % 4 = 0) := by decide

/-- The ends of each address range. -/
theorem witness_BadAccessesOnlySetHviol : State.reset.status.busy = false ∧
    (∀ a ∈ [0x001#9, 0x0FF#9], a.toNat < 0x100 ∧ a.toNat % 4 ≠ 0) ∧
    (∀ a ∈ [0x02C#9, 0x0FF#9], 0x02C ≤ a.toNat ∧ a.toNat < 0x100) ∧
    (∀ a ∈ [0x1C0#9, 0x1D4#9], 0x1C0 ≤ a.toNat ∧ a.toNat ≤ 0x1D4) ∧
    (∀ a ∈ [0x13C#9, 0x13F#9, 0x17C#9, 0x17F#9, 0x1A0#9, 0x1BF#9, 0x1D5#9, 0x1FF#9],
      (0x13C ≤ a.toNat ∧ a.toNat ≤ 0x13F) ∨ (0x17C ≤ a.toNat ∧ a.toNat ≤ 0x17F) ∨
        (0x1A0 ≤ a.toNat ∧ a.toNat ≤ 0x1BF) ∨ (0x1D5 ≤ a.toNat ∧ a.toNat ≤ 0x1FF)) ∧
    (∀ a ∈ [0x02C#9, 0x0FC#9], 0x02C ≤ a.toNat ∧ a.toNat < 0x100 ∧ a.toNat % 4 = 0) := by decide

/-- The last byte of RXBUF, its last aligned word, a misaligned address, and DECBUF's last byte. -/
theorem witness_BufferAccessesAreLittleEndian : State.reset.status.busy = false ∧
    (59 < Buf.size .rxbuf ∧ (0x13B#9).toNat = Buf.base .rxbuf + 59 ∧ (0x13B#9).toNat % 4 ≠ 0) ∧
    (56 < Buf.size .rxbuf ∧ (0x138#9).toNat = Buf.base .rxbuf + 56 ∧ (0x138#9).toNat % 4 = 0 ∧ 56 + 3 < Buf.size .rxbuf) ∧
    (20 < Buf.size .decbuf ∧ (0x1D4#9).toNat = Buf.base .decbuf + 20 ∧ Buf.size .decbuf ≤ 20 + 3) ∧
    (∀ i ∈ [0, 1, 2, 3], bufRead (bytesAt .rxbuf [0x11#8, 0x22#8, 0x33#8, 0x44#8]) .rxbuf i
      = [0x11#8, 0x22#8, 0x33#8, 0x44#8][i]?) := by decide

theorem witness_EdgeEventSetsFlagAndCounts :
    (State.inputs { testAt 0x0B000000#32 .start [] [] with inputs := [.edge] }) = [.edge] ∧
    nextHas (exec .irqack (testAt 0x20000000#32 .start [] []).edge) (fun t => !t.irqFlag) = true := by decide

theorem witness_ResetEventResetsTheBlock :
    (State.inputs { testAt 0x0B000000#32 .start [] [] with inputs := [.reset, .sequencer] }) = .reset :: [.sequencer] := by
  decide

/-- The gate, and a command that is not gated in a state that holds ERR_NOT_INIT. -/
theorem witness_BusCommandsNeedChipOk : usesBus (.rreg 0x35#8) = true ∧ (testGated 0x02350000#32).pos = .start ∧
    (testGated 0x02350000#32).status.chipOk = false ∧ usesBus .nop = false ∧
    nextHas (exec .nop { State.reset with status := { Status.reset with err := .notInit } })
      (fun t => t.status.err == .notInit) = true := by decide

theorem witness_FirstFailingCheckIsReported :
    (testAt 0xFF000000#32 .start [] []).seq = .running 0xFF000000#32 .start ∧
    decode 0xFF000000#32 = .error (.reservedOpcode 0xFF#8) ∧
    firstError (.brd 0x30#8 200) (testGated 0x0630C800#32) = some .notInit ∧
    firstError (.brd 0x30#8 200) (testAt 0x0630C800#32 .start [] []) = some .range ∧
    firstError (.brd 0x3F#8 200) (testAt 0x063FC800#32 .start [] []) = some .len ∧
    firstError (.compose 0) (testGated 0x13000000#32) = some .noAddr := by decide

/-- A range error, and INIT's error. -/
theorem witness_NoErrorAfterTheChecks :
    belongs (.strobe 0x3E#8) (testAt 0x043E0000#32 .start [] []).pos = true ∧
    nextHas (exec (.strobe 0x3E#8) (testAt 0x043E0000#32 .start [] [])) (fun t => t.status.err != .ok) = true ∧
    belongs .init (testAt 0x01000000#32 (.initVersion 0x00#8 none) [0x0F#8, 0x00#8] []).pos = true ∧
    nextHas (exec .init (testAt 0x01000000#32 (.initVersion 0x00#8 none) [0x0F#8, 0x00#8] []))
      (fun t => t.status.err != .ok) = true := by decide

/-- The greatest length, defined; an undefined last byte; and a position past the start. -/
theorem witness_UndefinedByteFaults :
    firstError (.encode 21) (testAt 0x11001500#32 .start [] (bytesAt .cmdbuf (List.replicate 21 0x00#8))) = none ∧
    inputsDefined (.encode 21) (testAt 0x11001500#32 .start [] (bytesAt .cmdbuf (List.replicate 21 0x00#8))) = true ∧
    consumes (.encode 21) = some (.cmdbuf, 21) ∧ bufRead (bytesAt .cmdbuf (List.replicate 20 0x00#8)) .cmdbuf 20 = none ∧
    (∀ k, k < 20 → (bufRead (bytesAt .cmdbuf (List.replicate 20 0x00#8)) .cmdbuf k).isSome = true) ∧
    belongs (.recv 60) (testAt 0x09003C00#32 (.recvBurst 60) [] []).pos = true := by decide

/-- A host read of the last byte of RXBUF, never written. -/
theorem witness_UndefinedByteFaults_hostRead : State.reset.status.busy = false ∧ 59 < Buf.size .rxbuf ∧
    (0x13B#9).toNat = Buf.base .rxbuf + 59 ∧ bufRead State.reset.mem .rxbuf 59 = none := by decide

theorem witness_ReadyGateHoldsTheSequencer :
    belongs (.bwr 0x3F#8 1) .start = true ∧
    atBus (.bwr 0x3F#8 1) { testAt 0x073F0100#32 .start [] (bytesAt .txbuf [0x11#8]) with rdy := false } = true ∧
    belongs .idle (.idleWait (.poll none)) = true ∧
    atBus .idle { testAt 0x0A000000#32 (.idleWait (.poll none)) [] [] with rdy := false } = true := by decide

/-- At a transaction, and at BRD's start with nothing to read. -/
theorem witness_OneTransactionPerStep :
    atBus (.brd 0x3E#8 1) (testAt 0x063E0100#32 .start [] []) = true ∧ (testAt 0x063E0100#32 .start [] []).rdy = true ∧
    nextHas (exec (.brd 0x3E#8 1) (testAt 0x063E0100#32 .start [0x0F#8, 0xC0#8] [])) (fun _ => true) = true ∧
    atBus (.brd 0x3E#8 0) (testAt 0x063E0000#32 .start [] []) = false ∧
    nextHas (exec (.brd 0x3E#8 0) (testAt 0x063E0000#32 .start [] [])) (fun _ => true) = true := by decide

theorem witness_NopOnlyCompletes : State.reset.inputs = [] := by decide

/-- INIT with the version bytes 0x14, 0x00 and 0xFF, and at its last strobe. -/
theorem witness_InitIdentifiesTheChip :
    (testAt 0x01000000#32 .start [0x0F#8, 0x0F#8, 0x00#8, 0x0F#8, 0x14#8] []).answer 4 = 0x14#8 ∧
    (testAt 0x01000000#32 .start [0x0F#8, 0x0F#8, 0x00#8, 0x0F#8, 0x00#8] []).answer 4 = 0x00#8 ∧
    (testAt 0x01000000#32 .start [0x0F#8, 0x0F#8, 0x00#8, 0x0F#8, 0xFF#8] []).answer 4 = 0xFF#8 ∧
    (testAt 0x01000000#32 .initFlushTx [] []).seq = .running 0x01000000#32 .initFlushTx ∧
    (testAt 0x01000000#32 .initFlushTx [] []).rdy = true := by decide

/-- The ends of the two address ranges that are read once. -/
theorem witness_RregReadsOnce : (testAt 0x02000000#32 .start [] []).seq = .running 0x02000000#32 .start ∧
    (testAt 0x02000000#32 .start [] []).rdy = true ∧ (testAt 0x02000000#32 .start [] []).status.chipOk = true ∧
    (∀ a ∈ [0x00#8, 0x2E#8, 0x30#8, 0x3D#8, 0x3E#8, 0x3F#8],
      a.toNat < 0x40 ∧ a ≠ 0x2F#8 ∧ a ∉ [0x32#8, 0x35#8, 0x36#8, 0x37#8, 0x3A#8, 0x3B#8]) := by decide

/-- The four places of a pair, the second read agreeing and differing. -/
theorem witness_RregReadsUntilStable :
    (testAt 0x02350000#32 .start [] []).status.chipOk = true ∧ (testAt 0x02350000#32 .start [] []).rdy = true ∧
    (testAt 0x02350000#32 (.rregRead none) [] []).seq = .running 0x02350000#32 (.rregRead none) ∧
    (testAt 0x02350000#32 (.rregRead (some 0x0D#8)) [0x0F#8, 0x0D#8] []).answer 1 = 0x0D#8 ∧
    (testAt 0x02350000#32 (.rregRead (some 0x0D#8)) [0x0F#8, 0x01#8] []).answer 1 ≠ 0x0D#8 := by decide

/-- RECV's count and every run-state poll: a first read, and a second one that differs. -/
theorem witness_RregReadsUntilStable_polls :
    ∀ p ∈ [Pos.recvCount, fun v => .idleWait (.poll v), fun v => .rxonWait (.idle (.poll v)), fun v => .rxonWait (.poll v),
        fun v => .txonWait (.idle (.poll v)), fun v => .txonWait (.poll v), fun v => .sendEnter [] (.idle (.poll v)),
        fun v => .sendEnter [] (.poll v), .sendPoll],
      (testAt 0x0B000000#32 (p none) [] []).seq = .running 0x0B000000#32 (p none) ∧
      (testAt 0x0B000000#32 (p (some 0x0D#8)) [0x0F#8, 0x01#8] []).seq = .running 0x0B000000#32 (p (some 0x0D#8)) ∧
      0x0D#8 ≠ (testAt 0x0B000000#32 (p (some 0x0D#8)) [0x0F#8, 0x01#8] []).answer 1 := by
  intro p _
  exact ⟨rfl, rfl, by simp [testAt, State.answer]⟩

/-- RECV's second read that agrees, with a count of 0 and with the greatest one. -/
theorem witness_RregReadsUntilStable_count :
    (testAt 0x09003C00#32 (.recvCount (some 0x80#8)) [0x0F#8, 0x80#8] []).answer 1 = 0x80#8 ∧
    min (0x80#8 &&& 0x7F#8).toNat 60 = 0 ∧
    (testAt 0x09003C00#32 (.recvCount (some 0x7F#8)) [0x0F#8, 0x7F#8] []).answer 1 = 0x7F#8 ∧
    min (0x7F#8 &&& 0x7F#8).toNat 60 = 60 := by decide

theorem witness_WregWritesOnce : (testAt 0x03000000#32 .start [] []).pos = .start ∧
    (testAt 0x03000000#32 .start [] []).rdy = true ∧ (testAt 0x03000000#32 .start [] []).status.chipOk = true ∧
    (∀ a ∈ [0x00#8, 0x2E#8, 0x3E#8, 0x3F#8], a.toNat ≤ 0x2E ∨ a = 0x3E#8 ∨ a = 0x3F#8) := by decide

theorem witness_StrobeReturnsTheStatusByte : (testAt 0x04300000#32 .start [] []).pos = .start ∧
    (testAt 0x04300000#32 .start [] []).rdy = true ∧ (testAt 0x04300000#32 .start [] []).status.chipOk = true ∧
    (∀ c ∈ [0x30#8, 0x3D#8], 0x30 ≤ c.toNat ∧ c.toNat ≤ 0x3D) := by decide

theorem witness_RssiConversionTruncates : (0x7F#8).toNat < 128 ∧ 128 ≤ (0x80#8).toNat := by decide

theorem witness_RssiReadsAndConverts : (testAt 0x05000000#32 .start [] []).seq = .running 0x05000000#32 .start ∧
    (testAt 0x05000000#32 .start [] []).rdy = true ∧ (testAt 0x05000000#32 .start [] []).status.chipOk = true ∧
    (testAt 0x05000000#32 (.rssiConvert 0x80#8) [] []).seq = .running 0x05000000#32 (.rssiConvert 0x80#8) := by decide

/-- The longest configuration burst, no byte, a clamped PA burst and the longest FIFO burst. -/
theorem witness_BrdReadsIntoRxbuf : (testAt 0x06000000#32 .start [] []).pos = .start ∧
    (testAt 0x06000000#32 .start [] []).status.chipOk = true ∧ (testAt 0x06000000#32 .start [] []).rdy = true ∧
    ((0x00#8).toNat ≤ 0x2E ∧ (0x00#8).toNat + 47 - 1 ≤ 0x2E) ∧ ((0x2E#8).toNat ≤ 0x2E ∧ (0x2E#8).toNat + 1 - 1 ≤ 0x2E) ∧
    min 20 8 = 8 ∧ 60 ≤ 60 := by decide

/-- 60 written bytes to a burst address, and none. -/
theorem witness_BwrWritesAndWarns : (testAt 0x073F3C00#32 .start [] []).pos = .start ∧
    (testAt 0x073F3C00#32 .start [] []).status.chipOk = true ∧ (testAt 0x073F3C00#32 .start [] []).rdy = true ∧
    (List.replicate 60 0x55#8).length = 60 ∧ holdsBytes (bytesAt .txbuf (List.replicate 60 0x55#8)) .txbuf (List.replicate 60 0x55#8) ∧
    holdsBytes [] .txbuf [] := by unfold holdsBytes; decide

/-- SEND 0 with polls that agree. -/
theorem witness_SendRunsToCompletion_empty :
    let s := testAt 0x08000000#32 .start
        [0x0F#8, 0x0F#8, 0x0F#8, 0x01#8, 0x0F#8, 0x01#8, 0x0F#8, 0x0F#8, 0x13#8, 0x0F#8, 0x13#8, 0x0F#8, 0x01#8, 0x0F#8, 0x01#8] [];
      s.rdy = true ∧ s.status.chipOk = true ∧ s.answer 3 = s.answer 5 ∧ s.answer 5 &&& 0x1F#8 = 0x01#8 ∧
      s.answer 8 = s.answer 10 ∧ s.answer 10 &&& 0x1F#8 = 0x13#8 ∧ s.answer (11 + 1) = s.answer (11 + 3) ∧
      s.answer (11 + 3) &&& 0x1F#8 = 0x01#8 := by decide

/-- SEND 1 with polls that agree, the last one reading TXUNF. -/
theorem witness_SendRunsToCompletion :
    let s := testAt 0x08000100#32 .start
        [0x0F#8, 0x0F#8, 0x0F#8, 0x01#8, 0x0F#8, 0x01#8, 0x0F#8, 0x0F#8, 0x13#8, 0x0F#8, 0x13#8, 0x0F#8, 0x0F#8,
          0x0F#8, 0x16#8, 0x0F#8, 0x16#8] (bytesAt .txbuf [0x55#8]);
      s.rdy = true ∧ s.status.chipOk = true ∧ bufRead s.mem .txbuf 0 = some 0x55#8 ∧ s.answer 3 = s.answer 5 ∧
      s.answer 5 &&& 0x1F#8 = 0x01#8 ∧ s.answer 8 = s.answer 10 ∧ s.answer 10 &&& 0x1F#8 = 0x13#8 ∧
      s.answer (13 + 1) = s.answer (13 + 3) ∧ s.answer (13 + 3) &&& 0x1F#8 = 0x16#8 := by decide

/-- A count of 0x8A with RECV 60, and a burst of 60 bytes. -/
theorem witness_RecvReadsTheCountedBytes :
    let s := testAt 0x09003C00#32 .start [0x0F#8, 0x8A#8, 0x0F#8, 0x8A#8] [];
      s.rdy = true ∧ s.status.chipOk = true ∧ s.answer 1 = s.answer 3 ∧ min (s.answer 3 &&& 0x7F#8).toNat 60 = 10 ∧
    (testAt 0x09003C00#32 (.recvBurst 60) [] []).seq = .running 0x09003C00#32 (.recvBurst 60) := by decide

/-- A count of 0. -/
theorem witness_RecvReadsTheCountedBytes_empty :
    let s := testAt 0x09003C00#32 .start [0x0F#8, 0x00#8, 0x0F#8, 0x00#8] [];
      s.answer 1 = s.answer 3 ∧ min (s.answer 3 &&& 0x7F#8).toNat 60 = 0 := by decide

theorem witness_IdleRunsToCompletion :
    let s := testAt 0x0A000000#32 .start [0x0F#8, 0x0F#8, 0x21#8, 0x0F#8, 0x21#8] [];
    s.seq = .running 0x0A000000#32 .start ∧ s.rdy = true ∧ s.status.chipOk = true ∧ s.answer 2 = s.answer 4 ∧
      s.answer 4 &&& 0x1F#8 = 0x01#8 := by decide

theorem witness_EntryCommandsRunToCompletion :
    let s (target : Byte) := testAt 0x0B000000#32 .start
      [0x0F#8, 0x0F#8, 0x01#8, 0x0F#8, 0x01#8, 0x0F#8, 0x0F#8, target, 0x0F#8, target] [];
    ∀ target ∈ [0x0D#8, 0x13#8], (s target).rdy = true ∧ (s target).status.chipOk = true ∧
      (s target).answer 2 = (s target).answer 4 ∧ (s target).answer 4 &&& 0x1F#8 = 0x01#8 ∧
      (s target).answer 7 = (s target).answer 9 ∧ (s target).answer 9 &&& 0x1F#8 = target := by decide

theorem witness_AwaitedRunStateCompletes :
    (∀ p ∈ [(0x01#8, Pos.idleWait (.poll (some 0x01#8))), (0x0D#8, .rxonWait (.poll (some 0x0D#8))),
        (0x13#8, .txonWait (.poll (some 0x13#8))), (0x01#8, .sendPoll (some 0x01#8)), (0x16#8, .sendPoll (some 0x16#8))],
      (testAt 0x0A000000#32 p.2 [0x0F#8, p.1] []).seq = .running 0x0A000000#32 p.2 ∧
      (testAt 0x0A000000#32 p.2 [0x0F#8, p.1] []).rdy = true ∧
      p.1 = (testAt 0x0A000000#32 p.2 [0x0F#8, p.1] []).answer 1 ∧ p.1 &&& 0x1F#8 = p.1) := by decide

/-- The awaited poll inside a wait: idle in each ForceIdle, and TX in SEND's EnterTx with and without a byte. -/
theorem witness_AwaitedRunStateCompletes_inside :
    ∀ p ∈ [(0x01#8, Pos.rxonWait (.idle (.poll (some 0x01#8)))), (0x01#8, .txonWait (.idle (.poll (some 0x01#8)))),
        (0x01#8, .sendEnter [] (.idle (.poll (some 0x01#8)))), (0x13#8, .sendEnter [] (.poll (some 0x13#8))),
        (0x13#8, .sendEnter [0x55#8] (.poll (some 0x13#8)))],
      (testAt 0x08000000#32 p.2 [0x0F#8, p.1] []).seq = .running 0x08000000#32 p.2 ∧
      (testAt 0x08000000#32 p.2 [0x0F#8, p.1] []).rdy = true ∧
      p.1 = (testAt 0x08000000#32 p.2 [0x0F#8, p.1] []).answer 1 ∧ p.1 &&& 0x1F#8 = p.1 := by decide

theorem witness_UnboundedPollsGoOn :
    ∀ k ∈ [Pos.idleWait (.poll (some 0x0D#8)), .rxonWait (.idle (.poll (some 0x0D#8))),
        .txonWait (.idle (.poll (some 0x0D#8))), .sendEnter [] (.idle (.poll (some 0x0D#8))), .sendPoll (some 0x0D#8)],
      (testAt 0x0A000000#32 k [0x0F#8, 0x0D#8] []).seq = .running 0x0A000000#32 k ∧
      (testAt 0x0A000000#32 k [0x0F#8, 0x0D#8] []).rdy = true ∧
      0x0D#8 = (testAt 0x0A000000#32 k [0x0F#8, 0x0D#8] []).answer 1 ∧ 0x0D#8 &&& 0x1F#8 ≠ 0x01#8 ∧
      0x0D#8 &&& 0x1F#8 ≠ 0x16#8 := by decide

/-- A poll that misses the target with 199 already counted, and a recovery. -/
theorem witness_StuckDetectorRecoversAt200 :
    ∀ place ∈ [EnterPlace.poll (some 0x01#8), .stuckFlush], ∀ at' ∈ [Pos.rxonWait place, .txonWait place, .sendEnter [] place],
      let s := { testAt 0x0B000000#32 at' [0x0F#8, 0x01#8] [] with stuckIter := 199 };
      s.seq = .running 0x0B000000#32 at' ∧ s.rdy = true ∧ 0x01#8 = s.answer 1 ∧ s.stuckIter + 1 = 200 ∧
        (∀ target ∈ [0x0D#8, 0x13#8, 0x11#8], 0x01#8 &&& 0x1F#8 ≠ target) := by decide

theorem witness_OverflowPollFlushesAndCounts :
    let s := testAt 0x0B000000#32 (.rxonWait (.poll (some 0x31#8))) [0x0F#8, 0x31#8, 0x0F#8] [];
    s.seq = .running 0x0B000000#32 (.rxonWait (.poll (some 0x31#8))) ∧ s.rdy = true ∧ 0x31#8 = s.answer 1 ∧
      0x31#8 &&& 0x1F#8 = 0x11#8 := by decide

/-- R193 to R195 on the payload 95 9A 6A of the byte 16: its bit 4. -/
theorem witness_DecodedPayloadBits :
    4 < 8 ∧ (decodePayload [0x95#8, 0x9A#8, 0x6A#8])[0]? = some 0x16#8 ∧ 0 = 5 * (2 * 0 + (if 4 ≤ 4 then 0 else 1)) + 4 % 4 ∧
    [0x95#8, 0x9A#8, 0x6A#8][2 * 0 / 8]? = some 0x95#8 := by decide

theorem witness_DecodeLengthLaw :
    let f := [0x00#8, 0xB3#8, 0x2A#8, 0xAB#8, 0x2A#8, 0x55#8, 0x95#8, 0x6A#8, 0xCA#8];
    f.length ≤ 60 ∧ (codecDecode f).isSome = true := by decide

theorem witness_EncodedPayloadBits : 0 < 8 ∧ (encodePayload [0x16#8])[2]? = some 0x6A#8 ∧ 23 = 8 * 2 + (7 - 0) ∧
    11 = 23 / 2 := by decide

/-- The longest frame and the empty one. -/
theorem witness_frameLengths : (List.replicate 21 0x16#8).length ≤ 21 ∧ ([] : List Byte).length ≤ 21 := by decide

theorem witness_EncodedBytesAreManchester : 0x6A#8 ∈ encodePayload [0x16#8] := by decide

/-- The longest frame, with no packet, in RXBUF. -/
theorem witness_DecodeCommandReports_none :
    let f := List.replicate 60 0xAA#8;
      f.length = 60 ∧ 60 ≤ 60 ∧ holdsBytes (bytesAt .rxbuf f) .rxbuf f ∧ codecDecode f = none := by
  unfold holdsBytes; decide

/-- A frame with an empty packet, in RXBUF. -/
theorem witness_DecodeCommandReports :
    let f := [0x00#8, 0xB3#8, 0x2A#8, 0xAB#8, 0x2A#8, 0xAC#8];
      f.length = 6 ∧ holdsBytes (bytesAt .rxbuf f) .rxbuf f ∧
        codecDecode f = some ⟨[], true, 0, 5, 0xAC#8, 0⟩ := by unfold holdsBytes; decide

/-- V-DEC: bytes before the header, a footer byte among them, leave HOFF at 2; here with the payload 55 95 6A of the byte 00. -/
theorem witness_DecodeCommandReports_offset :
    codecDecode [0xFF#8, 0xAC#8, 0x00#8, 0xB3#8, 0x2A#8, 0xAB#8, 0x2A#8, 0x55#8, 0x95#8, 0x6A#8, 0xCA#8]
      = some ⟨[0x00#8], true, 2, 10, 0xCA#8, 3⟩ := by decide

/-- The greatest lengths of ENCODE, CKSUM and COMPOSE, all written. -/
theorem witness_frameCommands :
    (∀ n ∈ [21, 31, 26], (List.replicate n 0x55#8).length = n ∧
      holdsBytes (bytesAt .cmdbuf (List.replicate n 0x55#8)) .cmdbuf (List.replicate n 0x55#8)) ∧
    (testAt 0x13001A00#32 .start [] []).status.addrSet = true := by unfold holdsBytes; decide

/-- ENCODE of one byte, and the Packet copied to RXBUF. -/
theorem witness_EncodeThenDecodeReproducesTheFrame :
    let s := testAt 0x11000100#32 .start [] (bytesAt .cmdbuf [0x16#8]);
    let t := nextOr s (exec (.encode 1) s);
    let u := { t with mem := bufWriteAll t.mem .rxbuf (codecEncode [0x16#8]) };
    holdsBytes s.mem .cmdbuf [0x16#8] ∧ exec (.encode 1) s = .next t ∧
      (∀ j, j < 60 → bufRead u.mem .rxbuf j = bufRead t.mem .txbuf j) := by
  refine ⟨?_, rfl, ?_⟩
  · unfold holdsBytes; decide
  · decide +kernel

/-- A command with a next state at a position of its own, for the whole-machine rules. -/
theorem witness_CommandsChangeOnlyTheirRegisters :
    belongs (.compose 0) (testAt 0x13000000#32 .start [] []).pos = true ∧
    exec (.compose 0) (testAt 0x13000000#32 .start [] [])
      = .next (nextOr State.reset (exec (.compose 0) (testAt 0x13000000#32 .start [] []))) := ⟨by decide, rfl⟩

/-- Every class of command that may write a buffer, and an address outside each. -/
theorem witness_CommandsWriteOnlyTheirBuffer :
    ¬(0x100 ≤ 0x13C ∧ 0x13C < 0x13C) ∧ ¬(0x140 ≤ 0x13F ∧ 0x13F < 0x17C) ∧ ¬(0x180 ≤ 0x1A0 ∧ 0x1A0 < 0x1A0) ∧
    ¬(0x1C0 ≤ 0x1D5 ∧ 0x1D5 < 0x1D5) ∧
    nextHas (exec (.cksum 0) (testAt 0x12000000#32 .start [] [])) (fun _ => true) = true := by decide

theorem witness_HviolIsSticky :
    let s := State.reset.violate;
    s.status.hviol = true ∧ (∀ rest, s.inputs ≠ .reset :: rest) ∧ step s = .next s := by
  refine ⟨by decide, fun rest h => ?_, rfl⟩
  cases h

/-- Right after any command is issued from reset, the invariant holds. -/
theorem issued_has_the_invariant (w : Word) : (State.reset.issue w).Inv where
  memory := rfl
  busy := ⟨fun _ h => by simp [State.issue] at h, fun _ => rfl⟩
  running := fun _ => ⟨rfl, rfl⟩
  place := by
    intro w' k h
    cases h
    refine ⟨rfl, ?_⟩
    cases decode w <;> rfl
  checked := by
    intro w' k i h _ hk
    cases h
    exact absurd rfl hk
  lastop := rfl
  select := fun h => by cases h
  stuck := .inl (by simp [State.issue, State.reset])
  lens := by simp [State.issue, State.reset]
  rssi := .inl rfl
  decoded := fun h => by cases h

theorem witness_StepKeepsTheInvariant :
    (State.reset.issue 0x00000000#32).Inv ∧
    step (State.reset.issue 0x00000000#32)
      = .next (nextOr State.reset (step (State.reset.issue 0x00000000#32))) :=
  ⟨issued_has_the_invariant _, rfl⟩

/-- ENCODE 1 with CMDBUF[0] never written stops, from a state with the invariant. -/
theorem witness_OnlyUndefStopsTheMachine :
    (State.reset.issue 0x11000100#32).Inv ∧ step (State.reset.issue 0x11000100#32) = .fault (.undef .cmdbuf 0) :=
  ⟨issued_has_the_invariant _, rfl⟩

end Sys2Proof.Machine
end

section
/-! PROOF. The footprint of a command: the one store it may make, beside its bus traffic, its position and BUSY, DONE and ERR (spec/10_state.md R21 to R42). -/

namespace Sys2Proof.Machine

/-- The state without the bus, the position, the completion bits and the observation: what a command keeps unless it
stores. -/
def State.regs (s : State) : State :=
  { s with status := { s.status with busy := false, done := false, err := .ok }, seq := .idle, sel := .deasserted,
           answers := [], drawCount := 0, trace := [] }

@[simp] theorem State.regs_complete (s : State) : s.complete.regs = s.regs := rfl
@[simp] theorem State.regs_raiseErr (s : State) (e : ErrCode) : (s.raiseErr e).regs = s.regs := rfl
@[simp] theorem State.regs_goto (s : State) (k : Pos) : (s.goto k).regs = s.regs := rfl
@[simp] theorem State.regs_exchange (s : State) (out : List Byte) : (s.exchange out).regs = s.regs := rfl
@[simp] theorem State.regs_hold (s : State) : s.hold.regs = s.regs := rfl
@[simp] theorem State.regs_setStuck (s : State) (n : Nat) : (s.setStuck n).regs = s.regs.setStuck n := rfl

/-- States with the same registers differ in the fields that `regs` drops. -/
theorem State.eq_of_regs {t u : State} (h : t.regs = u.regs) :
    t = { u with status := { u.status with busy := t.status.busy, done := t.status.done, err := t.status.err },
                 seq := t.seq, sel := t.sel, answers := t.answers, drawCount := t.drawCount, trace := t.trace } := by
  obtain ⟨_, ⟨⟩⟩ := t
  obtain ⟨_, ⟨⟩⟩ := u
  simpa [State.regs] using h

theorem State.mem_of_regs {t u : State} (h : t.regs = u.regs) : t.mem = u.mem := by
  rw [State.eq_of_regs h]

/-- `u` is `s` with a store that command `i` may make, or `s` itself; the lengths are those of its buffers. -/
inductive Stores : Instr → State → State → Prop where
  | nothing (i : Instr) (s : State) : Stores i s s
  | identity (s : State) (id : ChipId) (ok : Bool) :
    Stores .init s { s with chipid := id, status := { s.status with chipOk := ok } }
  | regValue (a : Byte) (s : State) (v : Byte) : Stores (.rreg a) s { s with rdata := v }
  | statusByte (c : Byte) (s : State) (v : Byte) : Stores (.strobe c) s { s with rdata := v }
  | flag (s : State) : Stores .irqack s { s with rdata := flagByte s.irqFlag, irqFlag := false }
  | level (s : State) (raw : Byte) : Stores .rssi s { s with rssiDbm := BitVec.ofInt 16 (rssiToDbm raw) }
  | read (a : Byte) (l : Nat) (s : State) (bytes : List Byte) (h : bytes.length ≤ Config.RXBUF_SIZE) :
    Stores (.brd a l) s { s with mem := bufWriteAll s.mem .rxbuf bytes,
                                 lens := { s.lens with rxlen := countByte bytes.length } }
  | received (l : Nat) (s : State) (bytes : List Byte)
      (h : belongs (.recv l) s.pos = true → bytes.length ≤ Config.RXBUF_SIZE) :
    Stores (.recv l) s { s with mem := bufWriteAll s.mem .rxbuf bytes,
                                lens := { s.lens with rxlen := countByte bytes.length } }
  | warning (a : Byte) (l : Nat) (s : State) (x : Option Warning) : Stores (.bwr a l) s (s.warn x)
  | count (i : Instr) (s : State) (n : Nat) (h : i = .rxon ∨ i = .txon ∨ ∃ l, i = .send l) : Stores i s (s.setStuck n)
  | decoded (l : Nat) (s : State) (frame : List Byte) (h : frame.length ≤ Config.RXBUF_SIZE) :
    Stores (.decode l) s (decodeStore (codecDecode frame) s)
  | packet (l : Nat) (s : State) (c : List Byte) (h : c.length ≤ Config.MAX_CMD) :
    Stores (.encode l) s { s with mem := bufWriteAll s.mem .txbuf (codecEncode c),
                                  lens := { s.lens with txlen := countByte Config.FRAME_LEN } }
  | checksum (l : Nat) (s : State) (v : Byte) (h : l < Config.CMDBUF_SIZE) :
    Stores (.cksum l) s { s with mem := bufWrite s.mem .cmdbuf l v,
                                 lens := { s.lens with cmdlen := countByte (l + 1) } }
  | frame (l : Nat) (s : State) (body : List Byte) (v : Byte) (hl : l + 5 < Config.CMDBUF_SIZE) (hb : body.length = l) :
    Stores (.compose l) s
      { s with mem := bufWrite (bufWriteAll s.mem .cmdbuf (frameHead s.ownAddr s.rollCnt body)) .cmdbuf (l + 5) v,
               rollCnt := s.rollCnt + 1, lens := { s.lens with cmdlen := countByte (l + 6) } }

/-- But for the bus, its position and the completion bits, the command has made one of its stores or none. -/
def Footprint (i : Instr) (s t : State) : Prop := ∃ u, Stores i s u ∧ t.regs = u.regs

theorem Footprint.same {i : Instr} {s t : State} (h : t.regs = s.regs) : Footprint i s t := ⟨s, .nothing i s, h⟩

theorem Footprint.counted {i : Instr} {s t : State} (n : Nat) (hi : i = .rxon ∨ i = .txon ∨ ∃ l, i = .send l)
    (h : t.regs = (s.setStuck n).regs) : Footprint i s t := ⟨_, .count i s n hi, h⟩

/-! The operations that store nothing, followed by what the command goes on with. -/

theorem stuckStep_regs (at' : EnterPlace → Pos) (s : State) :
    (stuckStep at' s).regs = (s.setStuck (s.stuckIter + 1)).regs := by
  rw [stuckStep_eq, State.regs_goto]

theorem ensures_forceIdle_footprint {i : Instr} {p : IdlePlace} {at' : IdlePlace → Pos} {s : State} {k : State → Result}
    (hk : ∀ out, Ensures (k (s.exchange out)) (Footprint i s)) : Ensures (forceIdle p at' s k) (Footprint i s) :=
  .forceIdle (fun _ _ out _ => hk out) (fun _ _ _ _ => .same rfl) (fun _ => .same rfl)

theorem ensures_enterRx_footprint {i : Instr} {p : EnterPlace} {at' : EnterPlace → Pos} {o : Pos} {s : State}
    {k : State → Result} (hi : i = .rxon ∨ i = .txon ∨ ∃ l, i = .send l)
    (hk : ∀ out, Ensures (k (s.exchange out)) (Footprint i s)) : Ensures (enterRx p at' o s k) (Footprint i s) :=
  .enterRx (fun _ _ out _ _ => hk out) (fun _ _ _ _ _ _ _ _ => .same rfl) (fun _ _ _ => .counted 0 hi rfl)
    (fun _ _ _ _ _ => .counted _ hi (stuckStep_regs _ _)) (fun _ _ _ _ _ => .same rfl) (fun _ => .same rfl)

theorem ensures_enterTx_footprint {i : Instr} {p : EnterPlace} {at' : EnterPlace → Pos} {s : State} {k : State → Result}
    (hi : i = .rxon ∨ i = .txon ∨ ∃ l, i = .send l) (hk : ∀ out, Ensures (k (s.exchange out)) (Footprint i s)) :
    Ensures (enterTx p at' s k) (Footprint i s) :=
  .enterTx (fun _ _ out _ _ => hk out) (fun _ _ _ _ _ _ _ _ => .same rfl) (fun _ _ _ => .counted 0 hi rfl)
    (fun _ _ _ _ _ => .counted _ hi (stuckStep_regs _ _)) (fun _ => .same rfl)

theorem ensures_gated_footprint {i : Instr} {s : State} {k : Result} (hk : Ensures k (Footprint i s)) :
    Ensures (gated s k) (Footprint i s) :=
  .gated (fun _ => hk) (fun _ => .same rfl)

theorem ensures_regRead_footprint {i : Instr} {a : Byte} {v1 : Option Byte} {at' : Option Byte → Pos} {s : State}
    {k : Byte → State → Result} (hk : ∀ v out, Ensures (k v (s.exchange out)) (Footprint i s)) :
    Ensures (regRead a v1 at' s k) (Footprint i s) :=
  .regRead (fun _ _ => hk _ _) (fun _ _ _ _ => .same rfl) (fun _ => .same rfl)

theorem ensures_strobe_footprint {i : Instr} {c : Byte} {s : State} {k : Byte → State → Result}
    (hk : ∀ v out, Ensures (k v (s.exchange out)) (Footprint i s)) : Ensures (strobe c s k) (Footprint i s) :=
  .strobe (fun _ => hk _ _) (fun _ => .same rfl)

/-! The footprint of each command. -/

theorem execInit_footprint (s : State) : Ensures (execInit s) (Footprint .init s) := by
  obtain ⟨v1, h⟩ | ⟨part, v1, h⟩ | h | h | h := execInit_cases s
  · rw [execInit_part s v1 h]
    exact ensures_regRead_footprint fun _ _ => .next (.same rfl)
  · rw [execInit_version s part v1 h]
    exact ensures_regRead_footprint fun v _ => .ite (fun _ => .next ⟨_, .identity s ⟨part, v⟩ false, rfl⟩)
      (fun _ => .next ⟨_, .identity s ⟨part, v⟩ s.status.chipOk, rfl⟩)
  · rw [execInit_flushRx s h]
    exact ensures_strobe_footprint fun _ _ => .next (.same rfl)
  · rw [execInit_flushTx s h]
    exact ensures_strobe_footprint fun _ _ => .next ⟨_, .identity s s.chipid true, rfl⟩
  · rw [h]
    exact ensures_strobe_footprint fun _ _ => .next (.same rfl)

theorem execRreg_footprint (a : Byte) (s : State) : Ensures (execRreg a s) (Footprint (.rreg a) s) := by
  have store (v out) : Ensures (rregStore v (s.exchange out)) (Footprint (.rreg a) s) := .next ⟨_, .regValue a s v, rfl⟩
  unfold execRreg
  split
  · exact ensures_regRead_footprint store
  · exact ensures_gated_footprint (.ite (fun _ => ensures_regRead_footprint store) (fun _ => .next (.same rfl)))

theorem execRssi_footprint (s : State) : Ensures (execRssi s) (Footprint .rssi s) := by
  unfold execRssi
  split
  · exact .next ⟨_, .level s _, rfl⟩
  · exact ensures_regRead_footprint fun _ _ => .next (.same rfl)
  · exact ensures_gated_footprint (ensures_regRead_footprint fun _ _ => .next (.same rfl))

theorem execBrd_footprint (a : Byte) (l : Nat) (s : State) : Ensures (execBrd a l s) (Footprint (.brd a l) s) := by
  refine ensures_gated_footprint ?_
  obtain ⟨h, -⟩ | ⟨h, -⟩ | ⟨n, h, -, -, -, hn⟩ := readPlan_cases a l <;> rw [h]
  · exact .next (.same rfl)
  · exact .next (.same rfl)
  · refine .burstRead (fun h0 => ?_) (fun _ _ bytes hb => ?_) (fun _ _ => .same rfl)
    · subst h0
      exact .next ⟨_, .read a l s [] (Nat.zero_le _), rfl⟩
    · subst hb
      exact .next ⟨_, .read a l s bytes hn, rfl⟩

theorem execBwr_footprint (a : Byte) (l : Nat) (s : State) : Ensures (execBwr a l s) (Footprint (.bwr a l) s) := by
  refine ensures_gated_footprint ?_
  obtain ⟨h, -⟩ | ⟨h, -⟩ | ⟨x, h, -⟩ := writePlan_cases a l <;> rw [h]
  · exact .next (.same rfl)
  · exact .next (.same rfl)
  · have store := Stores.warning a l s x
    exact .withBytes fun bytes _ _ =>
      .burstWrite (fun _ => .next ⟨_, store, rfl⟩) (fun _ _ => .next ⟨_, store, rfl⟩) (fun _ _ => ⟨_, store, rfl⟩)

theorem execSend_footprint (l : Nat) (s : State) : Ensures (execSend l s) (Footprint (.send l) s) := by
  unfold execSend
  split
  · exact ensures_enterTx_footprint (.inr (.inr ⟨l, rfl⟩)) fun _ => .next (.same rfl)
  · exact .burstWrite (fun _ => .next (.same rfl)) (fun _ _ => .next (.same rfl)) (fun _ _ => .same rfl)
  · exact ensures_regRead_footprint fun _ _ => .ite (fun _ => .next (.same rfl)) (fun _ => .next (.same rfl))
  · exact ensures_gated_footprint (.ite (fun _ => .next (.same rfl)) fun _ => .withBytes fun _ _ _ =>
      ensures_strobe_footprint fun _ _ => .next (.same rfl))

theorem recvCounted_footprint (l : Nat) (v : Byte) (s : State) (out : List Byte) :
    Ensures (recvCounted l v (s.exchange out)) (Footprint (.recv l) s) :=
  .ite (fun _ => .next ⟨_, .received l s [] (fun _ => Nat.zero_le _), rfl⟩) (fun _ => .next (.same rfl))

theorem execRecv_footprint (l : Nat) (s : State) : Ensures (execRecv l s) (Footprint (.recv l) s) := by
  unfold execRecv
  split
  · exact ensures_regRead_footprint fun v out => recvCounted_footprint l v s out
  next n hp =>
    refine .burstRead (fun h0 => ?_) (fun _ _ bytes hb => ?_) (fun _ _ => .same rfl)
    · subst h0
      exact .next ⟨_, .received l s [] (fun _ => Nat.zero_le _), rfl⟩
    · subst hb
      refine .next ⟨_, .received l s bytes fun h => ?_, rfl⟩
      simp only [hp, belongs, Bool.and_eq_true, decide_eq_true_eq] at h
      omega
  · exact ensures_gated_footprint (.ite (fun _ => .next (.same rfl)) fun _ =>
      ensures_regRead_footprint fun v out => recvCounted_footprint l v s out)

theorem execIdle_footprint (s : State) : Ensures (execIdle s) (Footprint .idle s) := by
  unfold execIdle
  split
  · exact ensures_forceIdle_footprint fun _ => .next (.same rfl)
  · exact ensures_gated_footprint (ensures_forceIdle_footprint fun _ => .next (.same rfl))

theorem execRxon_footprint (s : State) : Ensures (execRxon s) (Footprint .rxon s) := by
  unfold execRxon
  split
  · exact ensures_enterRx_footprint (.inl rfl) fun _ => .next (.same rfl)
  · exact ensures_strobe_footprint fun _ _ => .next (.counted _ (.inl rfl) (stuckStep_regs _ _))
  · exact ensures_gated_footprint (ensures_enterRx_footprint (.inl rfl) fun _ => .next (.same rfl))

theorem execTxon_footprint (s : State) : Ensures (execTxon s) (Footprint .txon s) := by
  unfold execTxon
  split
  · exact ensures_enterTx_footprint (.inr (.inl rfl)) fun _ => .next (.same rfl)
  · exact ensures_gated_footprint (ensures_enterTx_footprint (.inr (.inl rfl)) fun _ => .next (.same rfl))

/-- Every command makes one of its stores or none, whatever its position. -/
theorem exec_footprint (i : Instr) (s : State) : Ensures (exec i s) (Footprint i s) := by
  cases i with
  | nop => exact .next (.same rfl)
  | init => exact execInit_footprint s
  | rreg a => exact execRreg_footprint a s
  | wreg a d =>
    exact ensures_gated_footprint (.ite (fun _ => .txn (fun _ => .next (.same rfl)) (fun _ => .same rfl))
      (fun _ => .next (.same rfl)))
  | strobe c =>
    exact ensures_gated_footprint (.ite (fun _ => ensures_strobe_footprint fun v _ => .next ⟨_, .statusByte c s v, rfl⟩)
      (fun _ => .next (.same rfl)))
  | rssi => exact execRssi_footprint s
  | brd a l => exact execBrd_footprint a l s
  | bwr a l => exact execBwr_footprint a l s
  | send l => exact execSend_footprint l s
  | recv l => exact execRecv_footprint l s
  | idle => exact execIdle_footprint s
  | rxon => exact execRxon_footprint s
  | txon => exact execTxon_footprint s
  | decode l =>
    refine .ite (fun _ => .next (.same rfl)) (fun hl => .withBytes fun frame _ hf => .next ?_)
    exact ⟨_, .decoded l s frame (by omega), rfl⟩
  | encode l =>
    refine .ite (fun _ => .next (.same rfl)) (fun hl => .withBytes fun c _ hc => .next ?_)
    exact ⟨_, .packet l s c (by omega), rfl⟩
  | cksum l =>
    refine .ite (fun _ => .next (.same rfl)) (fun hl => .withBytes fun _ _ _ => .next ?_)
    exact ⟨_, .checksum l s _ (by simp only [Config.CMDBUF_SIZE] at hl ⊢; omega), rfl⟩
  | compose l =>
    refine .ite (fun _ => .next (.same rfl)) (fun hl => .ite (fun _ => .next (.same rfl)) (fun _ =>
      .withBytes fun body _ hb => .next ?_))
    exact ⟨_, .frame l s body _ (by simp only [Config.CMDBUF_SIZE] at hl ⊢; omega) hb, rfl⟩
  | irqack => exact .next ⟨_, .flag s, rfl⟩

/-- Settles O55: each store is read off against the registers it is allowed to change. -/
theorem commandsChangeOnlyTheirRegisters : Obligations.CommandsChangeOnlyTheirRegisters := by
  intro i s t h
  obtain ⟨u, hu, ht⟩ := exec_footprint i s t h
  rw [State.eq_of_regs ht]
  cases hu with
  | count _ _ n hi => obtain rfl | rfl | ⟨l, rfl⟩ := hi <;> simp
  | decoded _ _ frame => cases codecDecode frame <;> simp [decodeStore]
  | _ => simp

end Sys2Proof.Machine
end

section
/-! PROOF. What a command writes to memory, to the lengths and to the other bounded registers stays within its buffer and its range (spec/10_state.md R27, R35, R36, R42). -/

namespace Sys2Proof.Machine

theorem countByte_toNat {n : Nat} (h : n < 256) : (countByte n).toNat = n := by
  rw [countByte, BitVec.toNat_ofNat, Nat.mod_eq_of_lt (by omega)]

/-- A decoded frame fits DECBUF: the header and the footer take 6 of its bytes, and the rest shrinks to two fifths. -/
theorem codecDecode_payload_le {f : List Byte} {d : Decoded} (h : codecDecode f = some d)
    (hf : f.length ≤ Config.RXBUF_SIZE) : d.payload.length ≤ Config.DECBUF_SIZE := by
  obtain ⟨-, hfoot, hplen, hpay, -⟩ := codecDecode_some f d h
  obtain ⟨k, hk, hget, -⟩ := (findFooterFrom_iff _ _ _ _).1 hfoot
  obtain ⟨hlt, -⟩ := List.getElem?_eq_some_iff.1 hget
  rw [hpay, decodePayload_length]
  simp only [List.length_take, List.length_drop, Config.HDR, List.length_cons, List.length_nil, Config.RXBUF_SIZE,
    Config.DECBUF_SIZE] at *
  omega

/-- A packet of a frame that fits fills TXBUF exactly (R226). -/
theorem codecEncode_length {c : List Byte} (h : c.length ≤ Config.MAX_CMD) :
    (codecEncode c).length = Config.FRAME_LEN := by
  simp only [codecEncode, List.length_append, List.length_replicate, List.length_cons, List.length_nil,
    encodePayload_length, Config.HDR, Config.FRAME_LEN, Config.MAX_CMD] at *
  omega

theorem frameHead_length (x : BitVec 24) (cnt : Byte) (body : List Byte) :
    (frameHead x cnt body).length = body.length + 5 := by
  simp [frameHead, ownAddrBytes]

/-- The buffer a command may write (R42). -/
def outputBuf : Instr → Option Buf
  | .brd _ _ | .recv _ => some .rxbuf
  | .encode _ => some .txbuf
  | .cksum _ | .compose _ => some .cmdbuf
  | .decode _ => some .decbuf
  | .nop | .init | .rreg _ | .wreg _ _ | .strobe _ | .rssi | .bwr _ _ | .send _ | .idle | .rxon | .txon
  | .irqack => none

section
variable {i : Instr} {s u : State}

/-- A store leaves memory alone, or writes a run of bytes within the command's buffer. -/
theorem Stores.mem_eq (h : Stores i s u) (hb : belongs i s.pos = true) :
    u.mem = s.mem ∨ ∃ b j vs, outputBuf i = some b ∧ j + vs.length ≤ b.size ∧ u.mem = bufWriteFrom s.mem b j vs := by
  cases h with
  | read a l _ bytes hl => exact .inr ⟨.rxbuf, 0, bytes, rfl, by simpa [Buf.size] using hl, rfl⟩
  | received l _ bytes hl => exact .inr ⟨.rxbuf, 0, bytes, rfl, by simpa [Buf.size] using hl hb, rfl⟩
  | decoded l _ frame hl =>
    cases hd : codecDecode frame with
    | none => exact .inl rfl
    | some d => exact .inr ⟨.decbuf, 0, d.payload, rfl, by simpa [Buf.size] using codecDecode_payload_le hd hl, rfl⟩
  | packet l _ c hl => exact .inr ⟨.txbuf, 0, codecEncode c, rfl, by simp [codecEncode_length hl, Buf.size], rfl⟩
  | checksum l _ v hl => exact .inr ⟨.cmdbuf, l, [v], rfl, hl, rfl⟩
  | frame l _ body v hl hbody =>
    refine .inr ⟨.cmdbuf, 0, frameHead s.ownAddr s.rollCnt body ++ [v], rfl, ?_, ?_⟩
    · simp only [List.length_append, frameHead_length, List.length_singleton, hbody, Buf.size]
      omega
    · have := bufWriteAll_snoc s.mem .cmdbuf (frameHead s.ownAddr s.rollCnt body) v
      rwa [frameHead_length, hbody] at this
  | _ => exact .inl rfl

theorem Stores.mem_wf (h : Stores i s u) (hb : belongs i s.pos = true) (hm : s.mem.wf = true) : u.mem.wf = true := by
  obtain he | ⟨b, j, vs, -, hl, he⟩ := h.mem_eq hb <;> rw [he]
  · exact hm
  · exact bufWriteFrom_wf _ _ _ _ hl hm

/-- The lengths of LENS lie within their buffers (R36). -/
def Lens.Within (l : Lens) : Prop :=
  l.rxlen.toNat ≤ Config.RXBUF_SIZE ∧ l.declen.toNat ≤ Config.DECBUF_SIZE ∧ l.cmdlen.toNat ≤ Config.CMDBUF_SIZE ∧
    (l.txlen.toNat = 0 ∨ l.txlen.toNat = Config.FRAME_LEN)

theorem countByte_le {n m : Nat} (h : n ≤ m) (hm : m < 256) : (countByte n).toNat ≤ m := by
  rwa [countByte_toNat (by omega)]

theorem Stores.lens_within (h : Stores i s u) (hb : belongs i s.pos = true) (hs : s.lens.Within) : u.lens.Within := by
  obtain ⟨hrx, hdec, hcmd, htx⟩ := hs
  cases h with
  | read a l _ bytes hl => exact ⟨countByte_le hl (by decide), hdec, hcmd, htx⟩
  | received l _ bytes hl => exact ⟨countByte_le (hl hb) (by decide), hdec, hcmd, htx⟩
  | decoded l _ frame hl =>
    cases hd : codecDecode frame with
    | none => exact ⟨hrx, Nat.zero_le _, hcmd, htx⟩
    | some d => exact ⟨hrx, countByte_le (codecDecode_payload_le hd hl) (by decide), hcmd, htx⟩
  | packet l _ c hl => exact ⟨hrx, hdec, hcmd, .inr rfl⟩
  | checksum l _ v hl => exact ⟨hrx, hdec, countByte_le hl (by decide), htx⟩
  | frame l _ body v hl hbody => exact ⟨hrx, hdec, countByte_le hl (by decide), htx⟩
  | _ => exact ⟨hrx, hdec, hcmd, htx⟩

/-- RSSI_DBM is its reset value or lies in -138 .. -11 (R35). -/
def RssiInRange (x : BitVec 16) : Prop := x = 0 ∨ (-138 ≤ x.toInt ∧ x.toInt ≤ -11)

/-- The conversion keeps its value in RSSI_DBM's 16 bits. -/
theorem rssiDbm_toInt (raw : Byte) : (BitVec.ofInt 16 (rssiToDbm raw)).toInt = rssiToDbm raw := by
  revert raw; decide

theorem rssiToDbm_range (raw : Byte) : -138 ≤ rssiToDbm raw ∧ rssiToDbm raw ≤ -11 := by
  revert raw; decide

theorem Stores.rssi_inRange (h : Stores i s u) (hs : RssiInRange s.rssiDbm) : RssiInRange u.rssiDbm := by
  cases h with
  | level _ raw =>
    refine .inr ?_
    rw [rssiDbm_toInt]
    exact rssiToDbm_range raw
  | decoded l _ frame hl => cases hd : codecDecode frame <;> simpa [decodeStore, hd] using hs
  | _ => exact hs

theorem Stores.decoded_found (h : Stores i s u) (hs : s.status.decValid = true → s.status.pktFound = true) :
    u.status.decValid = true → u.status.pktFound = true := by
  cases h with
  | warning a l _ x => simpa using hs
  | decoded l _ frame hl => cases hd : codecDecode frame <;> simp [decodeStore]
  | _ => exact hs

end

/-- Settles O56: the run a command writes lies in its own buffer. -/
theorem commandsWriteOnlyTheirBuffer : Obligations.CommandsWriteOnlyTheirBuffer := by
  intro i s t hb h a hrx htx hcmd hdec
  obtain ⟨u, hu, ht⟩ := exec_footprint i s t h
  have hmem : t.mem = u.mem := State.mem_of_regs ht
  obtain he | ⟨b, j, vs, hbuf, hl, he⟩ := hu.mem_eq hb <;> rw [hmem, he]
  have outside : ¬(b.base ≤ a ∧ a < b.base + b.size) := by
    cases i <;> cases hbuf
    case brd a' l => exact hrx (.inl ⟨a', l, rfl⟩)
    case recv l => exact hrx (.inr ⟨l, rfl⟩)
    case encode l => exact htx ⟨l, rfl⟩
    case cksum l => exact hcmd (.inl ⟨l, rfl⟩)
    case compose l => exact hcmd (.inr ⟨l, rfl⟩)
    case decode l => exact hdec ⟨l, rfl⟩
  exact bufWriteFrom_read_other _ _ _ _ _ (by omega)

end Sys2Proof.Machine
end

section
/-! PROOF. Where a command goes: the step it makes at a position of its own, the errors of its start, and the faults (spec/10_state.md R44, R46, spec/60_exceptions.md R302 to R308). -/

namespace Sys2Proof.Machine

/-! The errors of the start. -/

/-- At its start a bus-driving command stands behind the gate of R109. -/
theorem exec_gated {i : Instr} {s : State} (hp : s.pos = .start) (h : usesBus i = true) :
    ∃ k, exec i s = gated s k := by
  cases i
  case rreg a => exact ⟨_, execRreg_start a s hp⟩
  case wreg a d => exact ⟨_, rfl⟩
  case strobe c => exact ⟨_, rfl⟩
  case rssi => exact ⟨_, execRssi_start s hp⟩
  case brd a l => exact ⟨_, rfl⟩
  case bwr a l => exact ⟨_, rfl⟩
  case send l => exact ⟨_, execSend_start l s hp⟩
  case recv l => exact ⟨_, execRecv_start l s hp⟩
  case idle => exact ⟨_, execIdle_start s hp⟩
  case rxon => exact ⟨_, execRxon_start s hp⟩
  case txon => exact ⟨_, execTxon_start s hp⟩
  all_goals cases h

theorem exec_rangeError {i : Instr} {s : State} (hp : s.pos = .start) (hg : usesBus i = true → s.status.chipOk = true)
    (h : rangeError i = true) : exec i s = .next (s.raiseErr .range) := by
  cases i
  case rreg a =>
    rw [rangeError_rreg, Bool.not_eq_true'] at h
    exact (execRreg_start a s hp).trans (by simp [gated_open _ _ (hg rfl), h])
  case wreg a d =>
    rw [rangeError_wreg, Bool.not_eq_true'] at h
    simp [exec, execWreg, gated_open _ _ (hg rfl), h]
  case strobe c =>
    rw [rangeError_strobe, Bool.not_eq_true'] at h
    simp [exec, execStrobe, gated_open _ _ (hg rfl), h]
  case brd a l =>
    obtain ⟨hr, -⟩ | ⟨-, hr, -⟩ | ⟨-, -, hr, -⟩ := readPlan_cases a l
    · simp only [exec, execBrd, gated_open _ _ (hg rfl), hr]
    all_goals simp [h] at hr
  case bwr a l =>
    obtain ⟨hr, -⟩ | ⟨-, hr, -⟩ | ⟨-, -, hr, -⟩ := writePlan_cases a l
    · simp only [exec, execBwr, gated_open _ _ (hg rfl), hr]
    all_goals simp [h] at hr
  all_goals cases h

theorem exec_lengthError {i : Instr} {s : State} (hp : s.pos = .start) (hg : usesBus i = true → s.status.chipOk = true)
    (hr : rangeError i = false) (h : lengthError i = true) : exec i s = .next (s.raiseErr .len) := by
  cases i
  case brd a l =>
    obtain ⟨-, he⟩ | ⟨he, -⟩ | ⟨-, -, -, he, -⟩ := readPlan_cases a l
    · simp [hr] at he
    · simp only [exec, execBrd, gated_open _ _ (hg rfl), he]
    · simp [h] at he
  case bwr a l =>
    obtain ⟨-, he⟩ | ⟨he, -⟩ | ⟨-, -, -, he, -⟩ := writePlan_cases a l
    · simp [hr] at he
    · simp only [exec, execBwr, gated_open _ _ (hg rfl), he]
    · simp [h] at he
  case send l => exact (execSend_start l s hp).trans (by rw [gated_open _ _ (hg rfl), if_pos (of_decide_eq_true h)])
  case recv l => exact (execRecv_start l s hp).trans (by rw [gated_open _ _ (hg rfl), if_pos (of_decide_eq_true h)])
  case decode l => exact if_pos (of_decide_eq_true h)
  case encode l => exact if_pos (of_decide_eq_true h)
  case cksum l => exact if_pos (of_decide_eq_true h)
  case compose l => exact if_pos (of_decide_eq_true h)
  all_goals cases h

theorem exec_noAddr {i : Instr} {s : State} (hl : lengthError i = false) (h : needsOwnAddr i = true)
    (ha : s.status.addrSet = false) : exec i s = .next (s.raiseErr .noAddr) := by
  cases i
  case compose l => exact (if_neg (of_decide_eq_false hl)).trans (if_pos ha)
  all_goals cases h

/-- A refused command ends with the first error of R304 and changes nothing else (R302). -/
theorem exec_refused {i : Instr} {s : State} {e : ErrCode} (hp : s.pos = .start) (h : firstError i s = some e) :
    exec i s = .next (s.raiseErr e) := by
  unfold firstError at h
  split_ifs at h with hgate hrange hlen haddr <;> cases h
  · rw [Bool.and_eq_true, Bool.not_eq_true'] at hgate
    obtain ⟨k, hk⟩ := exec_gated hp hgate.1
    rw [hk, gated_closed _ _ hgate.2]
  all_goals
    have hg : usesBus i = true → s.status.chipOk = true := fun hu => by simpa [hu] using hgate
  · exact exec_rangeError hp hg hrange
  · exact exec_lengthError hp hg (by simpa using hrange) hlen
  · rw [Bool.and_eq_true, Bool.not_eq_true'] at haddr
    exact exec_noAddr (by simpa using hlen) haddr.1 haddr.2

/-! A command past its start. -/

/-- The step of command `i` at a position of its own, past its start. -/
inductive OwnStep : Instr → State → Result → Prop where
  | initPart (s : State) (hp : s.pos = .initPart none) :
    OwnStep .init s
      (regRead Config.ADDR_PARTNUM none .initPart s (fun part s => .next (s.goto (.initVersion part none))))
  | initVersion (s : State) (part : Byte) (hp : s.pos = .initVersion part none) :
    OwnStep .init s (regRead Config.ADDR_VERSION none (.initVersion part) s (initIdentify part))
  | initFlushRx (s : State) (hp : s.pos = .initFlushRx) :
    OwnStep .init s (strobe Config.S_SFRX s (fun _ s => .next (s.goto .initFlushTx)))
  | initFlushTx (s : State) (hp : s.pos = .initFlushTx) :
    OwnStep .init s (strobe Config.S_SFTX s
      (fun _ s => .next (State.complete { s with status := { s.status with chipOk := true } })))
  | rregRead (s : State) (a : Byte) (v1 : Option Byte) (hp : s.pos = .rregRead v1) (ha : a ∈ Config.GLITCH_SET) :
    OwnStep (.rreg a) s (regRead a v1 .rregRead s rregStore)
  | rssiConvert (s : State) (raw : Byte) (hp : s.pos = .rssiConvert raw) :
    OwnStep .rssi s (.next (State.complete { s with rssiDbm := BitVec.ofInt 16 (rssiToDbm raw) }))
  | sendEnter (s : State) (bytes : List Byte) (p : EnterPlace) (hp : s.pos = .sendEnter bytes p)
      (hl : bytes.length ≤ Config.TXBUF_SIZE) :
    OwnStep (.send bytes.length) s
      (enterTx p (.sendEnter bytes) s (fun s => .next (s.goto (sendAfterEnter bytes))))
  | sendBurst (s : State) (bytes : List Byte) (hp : s.pos = .sendBurst bytes) (h1 : 1 ≤ bytes.length)
      (hl : bytes.length ≤ Config.TXBUF_SIZE) :
    OwnStep (.send bytes.length) s (burstWrite Config.FIFO_ADDR bytes s (fun s => .next (s.goto (.sendPoll none))))
  | sendPoll (s : State) (l : Nat) (v1 : Option Byte) (hp : s.pos = .sendPoll v1) (hl : l ≤ Config.TXBUF_SIZE) :
    OwnStep (.send l) s (runState v1 .sendPoll s (fun st s =>
      if st = Config.MARC_IDLE ∨ st = Config.MARC_TXUNF then .next s.complete else .next (s.goto (.sendPoll none))))
  | recvCount (s : State) (l : Nat) (v1 : Option Byte) (hp : s.pos = .recvCount v1) (hl : l ≤ Config.RXBUF_SIZE) :
    OwnStep (.recv l) s (regRead Config.ADDR_RXBYTES v1 .recvCount s (recvCounted l))
  | recvBurst (s : State) (l n : Nat) (hp : s.pos = .recvBurst n) (h1 : 1 ≤ n) (hn : n ≤ l)
      (hl : l ≤ Config.RXBUF_SIZE) :
    OwnStep (.recv l) s (burstRead Config.FIFO_ADDR n s (storeReceived n))
  | idleWait (s : State) (p : IdlePlace) (hp : s.pos = .idleWait p) (hs : p ≠ .strobe) :
    OwnStep .idle s (forceIdle p .idleWait s (fun s => .next s.complete))
  | rxonWait (s : State) (p : EnterPlace) (hp : s.pos = .rxonWait p) (hs : p ≠ .idle .strobe) :
    OwnStep .rxon s (enterRx p .rxonWait .rxonOverflow s (fun s => .next s.complete))
  | rxonOverflow (s : State) (hp : s.pos = .rxonOverflow) : OwnStep .rxon s (overflowFlush .rxonWait s)
  | txonWait (s : State) (p : EnterPlace) (hp : s.pos = .txonWait p) (hs : p ≠ .idle .strobe) :
    OwnStep .txon s (enterTx p .txonWait s (fun s => .next s.complete))

theorem OwnStep.of_eq {i : Instr} {s : State} {r : Result} (h : exec i s = r) (hr : OwnStep i s r) :
    OwnStep i s (exec i s) := h ▸ hr

theorem exec_ownStep {i : Instr} {s : State} (hb : belongs i s.pos = true) (hs : s.pos ≠ .start) :
    OwnStep i s (exec i s) := by
  cases hp : s.pos with
  | start => exact absurd hp hs
  | initPart v1 =>
    obtain ⟨rfl, rfl⟩ : i = .init ∧ v1 = none := by simpa [hp, belongs] using hb
    exact .of_eq (execInit_part s none hp) (.initPart s hp)
  | initVersion part v1 =>
    obtain ⟨rfl, rfl⟩ : i = .init ∧ v1 = none := by simpa [hp, belongs] using hb
    exact .of_eq (execInit_version s part none hp) (.initVersion s part hp)
  | initFlushRx =>
    obtain rfl : i = .init := by simpa [hp, belongs] using hb
    exact .of_eq (execInit_flushRx s hp) (.initFlushRx s hp)
  | initFlushTx =>
    obtain rfl : i = .init := by simpa [hp, belongs] using hb
    exact .of_eq (execInit_flushTx s hp) (.initFlushTx s hp)
  | rregRead v1 =>
    cases i with
    | rreg a => exact .of_eq (execRreg_read a s v1 hp) (.rregRead s a v1 hp (by simpa [hp, belongs] using hb))
    | _ => simp [hp, belongs] at hb
  | rssiRead v1 => simp [hp, belongs] at hb
  | rssiConvert raw =>
    obtain rfl : i = .rssi := by simpa [hp, belongs] using hb
    exact .of_eq (execRssi_convert s raw hp) (.rssiConvert s raw hp)
  | sendEnter bytes p =>
    obtain ⟨rfl, hl⟩ : i = .send bytes.length ∧ bytes.length ≤ Config.TXBUF_SIZE := by simpa [hp, belongs] using hb
    exact .of_eq (execSend_enter _ s bytes p hp) (.sendEnter s bytes p hp hl)
  | sendBurst bytes =>
    obtain ⟨⟨rfl, h1⟩, hl⟩ : (i = .send bytes.length ∧ 1 ≤ bytes.length) ∧ bytes.length ≤ Config.TXBUF_SIZE := by
      simpa only [hp, belongs, Bool.and_eq_true, beq_iff_eq, decide_eq_true_eq] using hb
    exact .of_eq (execSend_burst _ s bytes hp) (.sendBurst s bytes hp h1 hl)
  | sendPoll v1 =>
    cases i with
    | send l => exact .of_eq (execSend_poll l s v1 hp) (.sendPoll s l v1 hp (by simpa [hp, belongs] using hb))
    | _ => simp [hp, belongs] at hb
  | recvCount v1 =>
    cases i with
    | recv l => exact .of_eq (execRecv_count l s v1 hp) (.recvCount s l v1 hp (by simpa [hp, belongs] using hb))
    | _ => simp [hp, belongs] at hb
  | recvBurst n =>
    cases i with
    | recv l =>
      obtain ⟨⟨h1, hn⟩, hl⟩ : (1 ≤ n ∧ n ≤ l) ∧ l ≤ Config.RXBUF_SIZE := by
        simpa only [hp, belongs, Bool.and_eq_true, decide_eq_true_eq] using hb
      exact .of_eq (execRecv_burst l s n hp) (.recvBurst s l n hp h1 hn hl)
    | _ => simp [hp, belongs] at hb
  | idleWait p =>
    obtain ⟨rfl, h⟩ : i = .idle ∧ p ≠ .strobe := by simpa [hp, belongs] using hb
    exact .of_eq (execIdle_wait s p hp) (.idleWait s p hp h)
  | rxonWait p =>
    obtain ⟨rfl, h⟩ : i = .rxon ∧ p ≠ .idle .strobe := by simpa [hp, belongs] using hb
    exact .of_eq (execRxon_wait s p hp) (.rxonWait s p hp h)
  | rxonOverflow =>
    obtain rfl : i = .rxon := by simpa [hp, belongs] using hb
    exact .of_eq (execRxon_overflow s hp) (.rxonOverflow s hp)
  | txonWait p =>
    obtain ⟨rfl, h⟩ : i = .txon ∧ p ≠ .idle .strobe := by simpa [hp, belongs] using hb
    exact .of_eq (execTxon_wait s p hp) (.txonWait s p hp h)

/-! The model fault. -/

theorem initIdentify_goesOn (part ver : Byte) (s : State) : goesOn (initIdentify part ver s) :=
  goes_ite (fun _ => goes_next _) (fun _ => goes_next _)

/-- Past its start a command never stops. -/
theorem OwnStep.goesOn {i : Instr} {s : State} {r : Result} (h : OwnStep i s r) : goesOn r := by
  cases h with
  | initPart | rregRead => exact goes_regRead fun _ _ => goes_next _
  | initVersion => exact goes_regRead fun _ _ => initIdentify_goesOn _ _ _
  | initFlushRx | initFlushTx | rxonOverflow => exact goes_strobe fun _ _ => goes_next _
  | rssiConvert => exact goes_next _
  | sendEnter | txonWait => exact goes_enterTx fun _ => goes_next _
  | sendBurst => exact goes_burstWrite fun _ => goes_next _
  | sendPoll => exact goes_runState fun _ _ => goes_ite (fun _ => goes_next _) (fun _ => goes_next _)
  | recvCount => exact goes_regRead fun _ _ => goes_recvCounted _ _ _
  | recvBurst => exact goes_burstRead fun _ _ => goes_next _
  | idleWait => exact goes_forceIdle fun _ => goes_next _
  | rxonWait => exact goes_enterRx fun _ => goes_next _

/-- A command that consumes a buffer begins by reading it, and goes on with whatever bytes it finds. -/
theorem startOk_consumes {i : Instr} {s : State} {b : Buf} {n : Nat} (h : firstError i s = none)
    (hc : consumes i = some (b, n)) : ∃ k, startOk i s = withBytes b n s k ∧ ∀ bytes, goesOn (k bytes) := by
  obtain ⟨-, hrange, hlen, -⟩ := firstError_none i s h
  cases i <;> cases hc
  case bwr a =>
    obtain ⟨-, he⟩ | ⟨-, -, he⟩ | ⟨x, he, -⟩ := writePlan_cases a n
    · simp [hrange] at he
    · simp [hlen] at he
    · exact ⟨_, by rw [startOk, he], fun _ => goes_burstWrite fun _ => goes_next _⟩
  case send => exact ⟨_, rfl, fun _ => goes_strobe fun _ _ => goes_next _⟩
  all_goals exact ⟨_, rfl, fun _ => goes_next _⟩

/-- A command that consumes no buffer goes on. -/
theorem startOk_goesOn {i : Instr} {s : State} (h : firstError i s = none) (hc : consumes i = none) :
    goesOn (startOk i s) := by
  obtain ⟨-, hrange, hlen, -⟩ := firstError_none i s h
  cases i <;> simp only [startOk]
  case nop | irqack => exact goes_next _
  case init | strobe => exact goes_strobe fun _ _ => goes_next _
  case rreg | rssi => exact goes_regRead fun _ _ => goes_next _
  case wreg => exact goes_txn fun _ _ _ => goes_next _
  case brd a l =>
    obtain ⟨-, he⟩ | ⟨-, -, he⟩ | ⟨n, he, -⟩ := readPlan_cases a l
    · simp [hrange] at he
    · simp [hlen] at he
    · rw [he]
      exact goes_burstRead fun _ _ => goes_next _
  case recv => exact goes_regRead fun _ _ => goes_recvCounted _ _ _
  case idle => exact goes_forceIdle fun _ => goes_next _
  case rxon => exact goes_enterRx fun _ => goes_next _
  case txon => exact goes_enterTx fun _ => goes_next _
  all_goals cases hc

/-- Settles O20: by what the command consumes at its start, by `OwnStep` past it. -/
theorem undefinedByteFaults : Obligations.UndefinedByteFaults := by
  refine ⟨fun i s hp h hd => ?_, fun i s b n j hp h hc hj hn hs => ?_, fun i s hb hs => (exec_ownStep hb hs).goesOn,
    fun s b j a hbusy hj ha hn => ?_⟩
  · rw [exec_start i s hp h]
    cases hc : consumes i with
    | none => exact startOk_goesOn h hc
    | some bn =>
      obtain ⟨b, n⟩ := bn
      obtain ⟨k, hk, hgo⟩ := startOk_consumes h hc
      rw [hk]
      exact goes_withBytes (by simpa [inputsDefined, hc] using hd) hgo
  · obtain ⟨k, hk, -⟩ := startOk_consumes h hc
    rw [exec_start i s hp h, hk, withBytes_undef hj hn hs]
  · refine State.hostRead8_legal s a _ hbusy ?_
    rw [State.peek8, ha, Buf.locate_base_add b j hj]
    simp [State.bufByte, hn, byteOfWord, State.drawn]

end Sys2Proof.Machine
end

section
/-! PROOF. The bus: a step at a bus position is one transaction, and no other step touches the bus (spec/40_register_arbiter.md R100 to R102). -/

namespace Sys2Proof.Machine

/-- The select line, the transceiver's answers and the observation of the bus are the same. -/
def SameBus (s t : State) : Prop :=
  t.sel = s.sel ∧ t.trace = s.trace ∧ t.answers = s.answers ∧ t.drawCount = s.drawCount

theorem ensures_sameBus_goto (s : State) (k : Pos) : Ensures (.next (s.goto k)) (SameBus s) :=
  .next ⟨rfl, rfl, rfl, rfl⟩

theorem ensures_sameBus_complete (s : State) : Ensures (.next s.complete) (SameBus s) := .next ⟨rfl, rfl, rfl, rfl⟩

theorem sameBus_stuckStep (at' : EnterPlace → Pos) (s : State) : SameBus s (stuckStep at' s) := by
  rw [stuckStep_eq]
  exact ⟨rfl, rfl, rfl, rfl⟩

theorem initIdentify_sameBus (part ver : Byte) (s : State) : Ensures (initIdentify part ver s) (SameBus s) :=
  .ite (fun _ => .next ⟨rfl, rfl, rfl, rfl⟩) (fun _ => .next ⟨rfl, rfl, rfl, rfl⟩)

theorem recvCounted_sameBus (l : Nat) (v : Byte) (s : State) : Ensures (recvCounted l v s) (SameBus s) :=
  .ite (fun _ => .next ⟨rfl, rfl, rfl, rfl⟩) (fun _ => ensures_sameBus_goto _ _)

/-- `r` is a transaction of at least one byte from state `s`, and what follows it leaves the bus alone. -/
def OneTxn (r : Result) (s : State) : Prop :=
  ∃ out k, out ≠ [] ∧ r = txn out s k ∧ ∀ ins u, Ensures (k ins u) (SameBus u)

section
variable {s : State} {r : Result}

theorem OneTxn.held (h : OneTxn r s) (hr : s.rdy = false) : r = .next s.hold := by
  obtain ⟨out, k, -, rfl, -⟩ := h
  exact txn_held _ _ _ hr

theorem OneTxn.ready (h : OneTxn r s) (hr : s.rdy = true) : Ensures r (fun t =>
    t.sel = .deasserted ∧ ∃ out, out ≠ [] ∧ t.trace = .txn out (s.received out.length) :: s.trace ∧
      t.answers = s.answers.drop out.length ∧ t.drawCount = s.drawCount + out.length) := by
  obtain ⟨out, k, hout, rfl, hk⟩ := h
  intro t ht
  rw [txn_ready _ _ _ hr] at ht
  obtain ⟨hsel, htrace, hans, hdraw⟩ := hk _ _ t ht
  exact ⟨hsel, out, hout, htrace, hans, hdraw⟩

theorem OneTxn.readOnce {hb : Byte} {k : Byte → State → Result} (hk : ∀ v u, Ensures (k v u) (SameBus u)) :
    OneTxn (readOnce hb s k) s :=
  ⟨_, _, List.cons_ne_nil _ _, rfl, fun _ _ => hk _ _⟩

theorem OneTxn.strobe {c : Byte} {k : Byte → State → Result} (hk : ∀ v u, Ensures (k v u) (SameBus u)) :
    OneTxn (strobe c s k) s :=
  ⟨_, _, List.cons_ne_nil _ _, rfl, fun _ _ => hk _ _⟩

theorem OneTxn.stableRead {hb : Byte} {v1 : Option Byte} {at' : Option Byte → Pos} {k : Byte → State → Result}
    (hk : ∀ v u, Ensures (k v u) (SameBus u)) : OneTxn (stableRead hb v1 at' s k) s := by
  refine .readOnce fun v u => ?_
  cases v1 with
  | none => exact ensures_sameBus_goto _ _
  | some x => exact .ite (fun _ => hk _ _) (fun _ => ensures_sameBus_goto _ _)

theorem OneTxn.regRead {a : Byte} {v1 : Option Byte} {at' : Option Byte → Pos} {k : Byte → State → Result}
    (hk : ∀ v u, Ensures (k v u) (SameBus u)) : OneTxn (regRead a v1 at' s k) s := by
  unfold Machine.regRead
  split
  · split
    · exact .stableRead hk
    · exact .readOnce hk
  · exact .readOnce hk

theorem OneTxn.forceIdle {p : IdlePlace} {at' : IdlePlace → Pos} {k : State → Result}
    (hk : ∀ u, Ensures (k u) (SameBus u)) : OneTxn (forceIdle p at' s k) s := by
  cases p with
  | strobe => exact .strobe fun _ _ => ensures_sameBus_goto _ _
  | poll v1 =>
    rw [Machine.forceIdle]
    exact .regRead fun _ _ => .ite (fun _ => hk _) (fun _ => ensures_sameBus_goto _ _)

theorem OneTxn.enterStrobe {c : Byte} {at' : EnterPlace → Pos} : OneTxn (enterStrobe c at' s) s :=
  .strobe fun _ _ => .next ⟨rfl, rfl, rfl, rfl⟩

theorem OneTxn.enterRx {p : EnterPlace} {at' : EnterPlace → Pos} {o : Pos} {k : State → Result}
    (hk : ∀ u, Ensures (k u) (SameBus u)) : OneTxn (enterRx p at' o s k) s := by
  cases p <;> rw [Machine.enterRx]
  case idle q => exact .forceIdle fun _ => ensures_sameBus_goto _ _
  case poll v1 =>
    exact .regRead fun _ _ => .ite (fun _ => hk _)
      (fun _ => .ite (fun _ => ensures_sameBus_goto _ _) (fun _ => .next (sameBus_stuckStep _ _)))
  case stuckFlush => exact .strobe fun _ _ => ensures_sameBus_goto _ _
  case strobe | stuckStrobe => exact .enterStrobe

theorem OneTxn.enterTx {p : EnterPlace} {at' : EnterPlace → Pos} {k : State → Result}
    (hk : ∀ u, Ensures (k u) (SameBus u)) : OneTxn (enterTx p at' s k) s := by
  cases p <;> rw [Machine.enterTx]
  case idle q => exact .forceIdle fun _ => ensures_sameBus_goto _ _
  case poll v1 => exact .regRead fun _ _ => .ite (fun _ => hk _) (fun _ => .next (sameBus_stuckStep _ _))
  case stuckFlush => exact .strobe fun _ _ => ensures_sameBus_goto _ _
  case strobe | stuckStrobe => exact .enterStrobe

theorem OneTxn.burstRead {a : Byte} {n : Nat} {k : List Byte → State → Result} (hn : 0 < n)
    (hk : ∀ v u, Ensures (k v u) (SameBus u)) : OneTxn (burstRead a n s k) s :=
  ⟨_, _, List.cons_ne_nil _ _, if_neg hn.ne', fun _ _ => hk _ _⟩

theorem OneTxn.burstWrite {a : Byte} {bytes : List Byte} {k : State → Result} (hn : 0 < bytes.length)
    (hk : ∀ u, Ensures (k u) (SameBus u)) : OneTxn (burstWrite a bytes s k) s :=
  ⟨_, _, List.cons_ne_nil _ _, if_neg (List.ne_nil_of_length_pos hn), fun _ _ => hk _⟩

end

/-- Past its start every step is a transaction, but for RSSI's conversion (R70). -/
theorem OwnStep.bus {i : Instr} {s : State} {r : Result} (h : OwnStep i s r) :
    (atBus i s = true ∧ OneTxn r s) ∨ (atBus i s = false ∧ Ensures r (SameBus s)) := by
  cases h with
  | initPart _ hp => exact .inl ⟨by simp [atBus, hp], .regRead fun _ _ => ensures_sameBus_goto _ _⟩
  | initVersion _ part hp => exact .inl ⟨by simp [atBus, hp], .regRead fun _ _ => initIdentify_sameBus _ _ _⟩
  | initFlushRx _ hp => exact .inl ⟨by simp [atBus, hp], .strobe fun _ _ => ensures_sameBus_goto _ _⟩
  | initFlushTx _ hp => exact .inl ⟨by simp [atBus, hp], .strobe fun _ _ => .next ⟨rfl, rfl, rfl, rfl⟩⟩
  | rregRead _ a v1 hp => exact .inl ⟨by simp [atBus, hp], .regRead fun _ _ => .next ⟨rfl, rfl, rfl, rfl⟩⟩
  | rssiConvert _ raw hp => exact .inr ⟨by simp [atBus, hp], .next ⟨rfl, rfl, rfl, rfl⟩⟩
  | sendEnter _ bytes p hp => exact .inl ⟨by simp [atBus, hp], .enterTx fun _ => ensures_sameBus_goto _ _⟩
  | sendBurst _ bytes hp h1 =>
    exact .inl ⟨by simp [atBus, hp, Nat.lt_of_succ_le h1], .burstWrite h1 fun _ => ensures_sameBus_goto _ _⟩
  | sendPoll _ l v1 hp =>
    exact .inl ⟨by simp [atBus, hp],
      .regRead fun _ _ => .ite (fun _ => ensures_sameBus_complete _) (fun _ => ensures_sameBus_goto _ _)⟩
  | recvCount _ l v1 hp => exact .inl ⟨by simp [atBus, hp], .regRead fun _ _ => recvCounted_sameBus _ _ _⟩
  | recvBurst _ l n hp h1 =>
    exact .inl ⟨by simp [atBus, hp, Nat.lt_of_succ_le h1], .burstRead h1 fun _ _ => .next ⟨rfl, rfl, rfl, rfl⟩⟩
  | idleWait _ p hp => exact .inl ⟨by simp [atBus, hp], .forceIdle fun _ => ensures_sameBus_complete _⟩
  | rxonWait _ p hp => exact .inl ⟨by simp [atBus, hp], .enterRx fun _ => ensures_sameBus_complete _⟩
  | rxonOverflow _ hp => exact .inl ⟨by simp [atBus, hp], .strobe fun _ _ => .next (sameBus_stuckStep _ _)⟩
  | txonWait _ p hp => exact .inl ⟨by simp [atBus, hp], .enterTx fun _ => ensures_sameBus_complete _⟩

/-! The start. -/

/-- Bytes that are read are all defined. -/
theorem bufReadAll_ok_defined {m : Memory} {b : Buf} {n : Nat} {vs : List Byte} (h : bufReadAll m b n = .ok vs) :
    (List.range n).all (fun j => (bufRead m b j).isSome) = true := by
  obtain ⟨ws, -, hl, hr⟩ | ⟨j, hj, -⟩ := bufReadAll_cases m b n
  · simp only [List.all_eq_true, List.mem_range]
    intro j hj
    simp [hr j (by omega)]
  · simp [hj] at h

/-- A command that consumes an undefined byte has no next state. -/
theorem startOk_undefined {i : Instr} {s : State} (h : firstError i s = none) (hd : inputsDefined i s = false)
    (P : State → Prop) : Ensures (startOk i s) P := by
  cases hc : consumes i with
  | none => simp [inputsDefined, hc] at hd
  | some bn =>
    obtain ⟨b, n⟩ := bn
    obtain ⟨k, hk, -⟩ := startOk_consumes h hc
    rw [hk]
    refine .withBytes fun bytes hok _ => ?_
    simp [inputsDefined, hc, bufReadAll_ok_defined hok] at hd

/-- DECODE stores nothing of the bus. -/
theorem decodeStore_sameBus (r : Option Decoded) (s : State) : SameBus s (decodeStore r s) := by
  cases r <;> exact ⟨rfl, rfl, rfl, rfl⟩

/-- A command that passes its checks and finds its bytes starts with a transaction, or leaves the bus alone; BWR
gives its warnings first (R142). -/
theorem startOk_bus {i : Instr} {s : State} (hp : s.pos = .start) (h : firstError i s = none)
    (hd : inputsDefined i s = true) :
    (atBus i s = true ∧ ∃ x, OneTxn (startOk i s) (s.warn x)) ∨
    (atBus i s = false ∧ Ensures (startOk i s) (SameBus s)) := by
  obtain ⟨-, hrange, hlen, -⟩ := firstError_none i s h
  have alone {r : Result} (hr : OneTxn r s) : ∃ x, OneTxn r (s.warn x) := ⟨none, hr⟩
  cases i <;> simp only [startOk]
  case nop => exact .inr ⟨by simp [atBus, hp], ensures_sameBus_complete _⟩
  case irqack => exact .inr ⟨by simp [atBus, hp], .next ⟨rfl, rfl, rfl, rfl⟩⟩
  case init =>
    exact .inl ⟨by simp [atBus, hp, h, hd], alone (.strobe fun _ _ => ensures_sameBus_goto _ _)⟩
  case rreg a => exact .inl ⟨by simp [atBus, hp, h, hd], alone (.regRead fun _ _ => .next ⟨rfl, rfl, rfl, rfl⟩)⟩
  case wreg a d =>
    exact .inl ⟨by simp [atBus, hp, h, hd],
      alone ⟨_, _, List.cons_ne_nil _ _, rfl, fun _ _ => ensures_sameBus_complete _⟩⟩
  case strobe c => exact .inl ⟨by simp [atBus, hp, h, hd], alone (.strobe fun _ _ => .next ⟨rfl, rfl, rfl, rfl⟩)⟩
  case rssi => exact .inl ⟨by simp [atBus, hp, h, hd], alone (.regRead fun _ _ => ensures_sameBus_goto _ _)⟩
  case brd a l =>
    obtain ⟨-, he⟩ | ⟨-, -, he⟩ | ⟨n, he, -, -, hn, -⟩ := readPlan_cases a l
    · simp [hrange] at he
    · simp [hlen] at he
    · rw [he]
      obtain rfl | hpos := Nat.eq_zero_or_pos n
      · exact .inr ⟨by simp [atBus, hp, hn.1 rfl], .next ⟨rfl, rfl, rfl, rfl⟩⟩
      · exact .inl ⟨by simp [atBus, hp, h, hd]; omega, alone (.burstRead hpos fun _ _ => .next ⟨rfl, rfl, rfl, rfl⟩)⟩
  case bwr a l =>
    obtain ⟨-, he⟩ | ⟨-, -, he⟩ | ⟨x, he, -⟩ := writePlan_cases a l
    · simp [hrange] at he
    · simp [hlen] at he
    · obtain ⟨bytes, hok, hl⟩ := bufReadAll_defined s.mem .txbuf l (by simpa [inputsDefined, consumes] using hd)
      simp only [he, withBytes_ok _ _ _ _ _ hok]
      obtain rfl | hpos := Nat.eq_zero_or_pos l
      · obtain rfl := List.length_eq_zero_iff.1 hl
        exact .inr ⟨by simp [atBus, hp], .next ⟨rfl, rfl, rfl, rfl⟩⟩
      · exact .inl ⟨by simp [atBus, hp, h, hd, hpos], x, .burstWrite (by omega) fun _ => ensures_sameBus_complete _⟩
  case send l =>
    obtain ⟨bytes, hok, -⟩ := bufReadAll_defined s.mem .txbuf l (by simpa [inputsDefined, consumes] using hd)
    rw [withBytes_ok _ _ _ _ _ hok]
    exact .inl ⟨by simp [atBus, hp, h, hd], alone (.strobe fun _ _ => ensures_sameBus_goto _ _)⟩
  case recv l => exact .inl ⟨by simp [atBus, hp, h, hd], alone (.regRead fun _ _ => recvCounted_sameBus _ _ _)⟩
  case idle => exact .inl ⟨by simp [atBus, hp, h, hd], alone (.forceIdle fun _ => ensures_sameBus_complete _)⟩
  case rxon => exact .inl ⟨by simp [atBus, hp, h, hd], alone (.enterRx fun _ => ensures_sameBus_complete _)⟩
  case txon => exact .inl ⟨by simp [atBus, hp, h, hd], alone (.enterTx fun _ => ensures_sameBus_complete _)⟩
  case decode l => exact .inr ⟨by simp [atBus, hp], .withBytes fun _ _ _ => .next (decodeStore_sameBus _ s)⟩
  case encode l => exact .inr ⟨by simp [atBus, hp], .withBytes fun _ _ _ => .next ⟨rfl, rfl, rfl, rfl⟩⟩
  case cksum l => exact .inr ⟨by simp [atBus, hp], .withBytes fun _ _ _ => .next ⟨rfl, rfl, rfl, rfl⟩⟩
  case compose l => exact .inr ⟨by simp [atBus, hp], .withBytes fun _ _ _ => .next ⟨rfl, rfl, rfl, rfl⟩⟩

/-- Each step of a command is at the bus and one transaction, or is not and leaves the bus alone. -/
theorem exec_bus {i : Instr} {s : State} (hb : belongs i s.pos = true) :
    (atBus i s = true ∧ ∃ x, OneTxn (exec i s) (s.warn x)) ∨ (atBus i s = false ∧ Ensures (exec i s) (SameBus s)) := by
  by_cases hp : s.pos = .start
  · cases h : firstError i s with
    | some e =>
      rw [exec_refused hp h]
      exact .inr ⟨by simp [atBus, hp, h], .next ⟨rfl, rfl, rfl, rfl⟩⟩
    | none =>
      rw [exec_start i s hp h]
      cases hd : inputsDefined i s with
      | true => exact startOk_bus hp h hd
      | false => exact .inr ⟨by simp [atBus, hp, hd], startOk_undefined h hd _⟩
  · obtain ⟨hbus, htxn⟩ | hquiet := (exec_ownStep hb hp).bus
    · exact .inl ⟨hbus, none, htxn⟩
    · exact .inr hquiet

/-- Settles O22: by `exec_bus`; the warnings BWR gives first are no part of the bus. -/
theorem oneTransactionPerStep : Obligations.OneTransactionPerStep := by
  intro i s t hb ht
  obtain ⟨hbus, x, htxn⟩ | ⟨hbus, hquiet⟩ := exec_bus hb
  · exact ⟨fun _ hr => htxn.ready hr t ht, fun hn => by simp [hbus] at hn⟩
  · exact ⟨fun hn => by simp [hbus] at hn, fun _ => hquiet t ht⟩

end Sys2Proof.Machine
end

section
/-! PROOF. Control: a step of a command ends it, or leaves it running at a position of its own with the stuck detector in range (spec/10_state.md R44, R46, spec/42_radio_state.md R172). -/

namespace Sys2Proof.Machine

/-- STUCK_ITER is below STUCK_LIMIT, but for a recovery under way at position `k` (R46, R172, log 11). -/
def StuckOk (n : Nat) (k : Pos) : Prop :=
  n < Config.STUCK_LIMIT ∨ (n = Config.STUCK_LIMIT ∧ inRecovery k = true)

theorem not_inRecovery {s : State} {k : Pos} (hp : s.pos = k) (hk : inRecovery k = false) :
    inRecovery s.pos = false := by
  rwa [hp]

theorem StuckOk.below {n : Nat} {k : Pos} (h : StuckOk n k) (hk : inRecovery k = false) : n < Config.STUCK_LIMIT := by
  simpa [StuckOk, hk] using h

/-- Where a step of command `i` leaves the sequencer. -/
inductive Control (i : Instr) (s t : State) : Prop where
  | ended (hseq : t.seq = .idle) (hbusy : t.status.busy = false) (hn : t.stuckIter = s.stuckIter)
      (hr : inRecovery s.pos = false)
  | runs (k : Pos) (x : Option Warning) (hseq : t.seq = s.seq.goto k) (hk : belongs i k = true)
      (hstatus : t.status = s.status.warned x) (hstuck : StuckOk s.stuckIter s.pos → StuckOk t.stuckIter k)

section
variable {i : Instr} {s u : State}

theorem Control.complete (hr : inRecovery s.pos = false) (hn : u.stuckIter = s.stuckIter) : Control i s u.complete :=
  .ended rfl rfl hn hr

theorem Control.raiseErr {e : ErrCode} (hr : inRecovery s.pos = false) (hn : u.stuckIter = s.stuckIter) :
    Control i s (u.raiseErr e) :=
  .ended rfl rfl hn hr

/-- A move that leaves the count alone, and a recovery only for another place of it. -/
theorem Control.goto {k : Pos} (hk : belongs i k = true) (hr : inRecovery s.pos = true → inRecovery k = true)
    (hseq : u.seq = s.seq) (hstatus : u.status = s.status) (hn : u.stuckIter = s.stuckIter) : Control i s (u.goto k) :=
  .runs k none (congrArg (Seq.goto · k) hseq) hk hstatus fun h => by
    rw [State.goto_stuckIter, hn]
    exact h.imp_right fun ⟨hl, hp⟩ => ⟨hl, hr hp⟩

theorem State.seq_goto_pos (s : State) : s.seq.goto s.pos = s.seq := by
  unfold State.pos
  cases s.seq <;> rfl

theorem Control.warn_hold (x : Option Warning) (hb : belongs i s.pos = true) : Control i s (s.warn x).hold :=
  .runs s.pos x s.seq_goto_pos.symm hb rfl id

theorem Control.hold (hb : belongs i s.pos = true) : Control i s s.hold := .warn_hold none hb

/-- The first poll after a strobe that sets the count to 0. -/
theorem Control.reset {k : Pos} (hk : belongs i k = true) (hseq : u.seq = s.seq) (hstatus : u.status = s.status) :
    Control i s ((u.setStuck 0).goto k) :=
  .runs k none (congrArg (Seq.goto · k) hseq) hk hstatus fun _ => .inl (by simp)

end

/-- The positions `at'` of command `i` are those of a wait that enters RX or TX. -/
structure EnterWait (i : Instr) (at' : EnterPlace → Pos) : Prop where
  own : ∀ q, q ≠ .idle .strobe → belongs i (at' q) = true
  recovery : ∀ q, inRecovery (at' q) = true ↔ q = .stuckFlush ∨ q = .stuckStrobe

theorem enterWait_rxon : EnterWait .rxon .rxonWait where
  own q hq := by simpa [belongs] using hq
  recovery q := by cases q <;> simp [inRecovery]

theorem enterWait_txon : EnterWait .txon .txonWait where
  own q hq := by simpa [belongs] using hq
  recovery q := by cases q <;> simp [inRecovery]

theorem enterWait_send (bytes : List Byte) (hl : bytes.length ≤ Config.TXBUF_SIZE) :
    EnterWait (.send bytes.length) (.sendEnter bytes) where
  own q _ := by simpa [belongs] using hl
  recovery q := by cases q <;> simp [inRecovery]

section
variable {i : Instr} {at' : EnterPlace → Pos} {s : State} {p : EnterPlace} {k : State → Result}

/-- A poll that is counted goes to the recovery at the 200th and below it polls again (R172). -/
theorem Control.stuckStep (hw : EnterWait i at') (hr : inRecovery s.pos = false) (out : List Byte) :
    Control i s (stuckStep at' (s.exchange out)) := by
  rw [stuckStep_eq]
  have own : belongs i (at' (if s.stuckIter + 1 = 200 then .stuckFlush else .poll none)) = true := by
    split <;> exact hw.own _ (by simp)
  refine .runs _ none rfl own rfl fun h => ?_
  have hbelow := h.below hr
  simp only [StuckOk, State.goto_stuckIter, State.setStuck_stuckIter, State.exchange_stuckIter, Config.STUCK_LIMIT,
    hw.recovery] at hbelow ⊢
  by_cases hlast : s.stuckIter + 1 = 200
  · simp [hlast]
  · exact .inl (by omega)

variable (hw : EnterWait i at') (hp : inRecovery s.pos = true ↔ p = .stuckFlush ∨ p = .stuckStrobe)
include hw hp

theorem Control.enterPlace {q : EnterPlace} (out : List Byte) (hs : p ≠ .stuckStrobe) (hq : q ≠ .idle .strobe)
    (hrec : q = .stuckStrobe ↔ p = .stuckFlush) : Control i s ((s.exchange out).goto (at' q)) :=
  .goto (hw.own q hq) (fun h => (hw.recovery q).2 (.inr (hrec.2 ((hp.1 h).resolve_right hs)))) rfl rfl rfl

variable (hb : belongs i s.pos = true)
include hb

theorem ensures_enterTx_control (hk : ∀ out, inRecovery s.pos = false → Ensures (k (s.exchange out)) (Control i s)) :
    Ensures (enterTx p at' s k) (Control i s) := by
  have polling {v} (h : p = .poll v) : inRecovery s.pos = false := by simpa [h] using hp
  exact .enterTx (fun _ v out hv _ => hk out (polling hv))
    (fun _ q out _ hs hq _ hrec => .enterPlace hw hp out hs hq hrec)
    (fun _ out _ => .reset (hw.own _ (by simp)) rfl rfl) (fun _ v out hv _ => .stuckStep hw (polling hv) out)
    (fun _ => .hold hb)

theorem ensures_enterRx_control {o : Pos} (ho : belongs i o = true)
    (hk : ∀ out, inRecovery s.pos = false → Ensures (k (s.exchange out)) (Control i s)) :
    Ensures (enterRx p at' o s k) (Control i s) := by
  have polling {v} (h : p = .poll v) : inRecovery s.pos = false := by simpa [h] using hp
  exact .enterRx (fun _ v out hv _ => hk out (polling hv))
    (fun _ q out _ hs hq _ hrec => .enterPlace hw hp out hs hq hrec)
    (fun _ out _ => .reset (hw.own _ (by simp)) rfl rfl) (fun _ v out hv _ => .stuckStep hw (polling hv) out)
    (fun _ v out hv _ => .goto ho (by simp [polling hv]) rfl rfl rfl) (fun _ => .hold hb)

end

section
variable {i : Instr} {s : State}

/-! The other operations, outside a recovery. -/

theorem ensures_strobe_control {c : Byte} {k : Byte → State → Result} (hb : belongs i s.pos = true)
    (hk : ∀ v out, Ensures (k v (s.exchange out)) (Control i s)) : Ensures (strobe c s k) (Control i s) :=
  .strobe (fun _ => hk _ _) (fun _ => .hold hb)

theorem ensures_move_control {k : Pos} (hr : inRecovery s.pos = false) (hk : belongs i k = true) (out : List Byte) :
    Ensures (.next ((s.exchange out).goto k)) (Control i s) :=
  .next (.goto hk (by simp [hr]) rfl rfl rfl)

variable (hb : belongs i s.pos = true) (hr : inRecovery s.pos = false)
include hb hr

theorem ensures_regRead_control {a : Byte} {v1 : Option Byte} {at' : Option Byte → Pos} {k : Byte → State → Result}
    (hat : a ∈ Config.GLITCH_SET → ∀ v, belongs i (at' v) = true)
    (hk : ∀ v out, Ensures (k v (s.exchange out)) (Control i s)) : Ensures (regRead a v1 at' s k) (Control i s) :=
  .regRead (fun _ _ => hk _ _) (fun _ ha _ v => .goto (hat ha v) (by simp [hr]) rfl rfl rfl) (fun _ => .hold hb)

theorem ensures_forceIdle_control {p : IdlePlace} {at' : IdlePlace → Pos} {k : State → Result}
    (hat : ∀ v, belongs i (at' (.poll v)) = true)
    (hk : ∀ out, Ensures (k (s.exchange out)) (Control i s)) : Ensures (forceIdle p at' s k) (Control i s) :=
  .forceIdle (fun _ _ out _ => hk out) (fun _ _ v _ => .goto (hat v) (by simp [hr]) rfl rfl rfl) (fun _ => .hold hb)

end

theorem belongs_sendAfterEnter {bytes : List Byte} (hl : bytes.length ≤ Config.TXBUF_SIZE) :
    belongs (.send bytes.length) (sendAfterEnter bytes) = true := by
  unfold sendAfterEnter
  split
  · simpa [belongs] using hl
  next hne => simpa [belongs, Nat.one_le_iff_ne_zero, hne] using hl

theorem recvCounted_control {l : Nat} {s : State} (hr : inRecovery s.pos = false) (hl : l ≤ Config.RXBUF_SIZE)
    (v : Byte) (out : List Byte) : Ensures (recvCounted l v (s.exchange out)) (Control (.recv l) s) := by
  refine .ite (fun _ => .next (.complete hr rfl)) (fun hn => .next (.goto ?_ (by simp [hr]) rfl rfl rfl))
  simp only [belongs, Bool.and_eq_true, decide_eq_true_eq]
  omega

theorem initIdentify_control {s : State} (hr : inRecovery s.pos = false) (part ver : Byte) (out : List Byte) :
    Ensures (initIdentify part ver (s.exchange out)) (Control .init s) :=
  .ite (fun _ => .next (.raiseErr hr rfl)) (fun _ => .next (.goto rfl (by simp [hr]) rfl rfl rfl))

theorem OwnStep.control {i : Instr} {s : State} {r : Result} (h : OwnStep i s r) (hb : belongs i s.pos = true) :
    Ensures r (Control i s) := by
  cases h with
  | initPart _ hp =>
    have hr := not_inRecovery hp rfl
    exact ensures_regRead_control hb hr (fun ha => absurd ha (by decide)) fun _ out => ensures_move_control hr rfl out
  | initVersion _ part hp =>
    have hr := not_inRecovery hp rfl
    exact ensures_regRead_control hb hr (fun ha => absurd ha (by decide))
      fun v out => initIdentify_control hr part v out
  | initFlushRx _ hp =>
    have hr := not_inRecovery hp rfl
    exact ensures_strobe_control hb fun _ out => ensures_move_control hr rfl out
  | initFlushTx _ hp =>
    have hr := not_inRecovery hp rfl
    exact ensures_strobe_control hb fun _ _ => .next (.complete hr rfl)
  | rregRead _ a v1 hp ha =>
    have hr := not_inRecovery hp rfl
    exact ensures_regRead_control hb hr (fun _ _ => by simpa [belongs] using ha) fun _ _ => .next (.complete hr rfl)
  | rssiConvert _ raw hp =>
    have hr := not_inRecovery hp rfl
    exact .next (.complete hr rfl)
  | sendEnter _ bytes p hp hl =>
    have hw := enterWait_send bytes hl
    exact ensures_enterTx_control hw (by rw [hp]; exact hw.recovery p) hb
      fun out hr => ensures_move_control hr (belongs_sendAfterEnter hl) out
  | sendBurst _ bytes hp h1 hl =>
    have hr := not_inRecovery hp rfl
    have hk : belongs (.send bytes.length) (.sendPoll none) = true := by simpa [belongs] using hl
    exact .burstWrite (fun _ => .next (.goto hk (by simp [hr]) rfl rfl rfl))
      (fun _ _ => ensures_move_control hr hk _) (fun _ _ => .hold hb)
  | sendPoll _ l v1 hp hl =>
    have hr := not_inRecovery hp rfl
    have hk (v) : belongs (.send l) (.sendPoll v) = true := by simpa [belongs] using hl
    exact ensures_regRead_control hb hr (fun _ => hk) fun _ out =>
      .ite (fun _ => .next (.complete hr rfl)) (fun _ => ensures_move_control hr (hk none) out)
  | recvCount _ l v1 hp hl =>
    have hr := not_inRecovery hp rfl
    exact ensures_regRead_control hb hr (fun _ _ => by simpa [belongs] using hl) (recvCounted_control hr hl)
  | recvBurst _ l n hp h1 hn hl =>
    have hr := not_inRecovery hp rfl
    exact .burstRead (fun _ => .next (.complete hr rfl)) (fun _ _ _ _ => .next (.complete hr rfl)) (fun _ _ => .hold hb)
  | idleWait _ p hp =>
    have hr := not_inRecovery hp rfl
    exact ensures_forceIdle_control hb hr (fun _ => by simp [belongs]) fun _ => .next (.complete hr rfl)
  | rxonWait _ p hp =>
    exact ensures_enterRx_control enterWait_rxon (by rw [hp]; exact enterWait_rxon.recovery p) hb rfl
      fun _ hr => .next (.complete hr rfl)
  | rxonOverflow _ hp =>
    have hr := not_inRecovery hp rfl
    exact ensures_strobe_control hb fun _ out => .next (.stuckStep enterWait_rxon hr out)
  | txonWait _ p hp =>
    exact ensures_enterTx_control enterWait_txon (by rw [hp]; exact enterWait_txon.recovery p) hb
      fun _ hr => .next (.complete hr rfl)

theorem startOk_control {i : Instr} {s : State} (hp : s.pos = .start) (h : firstError i s = none) :
    Ensures (startOk i s) (Control i s) := by
  obtain ⟨-, hrange, hlen, -⟩ := firstError_none i s h
  have hb : belongs i s.pos = true := by rw [hp]; rfl
  have hr := not_inRecovery hp rfl
  have hidle :
      inRecovery s.pos = true ↔ EnterPlace.idle .strobe = .stuckFlush ∨ EnterPlace.idle .strobe = .stuckStrobe := by
    simp [hr]
  cases i <;> simp only [startOk]
  case nop | irqack => exact .next (.complete hr rfl)
  case init => exact ensures_strobe_control hb fun _ out => ensures_move_control hr rfl out
  case rreg a =>
    exact ensures_regRead_control hb hr (fun ha _ => by simpa [belongs] using ha) fun _ _ => .next (.complete hr rfl)
  case wreg a d => exact .txn (fun _ => .next (.complete hr rfl)) (fun _ => .hold hb)
  case strobe c => exact ensures_strobe_control hb fun _ _ => .next (.complete hr rfl)
  case rssi =>
    exact ensures_regRead_control hb hr (fun ha => absurd ha (by decide)) fun _ out => ensures_move_control hr rfl out
  case brd a l =>
    obtain ⟨-, he⟩ | ⟨-, -, he⟩ | ⟨n, he, -⟩ := readPlan_cases a l
    · simp [hrange] at he
    · simp [hlen] at he
    · rw [he]
      exact .burstRead (fun _ => .next (.complete hr rfl)) (fun _ _ _ _ => .next (.complete hr rfl))
        (fun _ _ => .hold hb)
  case bwr a l =>
    obtain ⟨-, he⟩ | ⟨-, -, he⟩ | ⟨x, he, -⟩ := writePlan_cases a l
    · simp [hrange] at he
    · simp [hlen] at he
    · rw [he]
      exact .withBytes fun _ _ _ => .burstWrite (fun _ => .next (.complete hr rfl))
        (fun _ _ => .next (.complete hr rfl)) (fun _ _ => .warn_hold x hb)
  case send l =>
    refine .withBytes fun bytes _ hl => ensures_strobe_control hb fun _ out => ensures_move_control hr ?_ out
    simpa [belongs, hl, lengthError] using hlen
  case recv l =>
    have hl : l ≤ Config.RXBUF_SIZE := by simpa [lengthError] using hlen
    exact ensures_regRead_control hb hr (fun _ _ => by simpa [belongs] using hl) (recvCounted_control hr hl)
  case idle => exact ensures_forceIdle_control hb hr (fun _ => by simp [belongs]) fun _ => .next (.complete hr rfl)
  case rxon => exact ensures_enterRx_control enterWait_rxon hidle hb rfl fun _ hr => .next (.complete hr rfl)
  case txon => exact ensures_enterTx_control enterWait_txon hidle hb fun _ hr => .next (.complete hr rfl)
  case decode l =>
    refine .withBytes fun frame _ _ => .next (.complete hr ?_)
    cases codecDecode frame <;> rfl
  case encode | cksum | compose => exact .withBytes fun _ _ _ => .next (.complete hr rfl)

theorem exec_control {i : Instr} {s : State} (hb : belongs i s.pos = true) : Ensures (exec i s) (Control i s) := by
  by_cases hp : s.pos = .start
  · cases h : firstError i s with
    | some e =>
      rw [exec_refused hp h]
      exact .next (.raiseErr (by rw [hp]; rfl) rfl)
    | none =>
      rw [exec_start i s hp h]
      exact startOk_control hp h
  · exact (exec_ownStep hb hp).control hb

end Sys2Proof.Machine
end

section
/-! PROOF. The other agents, and the invariant of the machine (spec/10_state.md R20 to R46, spec/60_exceptions.md R310, R311). -/

namespace Sys2Proof.Machine

/-! What a host access can do. -/

/-- The effect of a host access: an observation and perhaps a violation at any time, a write only while BUSY = 0. -/
inductive HostEffect (s : State) : State → Prop where
  | observed (v : Bool) (n : Nat) (tr : List Obs) (h : s.status.hviol = true → v = true) :
    HostEffect s { s with status := { s.status with hviol := v }, drawCount := n, trace := tr }
  | issued (w : Word) (hb : s.status.busy = false) : HostEffect s (s.issue w)
  | address (x : BitVec 24) (hb : s.status.busy = false) :
    HostEffect s { s with ownAddr := x, status := { s.status with addrSet := true } }
  | counter (x : Byte) (hb : s.status.busy = false) : HostEffect s { s with rollCnt := x }
  | stored (b : Buf) (j : Nat) (vs : List Byte) (hb : s.status.busy = false) (hl : j + vs.length ≤ b.size) :
    HostEffect s { s with mem := bufWriteFrom s.mem b j vs }

theorem HostEffect.violate (s : State) : HostEffect s s.violate := .observed true s.drawCount s.trace fun _ => rfl

theorem hostRead8_effect (s : State) (a : HostAddr) : HostEffect s (s.hostRead8 a) := by
  rw [State.hostRead8, State.violateIf_eq]
  exact .observed _ _ _ fun h => by simp [h]

theorem hostRead32_effect (s : State) (a : HostAddr) : HostEffect s (s.hostRead32 a) := by
  rw [State.hostRead32, State.violateIf_eq]
  exact .observed _ _ _ fun h => by simp [h]

theorem hostWrite8_effect (s : State) (a : HostAddr) (v : Byte) : HostEffect s (s.hostWrite8 a v) := by
  unfold State.hostWrite8
  split_ifs with hb
  · exact .violate s
  · rw [Bool.not_eq_true] at hb
    split
    next b j hloc =>
      split_ifs
      · exact .stored b j [v] hb (Buf.locate_eq_some _ _ _ hloc).2
      · exact .violate s
    · exact .violate s

theorem regWrite32_effect (s : State) (n : Nat) (v : Word) (hb : s.status.busy = false) :
    HostEffect s (s.regWrite32 n v) := by
  unfold State.regWrite32
  split
  · exact .issued v hb
  · exact .address _ hb
  · exact .counter _ hb
  · exact .violate s

theorem hostWrite32_effect (s : State) (a : HostAddr) (v : Word) : HostEffect s (s.hostWrite32 a v) := by
  unfold State.hostWrite32
  split_ifs with hb
  · exact .violate s
  · exact .violate s
  · exact regWrite32_effect s _ v (by simpa using hb)
  · split
    next b j hloc =>
      split_ifs with hw
      · simp only [Bool.and_eq_true, decide_eq_true_eq] at hw
        exact .stored b j _ (by simpa using hb) hw.2
      · exact .violate s
    · exact .violate s

theorem hostAccess_effect (s : State) (x : HostAccess) : HostEffect s (s.hostAccess x) := by
  cases x with
  | read8 a => exact hostRead8_effect s a
  | read32 a => exact hostRead32_effect s a
  | write8 a v => exact hostWrite8_effect s a v
  | write32 a v => exact hostWrite32_effect s a v

theorem HostEffect.hviol {s t : State} (h : HostEffect s t) (hv : s.status.hviol = true) : t.status.hviol = true := by
  cases h with
  | observed v n tr h => exact h hv
  | _ => exact hv

/-! HVIOL. -/

theorem exec_hviol {i : Instr} {s t : State} (h : exec i s = .next t) : t.status.hviol = s.status.hviol := by
  obtain ⟨-, -, -, -, -, hv, -⟩ := commandsChangeOnlyTheirRegisters i s t h
  exact hv

theorem sequencerStep_hviol (s : State) : Ensures s.sequencerStep (fun t => t.status.hviol = s.status.hviol) := by
  unfold State.sequencerStep
  split
  · exact .next rfl
  · split
    · exact fun t h => exec_hviol h
    · exact .next rfl

theorem agentStep_hviol (s : State) (e : Event) (he : e ≠ .reset) (hv : s.status.hviol = true) :
    Ensures (s.agentStep e) (fun t => t.status.hviol = true) := by
  cases e with
  | host x => exact .next ((hostAccess_effect s x).hviol hv)
  | sequencer => exact fun t h => (sequencerStep_hviol s t h).trans hv
  | edge => exact .next hv
  | reset => exact absurd rfl he
  | ready b => exact .next hv

/-- Settles O57: by the agent that moves. -/
theorem hviolIsSticky : Obligations.HviolIsSticky := by
  intro s t ht hv hnot
  unfold step at ht
  split at ht
  · exact (sequencerStep_hviol s t ht).trans hv
  next e rest hin => exact agentStep_hviol { s with inputs := rest } e (fun he => hnot rest (he ▸ hin)) hv t ht

/-! The invariant on the parts of the state. -/

/-- The state without what the invariant does not speak of. -/
def State.invPart (s : State) : State :=
  { s with status := { s.status with hviol := false }, irqFlag := false, irqCnt := 0, rdy := true, inputs := [],
           drawCount := 0, trace := [] }

theorem State.inv_invPart (s : State) : s.invPart.Inv ↔ s.Inv :=
  ⟨fun h => ⟨h.memory, h.busy, h.running, h.place, h.checked, h.lastop, h.select, h.stuck, h.lens, h.rssi, h.decoded⟩,
   fun h => ⟨h.memory, h.busy, h.running, h.place, h.checked, h.lastop, h.select, h.stuck, h.lens, h.rssi, h.decoded⟩⟩

theorem State.Inv.of_invPart_eq {s t : State} (h : s.Inv) (he : t.invPart = s.invPart) : t.Inv :=
  t.inv_invPart.1 (he ▸ s.inv_invPart.2 h)

/-- What the invariant says of the registers and the buffers alone. -/
structure State.DataInv (s : State) : Prop where
  memory : s.mem.wf = true
  lastop : s.status.lastop = opField s.cmd
  lens : s.lens.Within
  rssi : RssiInRange s.rssiDbm
  decoded : s.status.decValid = true → s.status.pktFound = true

theorem State.Inv.data {s : State} (h : s.Inv) : s.DataInv := ⟨h.memory, h.lastop, h.lens, h.rssi, h.decoded⟩

/-- With the sequencer idle the invariant is about data, but for SEL and the count. -/
theorem State.DataInv.inv_of_idle {s : State} (h : s.DataInv) (hseq : s.seq = .idle) (hbusy : s.status.busy = false)
    (hsel : s.sel = .deasserted) (hn : s.stuckIter < Config.STUCK_LIMIT) : s.Inv where
  memory := h.memory
  busy := by simp [hseq, hbusy]
  running hne := absurd hseq hne
  place w k hk := by simp [hseq] at hk
  checked w k i hk := by simp [hseq] at hk
  lastop := h.lastop
  select hs := by simp [hsel] at hs
  stuck := .inl hn
  lens := h.lens
  rssi := h.rssi
  decoded := h.decoded

section
variable {s : State} (h : s.Inv)
include h

theorem State.Inv.stuckOk : StuckOk s.stuckIter s.pos := h.stuck

theorem State.Inv.sel_deasserted (hp : ∀ w k i, s.seq = .running w k → decode w = .ok i → atBus i s = false) :
    s.sel = .deasserted := by
  cases hs : s.sel with
  | deasserted => rfl
  | asserted =>
    obtain ⟨w, k, i, hseq, hd, hbus⟩ := h.select hs
    simp [hp w k i hseq hd] at hbus

/-- While BUSY = 0 the sequencer is idle, SEL is deasserted and the count is below its limit. -/
theorem State.Inv.of_not_busy (hb : s.status.busy = false) :
    s.seq = .idle ∧ s.sel = .deasserted ∧ s.stuckIter < Config.STUCK_LIMIT := by
  have hseq : s.seq = .idle := by
    by_contra hne
    simp [h.busy.2 hne] at hb
  exact ⟨hseq, h.sel_deasserted (fun w k i hk => by simp [hseq] at hk),
    h.stuckOk.below (by simp [State.pos, hseq, inRecovery])⟩

/-! The other agents keep the invariant. -/

theorem State.Inv.issue (w : Word) (hb : s.status.busy = false) : (s.issue w).Inv := by
  obtain ⟨-, hsel, hn⟩ := h.of_not_busy hb
  refine ⟨h.memory, by simp, by simp, fun w' k hk => ?_, fun w' k i hk _ hs => ?_, rfl, by simp [hsel], .inl hn, h.lens,
    h.rssi, h.decoded⟩ <;> cases hk
  · refine ⟨rfl, ?_⟩
    cases decode w <;> rfl
  · exact absurd rfl hs

theorem State.Inv.host {t : State} (ht : HostEffect s t) : t.Inv := by
  cases ht with
  | observed v n tr => exact h.of_invPart_eq rfl
  | issued w hb => exact h.issue w hb
  | address x hb =>
    obtain ⟨hseq, hsel, hn⟩ := h.of_not_busy hb
    exact State.DataInv.inv_of_idle ⟨h.memory, h.lastop, h.lens, h.rssi, h.decoded⟩ hseq hb hsel hn
  | counter x hb =>
    obtain ⟨hseq, hsel, hn⟩ := h.of_not_busy hb
    exact State.DataInv.inv_of_idle ⟨h.memory, h.lastop, h.lens, h.rssi, h.decoded⟩ hseq hb hsel hn
  | stored b j vs hb hl =>
    obtain ⟨hseq, hsel, hn⟩ := h.of_not_busy hb
    exact State.DataInv.inv_of_idle ⟨bufWriteFrom_wf _ _ _ _ hl h.memory, h.lastop, h.lens, h.rssi, h.decoded⟩ hseq hb
      hsel hn

end

theorem State.resetBlock_inv (s : State) : s.resetBlock.Inv := by
  have hlast : Status.reset.lastop = opField State.reset.cmd := by decide
  have hlens : State.reset.lens.Within := by simp [Lens.Within, State.reset]
  exact State.DataInv.inv_of_idle ⟨rfl, hlast, hlens, .inl rfl, nofun⟩ rfl rfl rfl (Nat.zero_lt_succ _)

/-! The sequencer keeps the invariant. -/

section
variable {i : Instr} {s t : State}

theorem exec_dataInv (hb : belongs i s.pos = true) (h : s.DataInv) (ht : exec i s = .next t) : t.DataInv := by
  obtain ⟨u, hu, hregs⟩ := exec_footprint i s t ht
  obtain ⟨hcmd, -, -, -, -, -, -, hlast, -⟩ := commandsChangeOnlyTheirRegisters i s t ht
  have hlastop : t.status.lastop = opField t.cmd := by rw [hlast, hcmd, h.lastop]
  rw [State.eq_of_regs hregs] at hlastop ⊢
  exact ⟨hu.mem_wf hb h.memory, hlastop, hu.lens_within hb h.lens, hu.rssi_inRange h.rssi, hu.decoded_found h.decoded⟩

/-- The outcome of the checks does not depend on what the command does. -/
theorem exec_firstError (ht : exec i s = .next t) : firstError i t = firstError i s := by
  obtain ⟨-, -, -, -, -, -, haddr, -, hchip, -⟩ := commandsChangeOnlyTheirRegisters i s t ht
  by_cases hi : i = .init
  · subst hi
    rfl
  · simp [firstError, haddr, (hchip hi).2]

theorem atBus_warn_hold (i : Instr) (s : State) (x : Option Warning) : atBus i (s.warn x).hold = atBus i s := by
  simp [atBus, State.pos, firstError, inputsDefined]

/-- SEL is asserted after a step only by the hold of a transaction. -/
theorem exec_asserted (hb : belongs i s.pos = true) (ht : exec i s = .next t) (hsel : t.sel = .asserted)
    (h : s.sel = .asserted → atBus i s = true) : t.seq = s.seq ∧ atBus i t = true := by
  obtain ⟨hbus, x, htxn⟩ | ⟨hbus, hquiet⟩ := exec_bus hb
  · cases hr : s.rdy with
    | true =>
      obtain ⟨hoff, -⟩ := htxn.ready hr t ht
      simp [hoff] at hsel
    | false =>
      rw [htxn.held hr] at ht
      cases ht
      exact ⟨rfl, (atBus_warn_hold i s x).trans hbus⟩
  · obtain ⟨hsame, -⟩ := hquiet t ht
    simp [h (hsame ▸ hsel)] at hbus

/-- A step of the running command keeps the invariant. -/
theorem State.Inv.exec {w : Word} {k : Pos} (h : s.Inv) (hseq : s.seq = .running w k) (hd : decode w = .ok i)
    (ht : exec i s = .next t) : t.Inv := by
  have hpos : s.pos = k := s.pos_running w k hseq
  obtain ⟨hw, hplace⟩ := h.place w k hseq
  have hb : belongs i s.pos = true := by simpa [hd, hpos] using hplace
  have hsel (hs : s.sel = .asserted) : atBus i s = true := by
    obtain ⟨w', k', i', hseq', hd', hbus⟩ := h.select hs
    obtain ⟨rfl, -⟩ := Seq.running.inj (hseq'.symm.trans hseq)
    obtain rfl := Except.ok.inj (hd'.symm.trans hd)
    exact hbus
  have hdata := exec_dataInv hb h.data ht
  obtain ⟨hcmd, -⟩ := commandsChangeOnlyTheirRegisters i s t ht
  obtain ⟨hdone, herr⟩ := h.running (by simp [hseq])
  cases exec_control hb t ht with
  | ended hidle hbusy hn hr =>
    refine hdata.inv_of_idle hidle hbusy ?_ (hn ▸ h.stuckOk.below hr)
    cases hs : t.sel with
    | deasserted => rfl
    | asserted =>
      obtain ⟨hsame, -⟩ := exec_asserted hb ht hs hsel
      simp [hidle, hseq] at hsame
  | runs k' x hgoto hk hstatus hstuck =>
    replace hgoto : t.seq = .running w k' := by rw [hgoto, hseq, Seq.goto_running]
    have hpos' : t.pos = k' := t.pos_running w k' hgoto
    refine ⟨hdata.memory, ?_, ?_, ?_, ?_, hdata.lastop, ?_, ?_, hdata.lens, hdata.rssi, hdata.decoded⟩
    · simp [hgoto, hstatus, h.busy, hseq]
    · simp [hstatus, hdone, herr]
    · intro w' k'' hk''
      cases hgoto.symm.trans hk''
      exact ⟨hw.trans hcmd.symm, by simpa [hd] using hk⟩
    · intro w' k'' i' hk'' hd' hne
      cases hgoto.symm.trans hk''
      cases hd.symm.trans hd'
      rw [exec_firstError ht]
      by_cases hstart : k = .start
      · cases he : firstError i s with
        | none => rfl
        | some e =>
          rw [exec_refused (hpos.trans hstart) he] at ht
          cases ht
          simp at hgoto
      · exact h.checked w k i hseq hd hstart
    · exact fun hs => ⟨w, k', i, hgoto, hd, (exec_asserted hb ht hs hsel).2⟩
    · exact hpos' ▸ hstuck h.stuckOk

theorem State.Inv.sequencerStep (h : s.Inv) (ht : s.sequencerStep = .next t) : t.Inv := by
  unfold State.sequencerStep at ht
  split at ht
  · cases ht
    exact h
  next w k hseq =>
    split at ht
    next i hd => exact h.exec hseq hd ht
    next e hd =>
      cases ht
      obtain ⟨-, hplace⟩ := h.place w k hseq
      have hstart : k = .start := by simpa [hd] using hplace
      refine State.DataInv.inv_of_idle ⟨h.memory, h.lastop, h.lens, h.rssi, h.decoded⟩ rfl rfl
        (h.sel_deasserted fun w' k' i hk hd' => ?_) (h.stuckOk.below ?_)
      · obtain ⟨rfl, -⟩ := Seq.running.inj (hk.symm.trans hseq)
        cases hd.symm.trans hd'
      · rw [s.pos_running w k hseq, hstart]
        rfl

theorem State.Inv.agentStep {e : Event} (h : s.Inv) (ht : s.agentStep e = .next t) : t.Inv := by
  cases e with
  | host x =>
    cases ht
    exact h.host (hostAccess_effect s x)
  | sequencer => exact h.sequencerStep ht
  | edge =>
    cases ht
    exact h.of_invPart_eq rfl
  | reset =>
    cases ht
    exact s.resetBlock_inv
  | ready b =>
    cases ht
    exact h.of_invPart_eq rfl

end

/-- Settles O59: the agent that moves keeps it, and taking the move off the schedule does not touch it. -/
theorem stepKeepsTheInvariant : Obligations.StepKeepsTheInvariant := by
  intro s t h ht
  unfold step at ht
  split at ht
  · exact h.sequencerStep ht
  next e rest hin => exact State.Inv.agentStep (h.of_invPart_eq (t := { s with inputs := rest }) rfl) ht

end Sys2Proof.Machine
end

section
/-! PROOF. The register window, the STATUS word and the step (spec/10_state.md R20 to R41, R44). -/

namespace Sys2Proof.Machine

/-- Settles O6: `step` takes the next move off the schedule and the sequencer decodes its word. -/
theorem stepRunsTheDecodedCommand : Obligations.StepRunsTheDecodedCommand := by
  intro s w k i rest hseq hd
  constructor
  · intro hin
    simp [step, hin, State.sequencerStep, hseq, hd]
  · intro hin
    simp [step, hin, State.agentStep, State.sequencerStep, hseq, hd]

/-! Register reads. -/

/-- A read of an aligned register offset while BUSY = 0 is only an observation of the register (R20, R71). -/
theorem hostAccess_read_register {s : State} {a : HostAddr} {v : Word} (hb : s.status.busy = false)
    (h4 : a.toNat % 4 = 0) (h : a.toNat < 0x100) (hv : s.regWord a.toNat = v) :
    s.hostAccess (.read32 a) = { s with drawCount := s.drawCount + 1, trace := .read32 a v :: s.trace } :=
  hv ▸ s.hostRead32_legal a _ hb (s.peek32_register a h4 h)

theorem regWord_reserved (s : State) {n : Nat} (h : 0x02C ≤ n) : s.regWord n = 0x00000000#32 := by
  unfold State.regWord
  split <;> simp_all

theorem regWord_irqStat (s : State) : s.regWord 0x024 = if s.irqFlag then 0x00000001#32 else 0x00000000#32 := by
  show (BitVec.ofBool s.irqFlag).setWidth 32 = _
  cases s.irqFlag <;> rfl

/-- The two bytes of a half-word that is 0 are 0. -/
theorem extractLsb'_halves_zero {v : Word} (h : v.extractLsb' 16 16 = 0#16) :
    v.extractLsb' 16 8 = 0#8 ∧ v.extractLsb' 24 8 = 0#8 := by
  have bit (j : Nat) (hj : j < 16) : v.getLsbD (16 + j) = false := by
    simpa [hj] using congrArg (BitVec.getLsbD · j) h
  constructor <;> ext j hj
  · simpa using bit j (by omega)
  · simpa [← Nat.add_assoc] using bit (8 + j) (by omega)

/-- Settles O10: each register by its offset, the packed ones from their bytes. -/
theorem registerReadsReturnTheRegister : Obligations.RegisterReadsReturnTheRegister := by
  intro s hb value
  refine ⟨?_, ?_, ?_, ?_, ?_, ?_, fun v h0 h1 h2 h3 => ?_, fun v h0 h1 h2 => ?_, fun v h0 h1 h2 h3 => ?_, ?_, ?_,
    fun a ha hlt h4 => hostAccess_read_register hb h4 hlt (regWord_reserved s ha)⟩
  · exact hostAccess_read_register hb rfl (by decide) rfl
  · exact hostAccess_read_register hb rfl (by decide) rfl
  · exact hostAccess_read_register hb rfl (by decide) rfl
  · exact hostAccess_read_register hb rfl (by decide) rfl
  · exact hostAccess_read_register hb rfl (by decide) rfl
  · exact hostAccess_read_register hb rfl (by decide) rfl
  · exact hostAccess_read_register hb rfl (by decide) (wordOfBytes_eq v _ _ _ _ h0 h1 h2 h3)
  · obtain ⟨hlo, hhi⟩ := extractLsb'_halves_zero h2
    exact hostAccess_read_register hb rfl (by decide) (wordOfBytes_eq v _ _ _ _ h0 h1 hlo hhi)
  · exact hostAccess_read_register hb rfl (by decide) (wordOfBytes_eq v _ _ _ _ h0 h1 h2 h3)
  · exact hostAccess_read_register hb rfl (by decide) (regWord_irqStat s)
  · exact hostAccess_read_register hb rfl (by decide) (BitVec.setWidth_eq _)

/-! Register writes. -/

/-- A write of an aligned register offset while BUSY = 0. -/
theorem hostAccess_write_register {s : State} {a : HostAddr} (v : Word) (hb : s.status.busy = false)
    (h4 : a.toNat % 4 = 0) (h : a.toNat < 0x100) : s.hostAccess (.write32 a v) = s.regWrite32 a.toNat v := by
  simp [State.hostAccess, State.hostWrite32, hb, h4, h]

/-- Settles O7: the write by BUSY; the read as the register's value, which BUSY does not hide (R65). -/
theorem writeToCmdIssues : Obligations.WriteToCmdIssues := by
  intro s w
  refine ⟨fun hb => ?_, fun hb => ?_, ?_, rfl⟩
  · rw [hostAccess_write_register w hb rfl (by decide)]
    rfl
  · simp [State.hostAccess, State.hostWrite32, hb, State.violate]
  · cases hb : s.status.busy with
    | false => exact hostAccess_read_register hb rfl (by decide) rfl
    | true =>
      have hlegal : (s.peek32 0x000#9).isNone = false := by rw [s.peek32_register _ rfl (by decide)]; rfl
      simp [State.hostAccess, State.hostRead32, hb, hlegal, State.violateIf, State.busyPeek32, State.regWord]

/-- Settles O13: each write by its offset. -/
theorem writableRegistersKeepTheirBits : Obligations.WritableRegistersKeepTheirBits := by
  intro s v hb
  constructor
  · rw [hostAccess_write_register v hb rfl (by decide)]
    rfl
  · rw [hostAccess_write_register v hb rfl (by decide)]
    rfl

/-! STATUS. -/

/-- The bits of STATUS as R22 lays them out. -/
theorem Status.word_getLsbD (t : Status) (i : Nat) (hi : i < 32) : t.word.getLsbD i =
    if i = 0 then t.busy else if i = 1 then t.done else if i = 2 then t.chipOk else if i = 3 then t.pktFound
    else if i = 4 then t.decValid else if i = 5 then t.warnCfg else if i = 6 then t.warnPa else if i = 7 then t.hviol
    else if i = 8 then t.addrSet else if i < 16 then false else if i < 24 then t.err.code.getLsbD (i - 16)
    else t.lastop.getLsbD (i - 24) := by
  simp only [Status.word, ← BitVec.append_eq]
  repeat rw [getLsbD_append_eq]
  simp only [BitVec.getLsbD_ofBool]
  interval_cases i <;> rfl

/-- Settles O9: bit by bit, the fields of more than one bit by each of theirs. -/
theorem statusWordFields : Obligations.StatusWordFields := by
  refine ⟨⟨rfl, rfl, rfl, rfl, rfl, rfl, rfl⟩, fun t => ?_⟩
  have bit (i : Nat) (hi : i < 32) := t.word_getLsbD i hi
  refine ⟨bit 0 (by decide), bit 1 (by decide), bit 2 (by decide), bit 3 (by decide), bit 4 (by decide),
    bit 5 (by decide), bit 6 (by decide), bit 7 (by decide), bit 8 (by decide), ?_, ?_, ?_⟩ <;>
    ext j hj <;> rw [BitVec.getElem_extractLsb', bit _ (by omega)]
  · rw [BitVec.getElem_zero]
    interval_cases j <;> rfl
  · interval_cases j <;> rfl
  · interval_cases j <;> rfl

end Sys2Proof.Machine
end

section
/-! PROOF. RSSI's two steps, and the stuck detector of the entry waits (spec/40_register_arbiter.md R116, spec/42_radio_state.md R172). -/

namespace Sys2Proof.Machine

/-- A running command after one transaction, with its count and its next position. -/
theorem State.exchange_setStuck_goto {s : State} {w : Word} {k : Pos} (h : s.seq = .running w k) (out : List Byte)
    (n : Nat) (k' : Pos) : ((s.exchange out).setStuck n).goto k' =
      { s with seq := .running w k', sel := .deasserted, answers := s.answers.drop out.length, stuckIter := n,
               drawCount := s.drawCount + out.length, trace := .txn out (s.received out.length) :: s.trace } := by
  simp [State.goto, State.setStuck, State.exchange, h]

theorem State.exchange_goto {s : State} {w : Word} {k : Pos} (h : s.seq = .running w k) (out : List Byte) (k' : Pos) :
    (s.exchange out).goto k' =
      { s with seq := .running w k', sel := .deasserted, answers := s.answers.drop out.length,
               drawCount := s.drawCount + out.length, trace := .txn out (s.received out.length) :: s.trace } :=
  State.exchange_setStuck_goto h out s.stuckIter k'

theorem State.received_one (s : State) : s.received 1 = [s.answer 0] := rfl

/-- Settles O30: the register of RSSI does not glitch, so it is read once; the conversion fits RSSI_DBM. -/
theorem rssiReadsAndConverts : Obligations.RssiReadsAndConverts := by
  constructor
  · intro s w hseq hr hc
    have hp := s.pos_running w _ hseq
    rw [exec, execRssi_start s hp, gated_open _ _ hc, regRead_once _ _ _ _ _ hr (by decide), State.exchange_goto hseq]
    rfl
  · intro s w raw hseq
    refine ⟨BitVec.ofInt 16 (rssiToDbm raw), rssiDbm_toInt raw, ?_⟩
    exact execRssi_convert s raw (s.pos_running w _ hseq)

/-! The stuck detector. -/

/-- What the stuck detector of command `i` does at the places `place`: it counts a missed poll, and its recovery is the
strobe `flush` and then the strobe `entry`, which sets the count to 0 (R172). -/
structure Detects (i : Instr) (place : EnterPlace → Pos) (flush entry target : Byte) : Prop where
  miss : ∀ (s : State) (w : Word) (v : Byte), s.seq = .running w (place (.poll (some v))) → s.rdy = true →
    v = s.answer 1 → v &&& 0x1F#8 ≠ target → (i = .rxon → v &&& 0x1F#8 ≠ 0x11#8) →
    exec i s = .next (stuckStep place (s.exchange [0xF5#8, 0x00#8]))
  flush : ∀ (s : State) (w : Word), s.seq = .running w (place .stuckFlush) → s.rdy = true →
    exec i s = .next ((s.exchange [flush]).goto (place .stuckStrobe))
  entry : ∀ (s : State) (w : Word), s.seq = .running w (place .stuckStrobe) → s.rdy = true →
    exec i s = .next (((s.exchange [entry]).setStuck 0).goto (place (.poll none)))

theorem detects_rxon : Detects .rxon .rxonWait 0x3A#8 0x34#8 0x0D#8 where
  miss s w v hseq hr hv ht hov := by
    rw [exec, execRxon_wait s _ (s.pos_running w _ hseq), enterRx_poll_second _ _ _ _ _ hr, if_pos hv, if_neg ht,
      if_neg (hov rfl)]
  flush s w hseq hr := by
    rw [exec, execRxon_wait s _ (s.pos_running w _ hseq), enterRx_stuckFlush _ _ _ _ hr]
  entry s w hseq hr := by
    rw [exec, execRxon_wait s _ (s.pos_running w _ hseq), enterRx_stuckStrobe, enterStrobe_ready _ _ _ hr]
    rfl

/-- Every wait that enters TX has the detector, whatever follows it. -/
theorem detects_enterTx {i : Instr} {place : EnterPlace → Pos} {k : State → Result}
    (h : ∀ s p, s.pos = place p → exec i s = enterTx p place s k) : Detects i place 0x3B#8 0x35#8 0x13#8 where
  miss s w v hseq hr hv ht _ := by
    rw [h s _ (s.pos_running w _ hseq), enterTx_poll_second _ _ _ _ hr, if_pos hv, if_neg ht]
  flush s w hseq hr := by
    rw [h s _ (s.pos_running w _ hseq), enterTx_stuckFlush _ _ _ hr]
  entry s w hseq hr := by
    rw [h s _ (s.pos_running w _ hseq), enterTx_stuckStrobe, enterStrobe_ready _ _ _ hr]
    rfl

/-- Settles O39: by `Detects` for the three commands. -/
theorem stuckDetectorRecoversAt200 : Obligations.StuckDetectorRecoversAt200 := by
  intro s w i place flush entry target hi hr
  have hdet : Detects i place flush entry target := by
    obtain ⟨rfl, rfl, rfl, rfl, rfl⟩ | ⟨rfl, rfl, rfl, rfl, rfl⟩ | ⟨l, bytes, rfl, rfl, rfl, rfl, rfl⟩ := hi
    · exact detects_rxon
    · exact detects_enterTx fun s p hp => execTxon_wait s p hp
    · exact detects_enterTx fun s p hp => execSend_enter l s bytes p hp
  constructor
  · intro v hseq hv ht hov
    rw [hdet.miss s w v hseq hr hv ht hov, stuckStep_eq, State.exchange_setStuck_goto hseq]
    rfl
  · intro hseq
    have hnext : ((s.exchange [flush]).goto (place .stuckStrobe)).seq = .running w (place .stuckStrobe) := by
      simp [hseq]
    rw [execs_one (hdet.flush s w hseq hr), execs_one (hdet.entry _ w hnext hr), execs,
      State.exchange_setStuck_goto hnext]
    simp [State.received_one]

end Sys2Proof.Machine
end

section
/-! PROOF. Host accesses to the buffers, bad host accesses, and host accesses while BUSY = 1 (spec/20_memory.md). -/

namespace Sys2Proof.Machine

/-! The buffers in the host's address map. -/

/-- The `n` bytes from host address `a` on lie in one buffer (R60). -/
def InOneBuffer (a n : Nat) : Prop :=
  (0x100 ≤ a ∧ a + n ≤ 0x13C) ∨ (0x140 ≤ a ∧ a + n ≤ 0x17C) ∨ (0x180 ≤ a ∧ a + n ≤ 0x1A0) ∨
    (0x1C0 ≤ a ∧ a + n ≤ 0x1D5)

theorem Buf.locate_of_mem (b : Buf) {a : Nat} (h : b.base ≤ a) (h' : a < b.base + b.size) :
    Buf.locate a = some (b, a - b.base) := by
  have hloc := b.locate_base_add (a - b.base) (by omega)
  rwa [Nat.add_sub_cancel' h] at hloc

theorem inOneBuffer_iff {a n : Nat} (hn : 0 < n) :
    InOneBuffer a n ↔ ∃ b i, Buf.locate a = some (b, i) ∧ i + n ≤ b.size := by
  constructor
  · have at_buf (b : Buf) (h : b.base ≤ a) (h' : a + n ≤ b.base + b.size) :
        ∃ b i, Buf.locate a = some (b, i) ∧ i + n ≤ b.size :=
      ⟨b, a - b.base, b.locate_of_mem h (by omega), by omega⟩
    rintro (⟨h, h'⟩ | ⟨h, h'⟩ | ⟨h, h'⟩ | ⟨h, h'⟩)
    · exact at_buf .rxbuf h h'
    · exact at_buf .txbuf h h'
    · exact at_buf .cmdbuf h h'
    · exact at_buf .decbuf h h'
  · rintro ⟨b, i, hloc, hi⟩
    obtain ⟨rfl, -⟩ := Buf.locate_eq_some _ _ _ hloc
    simp only [InOneBuffer]
    cases b <;> simp only [Buf.base, Buf.size, Config.RXBUF_SIZE, Config.TXBUF_SIZE, Config.CMDBUF_SIZE,
      Config.DECBUF_SIZE] at hi ⊢ <;> omega

theorem Buf.locate_eq_none {a : Nat} (h : ¬InOneBuffer a 1) : Buf.locate a = none := by
  obtain ⟨b, i, hloc, -, hi⟩ | ⟨hloc, -⟩ := Buf.locate_cases a
  · exact absurd ((inOneBuffer_iff Nat.one_pos).2 ⟨b, i, hloc, hi⟩) h
  · exact hloc

theorem Buf.base_ge (b : Buf) : 0x100 ≤ b.base := by cases b <;> decide

theorem Buf.locate_ge {a : Nat} {b : Buf} {i : Nat} (h : Buf.locate a = some (b, i)) : 0x100 ≤ a := by
  obtain ⟨rfl, -⟩ := Buf.locate_eq_some _ _ _ h
  exact Nat.le_add_right_of_le b.base_ge

theorem Buf.hostWritable_iff (b : Buf) : b.hostWritable = true ↔ b ≠ .decbuf := by cases b <;> decide

/-! Which reads are legal, and the bytes they return. -/

theorem State.peek8_isSome_iff (s : State) (a : HostAddr) : (s.peek8 a).isSome = true ↔ InOneBuffer a.toNat 1 := by
  rw [← Option.not_isNone, s.peek8_isNone, Option.not_isNone, Option.isSome_iff_exists, inOneBuffer_iff Nat.one_pos]
  constructor
  · rintro ⟨⟨b, i⟩, hloc⟩
    exact ⟨b, i, hloc, (Buf.locate_eq_some _ _ _ hloc).2⟩
  · rintro ⟨b, i, hloc, -⟩
    exact ⟨_, hloc⟩

/-- A 32-bit read of a buffer byte: the four bytes from it on, where the buffer has them all (R62). -/
theorem State.peek32_buffer (s : State) {a : HostAddr} {b : Buf} {i : Nat} (h4 : a.toNat % 4 = 0)
    (hloc : Buf.locate a.toNat = some (b, i)) :
    s.peek32 a = if i + 3 < b.size then
      some (wordOfBytes (s.bufByte b i 0) (s.bufByte b (i + 1) 1) (s.bufByte b (i + 2) 2) (s.bufByte b (i + 3) 3))
      else none := by
  simp [State.peek32, h4, (Buf.locate_ge hloc).not_gt, hloc]

theorem State.peek32_isSome_iff (s : State) (a : HostAddr) :
    (s.peek32 a).isSome = true ↔ a.toNat % 4 = 0 ∧ (a.toNat < 0x100 ∨ InOneBuffer a.toNat 4) := by
  rw [inOneBuffer_iff (by decide)]
  by_cases h4 : a.toNat % 4 = 0
  · by_cases hwin : a.toNat < 0x100
    · simp [s.peek32_register a h4 hwin, h4, hwin]
    · cases hloc : Buf.locate a.toNat with
      | none => simp [State.peek32, h4, hwin, hloc]
      | some bi =>
        obtain ⟨b, i⟩ := bi
        rw [s.peek32_buffer h4 hloc]
        by_cases hi : i + 3 < b.size <;> simp [h4, hwin, hi, Nat.succ_le_iff]
  · simp [State.peek32, h4]

theorem State.bufByte_defined {s : State} {b : Buf} {i : Nat} (j : Nat) {x : Byte} (h : bufRead s.mem b i = some x) :
    s.bufByte b i j = x := by
  simp [State.bufByte, h]

/-! Host accesses while BUSY = 1. -/

section
variable {s : State} (hb : s.status.busy = true)
include hb

theorem hostWrite8_busy (a : HostAddr) (v : Byte) : s.hostWrite8 a v = s.violate := by
  simp [State.hostWrite8, hb]

theorem hostWrite32_busy (a : HostAddr) (v : Word) : s.hostWrite32 a v = s.violate := by
  simp [State.hostWrite32, hb]

theorem hostRead8_busy (a : HostAddr) :
    s.hostRead8 a = { s with status := { s.status with hviol := s.status.hviol || (s.peek8 a).isNone },
                             drawCount := s.drawCount + 1, trace := .read8 a (byteOfWord s.drawn 0) :: s.trace } := by
  simp [State.hostRead8, State.violateIf_eq, hb]

theorem hostRead32_busy (a : HostAddr) :
    s.hostRead32 a = { s with status := { s.status with hviol := s.status.hviol || (s.peek32 a).isNone },
                              drawCount := s.drawCount + 1, trace := .read32 a (s.busyPeek32 a) :: s.trace } := by
  simp [State.hostRead32, State.violateIf_eq, hb]

end

/-- STATUS while BUSY = 1: bits 0 and 7 are current, the others drawn (R65). -/
theorem State.busyStatus_getLsbD (s : State) (j : Nat) :
    s.busyStatus.getLsbD j = if j = 0 ∨ j = 7 then s.status.word.getLsbD j else s.drawn.getLsbD j := by
  rw [State.busyStatus, BitVec.getLsbD_or, BitVec.getLsbD_and, BitVec.getLsbD_and]
  by_cases hj : j < 32
  · interval_cases j <;> simp
  · rw [BitVec.getLsbD_of_ge s.drawn j (by omega), BitVec.getLsbD_of_ge s.status.word j (by omega)]
    simp

theorem State.busyPeek32_drawn (s : State) {a : HostAddr} (h0 : a ≠ 0x000#9) (h4 : a ≠ 0x004#9) (h24 : a ≠ 0x024#9)
    (h28 : a ≠ 0x028#9) : s.busyPeek32 a = s.drawn := by
  simp [State.busyPeek32, h0, h4, h24, h28]

/-- Settles O8: writes by BUSY; reads by which addresses are legal, and by the four registers that stay current. -/
theorem accessesWhileBusy : Obligations.AccessesWhileBusy := by
  intro s hb within legal32 afterRead
  refine ⟨hostWrite8_busy hb, hostWrite32_busy hb, fun a => ?_, fun a => ⟨s.busyPeek32 a, ?_, ?_, ?_, ?_, ?_, ?_⟩⟩
  · have hlegal : (s.peek8 a).isNone = !within a.toNat 1 := by
      rw [← Option.not_isSome, Bool.not_inj_iff, Bool.eq_iff_iff, s.peek8_isSome_iff]
      simp [within, InOneBuffer]
    rw [State.hostAccess, hostRead8_busy hb, hlegal]
    rfl
  · have hlegal : (s.peek32 a).isNone = !legal32 a.toNat := by
      rw [← Option.not_isSome, Bool.not_inj_iff, Bool.eq_iff_iff, s.peek32_isSome_iff]
      simp [legal32, within, InOneBuffer]
    rw [State.hostAccess, hostRead32_busy hb, hlegal]
  · rintro rfl
    rfl
  · rintro rfl
    have bit (j : Nat) := s.busyStatus_getLsbD j
    refine ⟨(bit 0).trans ?_, (bit 7).trans ?_, fun j h0 h7 => (bit j).trans (if_neg (by simp [h0, h7]))⟩
    · rw [if_pos (.inl rfl), Status.word_getLsbD _ _ (by decide)]
      exact hb
    · rw [if_pos (.inr rfl), Status.word_getLsbD _ _ (by decide)]
      rfl
  · rintro rfl
    exact regWord_irqStat s
  · rintro rfl
    exact BitVec.setWidth_eq _
  · exact s.busyPeek32_drawn

/-! Bad host accesses while BUSY = 0. -/

section
variable {s : State} {a : HostAddr} (hb : s.status.busy = false)
include hb

theorem hostRead8_dropped (h : ¬InOneBuffer a.toNat 1) :
    s.hostRead8 a = { s.violate with drawCount := s.drawCount + 1, trace := .read8 a 0x00#8 :: s.trace } := by
  have hnone := Option.not_isSome_iff_eq_none.1 (mt (s.peek8_isSome_iff a).1 h)
  simp [State.hostRead8, hb, hnone, State.violateIf]

theorem hostRead32_dropped (h : a.toNat % 4 = 0 → 0x100 ≤ a.toNat ∧ ¬InOneBuffer a.toNat 4) :
    s.hostRead32 a = { s.violate with drawCount := s.drawCount + 1, trace := .read32 a 0x00000000#32 :: s.trace } := by
  have hnone : s.peek32 a = none := by
    rw [← Option.not_isSome_iff_eq_none, s.peek32_isSome_iff]
    rintro ⟨h4, hwin | hin⟩
    · exact absurd hwin (h h4).1.not_gt
    · exact (h h4).2 hin
  simp [State.hostRead32, hb, hnone, State.violateIf]

theorem hostWrite8_dropped (v : Byte) (h : ∀ b i, Buf.locate a.toNat = some (b, i) → b = .decbuf) :
    s.hostWrite8 a v = s.violate := by
  cases hloc : Buf.locate a.toNat with
  | none => simp [State.hostWrite8, hb, hloc]
  | some bi =>
    obtain ⟨b, i⟩ := bi
    obtain rfl := h b i hloc
    simp [State.hostWrite8, hb, hloc, Buf.hostWritable]

theorem hostWrite32_dropped (v : Word)
    (h : a.toNat % 4 = 0 →
      0x100 ≤ a.toNat ∧ ∀ b i, Buf.locate a.toNat = some (b, i) → b = .decbuf ∨ b.size ≤ i + 3) :
    s.hostWrite32 a v = s.violate := by
  by_cases h4 : a.toNat % 4 = 0
  · obtain ⟨hwin, hloc⟩ := h h4
    cases hbi : Buf.locate a.toNat with
    | none => simp [State.hostWrite32, hb, h4, hwin.not_gt, hbi]
    | some bi =>
      obtain ⟨b, i⟩ := bi
      obtain rfl | hi := hloc b i hbi
      · simp [State.hostWrite32, hb, h4, hwin.not_gt, hbi, Buf.hostWritable]
      · simp [State.hostWrite32, hb, h4, hwin.not_gt, hbi, hi.not_gt]
  · simp [State.hostWrite32, hb, h4]

end

/-- Only CMD, OWN_ADDR and ROLL_CNT are writable (R63). -/
theorem regWrite32_readOnly (s : State) (n : Nat) (v : Word) (h0 : n ≠ 0x000) (hown : n ≠ 0x00C) (hroll : n ≠ 0x010) :
    s.regWrite32 n v = s.violate := by
  unfold State.regWrite32
  split
  · exact absurd rfl h0
  · exact absurd rfl hown
  · exact absurd rfl hroll
  · rfl

/-- Settles O11: each access is dropped for its address; a reserved register offset is read as 0. -/
theorem badAccessesOnlySetHviol : Obligations.BadAccessesOnlySetHviol := by
  intro s a hb reservedBuffer violated
  have reserved_ge (h : reservedBuffer) : 0x100 ≤ a.toNat := by
    simp only [reservedBuffer] at h
    omega
  have outside (h : a.toNat < 0x100 ∨ reservedBuffer) (n : Nat) (hn : 0 < n) : ¬InOneBuffer a.toNat n := by
    simp only [reservedBuffer] at h
    simp only [InOneBuffer]
    omega
  have unlocated (h : a.toNat < 0x100 ∨ reservedBuffer) (b : Buf) (i : Nat) :
      Buf.locate a.toNat = some (b, i) → b = .decbuf := by
    rw [Buf.locate_eq_none (outside h 1 Nat.one_pos)]
    exact nofun
  refine ⟨fun ha v => ?_, fun hwin => ⟨fun v => ?_, ?_⟩, fun hwin h4 => ⟨fun v => ?_, ?_⟩, fun hlo hwin v => ?_,
    fun h => ?_, fun h => ⟨?_, ?_⟩, fun hlo hwin h4 => ?_⟩
  · simp only [List.mem_cons, List.not_mem_nil, or_false] at ha
    obtain rfl | rfl | rfl | rfl | rfl | rfl | rfl | rfl := ha <;> exact hostAccess_write_register v hb rfl (by decide)
  · exact hostWrite8_dropped hb v (unlocated (.inl hwin))
  · exact hostRead8_dropped hb (outside (.inl hwin) 1 Nat.one_pos)
  · exact hostWrite32_dropped hb v (absurd · h4)
  · exact hostRead32_dropped hb (absurd · h4)
  · by_cases h4 : a.toNat % 4 = 0
    · rw [hostAccess_write_register v hb h4 hwin, regWrite32_readOnly _ _ _ (by omega) (by omega) (by omega)]
      rfl
    · exact hostWrite32_dropped hb v (absurd · h4)
  · have hwin : 0x100 ≤ a.toNat := h.elim (fun hdec => by omega) reserved_ge
    have notWritable (b : Buf) (i : Nat) (hloc : Buf.locate a.toNat = some (b, i)) : b = .decbuf := by
      obtain ⟨hlo, hhi⟩ | hres := h
      · rw [Buf.decbuf.locate_of_mem hlo (Nat.lt_succ_of_le hhi)] at hloc
        cases hloc
        rfl
      · exact unlocated (.inr hres) b i hloc
    exact ⟨fun v => hostWrite8_dropped hb v notWritable,
      fun v => hostWrite32_dropped hb v fun _ => ⟨hwin, fun b i hloc => .inl (notWritable b i hloc)⟩⟩
  · exact hostRead8_dropped hb (outside (.inr h) 1 Nat.one_pos)
  · exact hostRead32_dropped hb fun _ => ⟨reserved_ge h, outside (.inr h) 4 (by decide)⟩
  · exact hostAccess_read_register hb h4 hwin (regWord_reserved s hlo)

/-! Accesses to the buffers while BUSY = 0. -/

section
variable {s : State} {a : HostAddr} {b : Buf} {i : Nat} (hb : s.status.busy = false)
  (hloc : Buf.locate a.toNat = some (b, i)) (hw : b ≠ .decbuf)
include hb hloc hw

theorem hostWrite8_stored (v : Byte) : s.hostWrite8 a v = { s with mem := bufWrite s.mem b i v } := by
  simp [State.hostWrite8, hb, hloc, b.hostWritable_iff.2 hw]

theorem hostWrite32_stored (v : Word) (h4 : a.toNat % 4 = 0) (hi : i + 3 < b.size) :
    s.hostWrite32 a v
      = { s with mem := bufWriteFrom s.mem b i [byteOfWord v 0, byteOfWord v 1, byteOfWord v 2, byteOfWord v 3] } := by
  simp [State.hostWrite32, hb, h4, (Buf.locate_ge hloc).not_gt, hloc, b.hostWritable_iff.2 hw, hi]

end

/-- Settles O12: reads by the bytes they take, writes by the bytes they store, the illegal ones as dropped. -/
theorem bufferAccessesAreLittleEndian : Obligations.BufferAccessesAreLittleEndian := by
  intro s b i a hb hi ha
  have hloc : Buf.locate a.toNat = some (b, i) := ha ▸ b.locate_base_add i hi
  refine ⟨⟨s.bufByte b i 0, ?_, fun x => s.bufByte_defined 0⟩, fun hw v => ⟨_, hostWrite8_stored hb hloc hw v, ?_, ?_⟩,
    fun h4 h3 => ⟨⟨_, s.hostRead32_legal a _ hb ((s.peek32_buffer h4 hloc).trans (if_pos h3)), ?_⟩,
      fun hw v => ⟨_, hostWrite32_stored hb hloc hw v h4 h3, ?_⟩⟩, fun h => ?_⟩
  · exact s.hostRead8_legal a _ hb (by simp [State.peek8, hloc])
  · rw [ha]
    exact Memory.read_write_same _ _ _
  · exact fun x hx => Memory.read_write_other _ _ _ _ (ha ▸ hx)
  · obtain ⟨e0, e1, e2, e3⟩ := wordOfBytes_extract (s.bufByte b i 0) (s.bufByte b (i + 1) 1)
      (s.bufByte b (i + 2) 2) (s.bufByte b (i + 3) 3)
    rw [e0, e1, e2, e3]
    exact ⟨fun _ => s.bufByte_defined _, fun _ => s.bufByte_defined _, fun _ => s.bufByte_defined _,
      fun _ => s.bufByte_defined _⟩
  · have stored := bufWriteFrom_read s.mem b i [byteOfWord v 0, byteOfWord v 1, byteOfWord v 2, byteOfWord v 3]
    exact ⟨stored 0 (by simp), stored 1 (by simp), stored 2 (by simp), stored 3 (by simp),
      fun x hx => bufWriteFrom_read_other _ _ _ _ _ (by simp only [List.length_cons, List.length_nil]; omega)⟩
  · have hwin := Buf.locate_ge hloc
    have short (h4 : a.toNat % 4 = 0) (b' : Buf) (i' : Nat) (hloc' : Buf.locate a.toNat = some (b', i')) :
        b'.size ≤ i' + 3 := by
      obtain ⟨rfl, rfl⟩ : b = b' ∧ i = i' := by simpa [hloc] using hloc'
      exact h.resolve_left (not_not.2 h4)
    refine ⟨fun v => hostWrite32_dropped hb v fun h4 => ⟨hwin, fun b' i' h' => .inr (short h4 b' i' h')⟩,
      hostRead32_dropped hb fun h4 => ⟨hwin, fun hin => ?_⟩⟩
    obtain ⟨b', i', h', hfit⟩ := (inOneBuffer_iff (by decide)).1 hin
    exact absurd (short h4 b' i' h') (by omega)

end Sys2Proof.Machine
end

section
/-! PROOF. The ready gate: a transaction is held while RDY is false (spec/40_register_arbiter.md R101). -/

namespace Sys2Proof.Machine

/-- At the bus with RDY false a step is a hold, after the warnings that the command has given. -/
theorem exec_held {i : Instr} {s : State} (hb : belongs i s.pos = true) (hbus : atBus i s = true) (hr : s.rdy = false) :
    ∃ x, exec i s = .next (s.warn x).hold := by
  obtain ⟨-, x, htxn⟩ | ⟨hquiet, -⟩ := exec_bus hb
  · exact ⟨x, htxn.held hr⟩
  · rw [hbus] at hquiet
    cases hquiet

/-- A warning that changes neither warning bit changes nothing. -/
theorem State.warn_eq_self {s : State} {x : Option Warning} (hcfg : (s.status.warned x).warnCfg = s.status.warnCfg)
    (hpa : (s.status.warned x).warnPa = s.status.warnPa) : s.warn x = s := by
  have hstatus : s.status.warned x = s.status := by
    obtain _ | _ | _ := x
    · rfl
    · exact congrArg (fun v => { s.status with warnCfg := v }) hcfg
    · exact congrArg (fun v => { s.status with warnPa := v }) hpa
  rw [State.warn, hstatus]

theorem pos_eq_start_of_belongs_bwr {a : Byte} {l : Nat} {k : Pos} (h : belongs (.bwr a l) k = true) : k = .start := by
  cases k <;> simp [belongs] at h ⊢

/-- The addresses and counts with which BWR reaches its transaction (R142). -/
theorem bwr_operands {a : Byte} {l : Nat} {s : State} (hp : s.pos = .start) (hbus : atBus (.bwr a l) s = true) :
    (a.toNat ≤ 0x2E ∨ a = 0x3E#8 ∨ a = 0x3F#8) ∧ l ≤ 60 := by
  obtain ⟨herr, -⟩ := atBus_start hp hbus
  obtain ⟨-, hrange, hlen, -⟩ := firstError_none _ s herr
  simp only [rangeError, Bool.or_eq_false_iff, Bool.and_eq_false_iff, decide_eq_false_iff_not] at hrange
  simp only [lengthError, decide_eq_false_iff_not] at hlen
  constructor <;> bv_omega

/-- BWR held at its transaction has given the warnings of its plan (R142). -/
theorem exec_bwr_held {a : Byte} {l : Nat} {s : State} (hp : s.pos = .start) (hbus : atBus (.bwr a l) s = true)
    (hr : s.rdy = false) : exec (.bwr a l) s = .next (s.warn (writeWarning a l)).hold := by
  obtain ⟨herr, hdef⟩ := atBus_start hp hbus
  obtain ⟨ha, hl⟩ := bwr_operands hp hbus
  obtain ⟨hplan, -⟩ := writePlan_ok a l ha hl s.status
  obtain ⟨bytes, hok, hlength⟩ := bufReadAll_defined s.mem .txbuf l (by simpa [inputsDefined, consumes] using hdef)
  have hpos : 0 < l := by simpa [atBus, hp, herr, hdef] using hbus
  rw [exec_start _ s hp herr, startOk, hplan]
  exact (withBytes_ok _ _ _ _ _ hok).trans
    (burstWrite_held _ _ _ _ hr (List.ne_nil_of_length_pos (hlength ▸ hpos)))

/-- Settles O21: every step at the bus is a hold (`exec_held`); only BWR warns, and its warnings are its plan's. -/
theorem readyGateHoldsTheSequencer : Obligations.ReadyGateHoldsTheSequencer := by
  intro i s hb hbus hr
  constructor
  · intro hi
    obtain ⟨x, hx⟩ := exec_held hb hbus hr
    obtain ⟨-, -, -, -, -, -, -, -, -, -, hwarn, -⟩ := commandsChangeOnlyTheirRegisters i s _ hx
    obtain ⟨hcfg, hpa⟩ := hwarn hi
    rw [hx, State.warn_eq_self hcfg hpa]
    rfl
  · rintro a l rfl
    have hp := pos_eq_start_of_belongs_bwr hb
    obtain ⟨ha, hl⟩ := bwr_operands hp hbus
    obtain ⟨-, -, hwarned⟩ := writePlan_ok a l ha hl s.status
    rw [exec_bwr_held hp hbus hr, State.warn, hwarned]
    rfl

end Sys2Proof.Machine
end

section
/-! PROOF. Decoding and encoding agree row by row of the opcode map, and a word that is no command, like a command whose check fails, only reports its error (spec/30_encoding.md R80 to R91, spec/60_exceptions.md R302 to R304). -/

namespace Sys2Proof

theorem withUnused_eq_ok {w : Word} {unused : List Byte} {i j : Instr} :
    withUnused w unused i = .ok j ↔ (∀ f ∈ unused, f = 0#8) ∧ i = j := by
  have hall : unused.all (fun f => f == 0#8) = true ↔ ∀ f ∈ unused, f = 0#8 := by simp
  rw [withUnused, ← hall]
  split <;> simp [*]

/-- A word is a command's exactly when each of its fields is. -/
theorem encode_eq_iff {i : Instr} {w : Word} : encode i = w ↔
    opField w = i.opcode ∧ aField w = i.fieldA ∧ lField w = i.fieldL ∧ dField w = i.fieldD := by
  constructor
  · rintro rfl
    exact ⟨opField_commandWord .., aField_commandWord .., lField_commandWord .., dField_commandWord ..⟩
  · rintro ⟨hop, ha, hl, hd⟩
    rw [encode, ← hop, ← ha, ← hl, ← hd, commandWord_fields]

/-- Settles O1: each row of R85 finds its unused fields 0x00 and reads its operands from where `encode` put them. -/
theorem decodeInvertsEncode : Obligations.DecodeInvertsEncode := by
  intro i hi
  obtain ⟨hop, ha, hl, hd⟩ := encode_eq_iff.mp (Eq.refl (encode i))
  cases i <;> simp [decode, hop, ha, hl, hd, Instr.opcode, Instr.fieldA, Instr.fieldL, Instr.fieldD, withUnused_eq_ok]
  all_goals exact lengthByte_toNat _ hi

/-- Settles O2: in each row of R85 the fields that the command does not hold are the unused ones, which are 0x00. -/
theorem decodedWordEncodesBack : Obligations.DecodedWordEncodesBack := by
  intro w i h
  have hfits : (lField w).toNat < 256 := (lField w).isLt
  rw [encode_eq_iff, ← BitVec.toNat_inj]
  unfold decode at h
  split at h
  case h_19 => cases h
  all_goals
    next hop =>
    obtain ⟨hunused, rfl⟩ := withUnused_eq_ok.mp h
    simpa [Instr.WellFormed, fitsLengthField, Instr.opcode, Instr.fieldA, Instr.fieldL, Instr.fieldD, lengthByte, hop,
      hfits] using hunused

/-! The mask and match columns. -/

/-- The fields of `w` that the row of `i` marks "-" (R84, R85). -/
def Instr.unusedFields (w : Word) : Instr → List Byte
  | .nop | .init | .rssi | .idle | .rxon | .txon | .irqack => [aField w, lField w, dField w]
  | .rreg _ | .strobe _ => [lField w, dField w]
  | .wreg _ _ => [lField w]
  | .brd _ _ | .bwr _ _ => [dField w]
  | .send _ | .recv _ | .decode _ | .encode _ | .cksum _ | .compose _ => [aField w, dField w]

/-- A word meets a row's mask and match columns when it has the row's opcode and 0x00 in the fields marked "-". -/
theorem mask_iff_unusedFields {w : Word} {i : Instr} : w &&& i.mask = i.matchWord ↔
    opField w = i.opcode ∧ ∀ f ∈ i.unusedFields w, f = 0#8 := by
  have full : 0xFFFFFFFF#32 = commandWord 0xFF#8 0xFF#8 0xFF#8 0xFF#8 := by decide
  have lAndD : 0xFF00FFFF#32 = commandWord 0xFF#8 0x00#8 0xFF#8 0xFF#8 := by decide
  have onlyL : 0xFF00FF00#32 = commandWord 0xFF#8 0x00#8 0xFF#8 0x00#8 := by decide
  have onlyD : 0xFF0000FF#32 = commandWord 0xFF#8 0x00#8 0x00#8 0xFF#8 := by decide
  have aAndD : 0xFFFF00FF#32 = commandWord 0xFF#8 0xFF#8 0x00#8 0xFF#8 := by decide
  rw [mask_iff]
  refine and_congr_right fun _ => ?_
  cases i <;> simp [Instr.mask, full, lAndD, onlyL, onlyD, aAndD, aField_commandWord, lField_commandWord,
    dField_commandWord, Instr.unusedFields, and_allOnes]

/-- A used opcode selects its row, whose command is decoded if the row's unused fields are 0x00. -/
theorem decode_of_opField {w : Word} {i : Instr} (h : opField w = i.opcode) :
    ∃ j, decode w = withUnused w (i.unusedFields w) j := by
  cases i <;> exact ⟨_, by rw [decode, h]; rfl⟩

theorem opField_of_decode {w : Word} {i : Instr} (h : decode w = .ok i) : opField w = i.opcode :=
  (encode_eq_iff.mp (decodedWordEncodesBack w i h).2).1

/-- A word with a used opcode is a command exactly when it meets the opcode's row. -/
theorem decode_ok_iff_mask {w : Word} {i : Instr} (h : opField w = i.opcode) :
    (∃ j, decode w = .ok j) ↔ w &&& i.mask = i.matchWord := by
  obtain ⟨j, hj⟩ := decode_of_opField h
  simp [hj, withUnused_eq_ok, mask_iff_unusedFields, h]

/-- Settles O3: a word of a row's opcode decodes exactly when it is in the row, to a command of that opcode. -/
theorem decodeFollowsMatchAndMask : Obligations.DecodeFollowsMatchAndMask := by
  refine fun w i => ⟨fun h => (decode_ok_iff_mask (opField_of_decode h)).mp ⟨i, h⟩, fun h => ?_⟩
  have hop := (mask_iff_unusedFields.mp h).1
  obtain ⟨j, hj⟩ := (decode_ok_iff_mask hop).mpr h
  exact ⟨j, hj, (opField_of_decode hj).symm.trans hop⟩

/-- Settles O4: the decoder and the encoder run on each word. -/
theorem workedWordsDecode : Obligations.WorkedWordsDecode :=
  ⟨rfl, rfl, rfl, rfl, rfl, rfl, rfl, rfl, rfl, rfl, rfl, rfl, rfl, rfl, rfl, rfl, fun _ => rfl, rfl, rfl⟩

/-- The opcodes of R85 lie outside the reserved ranges of R86. -/
theorem Instr.opcode_used (i : Instr) :
    i.opcode.toNat ≤ 0x0C ∨ (0x10 ≤ i.opcode.toNat ∧ i.opcode.toNat ≤ 0x13) ∨ i.opcode.toNat = 0x20 := by
  cases i <;> simp [Instr.opcode]

namespace Machine

theorem sequencerStep_of_decode_error {s : State} {w : Word} {k : Pos} {e : DecodeError} (hseq : s.seq = .running w k)
    (h : decode w = .error e) : s.sequencerStep = .next (s.raiseErr .illegalOp) := by
  simp only [State.sequencerStep, hseq, h]

/-- Settles O5: a word that decodes has a used opcode and is in that opcode's row. -/
theorem illegalWordsEndWithIllegalOp : Obligations.IllegalWordsEndWithIllegalOp := by
  intro s w k hseq hillegal
  cases hd : decode w with
  | error e => exact sequencerStep_of_decode_error hseq hd
  | ok j =>
    obtain hreserved | ⟨i, hop, hmask⟩ := hillegal
    · have hused := j.opcode_used
      rw [← opField_of_decode hd, opField] at hused
      omega
    · exact absurd ((decode_ok_iff_mask hop).mp ⟨j, hd⟩) hmask

/-- Settles O18: a word that does not decode, and the first error of a command at its start (`exec_refused`). -/
theorem firstFailingCheckIsReported : Obligations.FirstFailingCheckIsReported :=
  ⟨fun _ _ _ _ hseq h => sequencerStep_of_decode_error hseq h, fun _ _ _ hp h => exec_refused hp h⟩

end Machine

end Sys2Proof
end

section
/-! PROOF. The initialisation gate, NOP and INIT (spec/40_register_arbiter.md R109 to R111). -/

namespace Sys2Proof.Machine

/-! The initialisation gate (R109). -/

/-- A step of a command outside the gate, whatever its position, raises no ERR_NOT_INIT. -/
theorem exec_ungated_notInit {i : Instr} {s : State} (h : usesBus i = false) :
    Ensures (exec i s) (fun t => t.status.err = .notInit → s.status.err = .notInit) := by
  cases i
  case nop | irqack => exact .next id
  case init =>
    obtain ⟨v1, hp⟩ | ⟨part, v1, hp⟩ | hp | hp | hstart := execInit_cases s
    · rw [exec, execInit_part s v1 hp]
      exact .regRead (fun _ _ => .next id) (fun _ _ _ _ => id) (fun _ => id)
    · rw [exec, execInit_version s part v1 hp]
      exact .regRead (fun _ _ => .ite (fun _ => .next (by simp)) (fun _ => .next id)) (fun _ _ _ _ => id) (fun _ => id)
    · rw [exec, execInit_flushRx s hp]
      exact .strobe (fun _ => .next id) (fun _ => id)
    · rw [exec, execInit_flushTx s hp]
      exact .strobe (fun _ => .next id) (fun _ => id)
    · rw [exec, hstart]
      exact .strobe (fun _ => .next id) (fun _ => id)
  case decode l =>
    refine .ite (fun _ => .next (by simp)) (fun _ => .withBytes fun frame _ _ => .next ?_)
    cases codecDecode frame <;> exact id
  case encode l => exact .ite (fun _ => .next (by simp)) (fun _ => .withBytes fun _ _ _ => .next id)
  case cksum l => exact .ite (fun _ => .next (by simp)) (fun _ => .withBytes fun _ _ _ => .next id)
  case compose l =>
    exact .ite (fun _ => .next (by simp))
      (fun _ => .ite (fun _ => .next (by simp)) (fun _ => .withBytes fun _ _ _ => .next id))
  all_goals cases h

/-- Settles O17: the gate is the first check of R304; no other command raises its error at any position. -/
theorem busCommandsNeedChipOk : Obligations.BusCommandsNeedChipOk := by
  refine ⟨fun i s hu hp hc => exec_refused hp ?_, fun i s t hu ht => exec_ungated_notInit hu t ht⟩
  simp [firstError, hu, hc]

/-! NOP and INIT. -/

/-- Settles O23: the issued word decodes to NOP, the next to move. -/
theorem nopOnlyCompletes : Obligations.NopOnlyCompletes := by
  refine ⟨fun _ => rfl, fun s hin => ?_⟩
  exact (stepRunsTheDecodedCommand (s.issue 0x00000000#32) _ .start .nop [] rfl rfl).1 hin

section
variable {s : State} {w : Word}

theorem exec_init_start (hseq : s.seq = .running w .start) (hr : s.rdy = true) :
    exec .init s = .next ((s.exchange [0x30#8]).goto (.initPart none)) := by
  rw [exec, execInit_start s (s.pos_running w _ hseq), strobe_ready _ _ _ hr]
  rfl

/-- Neither of the registers that INIT reads glitches, so each is read once. -/
theorem exec_init_part (hseq : s.seq = .running w (.initPart none)) (hr : s.rdy = true) :
    exec .init s = .next ((s.exchange [0xF0#8, 0x00#8]).goto (.initVersion (s.answer 1) none)) := by
  rw [exec, execInit_part s none (s.pos_running w _ hseq), regRead_once _ _ _ _ _ hr (by decide)]
  rfl

theorem exec_init_version {part : Byte} (hseq : s.seq = .running w (.initVersion part none)) (hr : s.rdy = true) :
    exec .init s = initIdentify part (s.answer 1) (s.exchange [0xF1#8, 0x00#8]) := by
  rw [exec, execInit_version s part none (s.pos_running w _ hseq), regRead_once _ _ _ _ _ hr (by decide)]
  rfl

theorem exec_init_flushRx (hseq : s.seq = .running w .initFlushRx) (hr : s.rdy = true) :
    exec .init s = .next ((s.exchange [0x3A#8]).goto .initFlushTx) := by
  rw [exec, execInit_flushRx s (s.pos_running w _ hseq), strobe_ready _ _ _ hr]
  rfl

theorem exec_init_flushTx (hseq : s.seq = .running w .initFlushTx) (hr : s.rdy = true) :
    exec .init s = .next (State.complete
      { s.exchange [0x3B#8] with status := { s.status with chipOk := true } }) := by
  rw [exec, execInit_flushTx s (s.pos_running w _ hseq), strobe_ready _ _ _ hr]
  rfl

theorem initIdentify_good {part ver : Byte} (h0 : ver ≠ 0x00#8) (hff : ver ≠ 0xFF#8) :
    initIdentify part ver s = .next (State.goto { s with chipid := ⟨part, ver⟩ } .initFlushRx) :=
  if_neg (by simp [h0, hff])

theorem initIdentify_bad {part ver : Byte} (h : ver = 0x00#8 ∨ ver = 0xFF#8) :
    initIdentify part ver s = .next (State.raiseErr
      { s with chipid := ⟨part, ver⟩, status := { s.status with chipOk := false } } .chipNotFound) :=
  if_pos (by simpa using h)

/-- INIT after its reset strobe and its read of ADDR_PARTNUM (R111). -/
def State.initPartRead (s : State) : State :=
  (((s.exchange [0x30#8]).goto (.initPart none)).exchange [0xF0#8, 0x00#8]).goto (.initVersion (s.answer 2) none)

/-- INIT after its three transactions, with the chip identified (R111). -/
def State.initIdentified (s : State) : State :=
  { s.initPartRead.exchange [0xF1#8, 0x00#8] with chipid := ⟨s.answer 2, s.answer 4⟩ }

/-- The first three transactions of INIT, and the identification. -/
theorem execs_init_three (hseq : s.seq = .running w .start) (hr : s.rdy = true) {t : State}
    (ht : initIdentify (s.answer 2) (s.answer 4) (s.initPartRead.exchange [0xF1#8, 0x00#8]) = .next t) (n : Nat) :
    execs .init (n + 3) s = execs .init n t := by
  have hpart : ((s.exchange [0x30#8]).goto (.initPart none)).seq = .running w (.initPart none) := by simp [hseq]
  have hread : s.initPartRead.seq = .running w (.initVersion (s.answer 2) none) := by simp [State.initPartRead, hseq]
  have hversion := exec_init_version hread hr
  simp only [State.initPartRead, State.goto_answer, State.exchange_answer] at hversion
  rw [execs_one (exec_init_start hseq hr), execs_one (exec_init_part hpart hr)]
  simp only [State.goto_answer, State.exchange_answer]
  exact execs_one (hversion.trans ht)

/-- The last two transactions of INIT. -/
theorem execs_init_flushes (hseq : s.seq = .running w .initFlushRx) (hr : s.rdy = true) :
    execs .init 2 s = .next (State.complete
      { ((s.exchange [0x3A#8]).goto .initFlushTx).exchange [0x3B#8] with
        status := { s.status with chipOk := true } }) := by
  have hflush : ((s.exchange [0x3A#8]).goto .initFlushTx).seq = .running w .initFlushTx := by simp [hseq]
  rw [execs_one (exec_init_flushRx hseq hr), execs_one (exec_init_flushTx hflush hr)]
  rfl

end

/-- Settles O24: by the identification after the third transaction, and the flushes after a good one. -/
theorem initIdentifiesTheChip : Obligations.InitIdentifiesTheChip := by
  refine ⟨fun s w hseq hr h0 hff => ?_, fun s w hseq hr hbad => ?_, fun s w hseq hr => exec_init_flushTx hseq hr⟩
  · have hflush : (s.initIdentified.goto .initFlushRx).seq = .running w .initFlushRx := by
      simp [State.initIdentified, State.initPartRead, hseq]
    have hready : (s.initIdentified.goto .initFlushRx).rdy = true := by
      simp [State.initIdentified, State.initPartRead, hr]
    rw [execs_init_three hseq hr (initIdentify_good h0 hff) 2]
    refine (execs_init_flushes hflush hready).trans ?_
    simp [State.initIdentified, State.initPartRead, State.complete, Status.completed, State.received, State.answer,
      List.range_succ, Nat.add_assoc]
  · rw [execs_init_three hseq hr (initIdentify_bad hbad) 0, execs]
    simp [State.initPartRead, State.raiseErr, Status.raised, State.received, List.range_succ]

end Sys2Proof.Machine
end

section
/-! PROOF. The arbiter's one-step commands RREG, WREG and STROBE, the reads that go on until two agree, and the RSSI conversion (spec/40_register_arbiter.md R104 to R115). -/

namespace Sys2Proof.Machine

theorem mem_glitchSet_iff {a : Byte} :
    a ∈ Config.GLITCH_SET ↔ a ∈ [0x32#8, 0x35#8, 0x36#8, 0x37#8, 0x3A#8, 0x3B#8] := by
  revert a; decide

/-! Commands of one transaction. -/

/-- Settles O25: a register that does not glitch is read once, with the header of its class. -/
theorem rregReadsOnce : Obligations.RregReadsOnce := by
  intro s w a hseq hr hc hlt h2f hg
  have hok : rdAddrOK a = true := by simp [rdAddrOK_eq, hlt, h2f]
  rw [exec, execRreg_start a s (s.pos_running w _ hseq), gated_open _ _ hc, if_pos hok,
    regRead_once _ _ _ _ _ hr (mt mem_glitchSet_iff.1 hg), hdrByte_read a hlt]
  rfl

/-- Settles O27: the header of a write is the address itself. -/
theorem wregWritesOnce : Obligations.WregWritesOnce := by
  intro s a d _ hr hc ha
  have hok : wrAddrOK a = true := by simpa [wrAddrOK_eq, or_assoc] using ha
  have hlt : a.toNat < 64 := by bv_omega
  rw [exec, execWreg, gated_open _ _ hc, if_pos hok, regWrite, txn_ready _ _ _ hr, hdrByte_write a hlt]
  rfl

/-- Settles O28: the header of a strobe is its code, and the byte received with it is the status byte. -/
theorem strobeReturnsTheStatusByte : Obligations.StrobeReturnsTheStatusByte := by
  intro s c _ hr hc hlo hhi
  have hok : isStatAddr c = true := by simp [isStatAddr_eq, hlo, hhi]
  rw [exec, execStrobe, gated_open _ _ hc, if_pos hok, strobe_ready _ _ _ hr, hdrByte_write c (by omega)]
  rfl

/-! Reads that go on until two agree (R104). -/

theorem rdAddrOK_glitch {a : Byte} (ha : a ∈ Config.GLITCH_SET) : rdAddrOK a = true := by
  simp [rdAddrOK, isStatAddr_glitch a ha]

theorem hdrByte_glitch {a : Byte} (ha : a ∈ Config.GLITCH_SET) : hdrByte a true true = 0xC0#8 ||| a := by
  revert ha; revert a; decide

theorem exec_rreg_stable {a : Byte} {s : State} {v1 : Option Byte} (ha : a ∈ Config.GLITCH_SET)
    (hp : s.pos = .rregRead v1) : exec (.rreg a) s = stableRead (0xC0#8 ||| a) v1 .rregRead s rregStore := by
  rw [exec, execRreg_read a s v1 hp, regRead_stable _ _ _ _ _ ha, hdrByte_glitch ha]

theorem exec_recv_stable {l : Nat} {s : State} {v1 : Option Byte} (hp : s.pos = .recvCount v1) :
    exec (.recv l) s = stableRead 0xFB#8 v1 .recvCount s (recvCounted l) := by
  rw [exec, execRecv_count l s v1 hp, regRead_stable _ _ _ _ _ (by decide)]
  rfl

/-- A run-state poll reads a register that glitches (R108). -/
theorem runState_stable (v1 : Option Byte) (at' : Option Byte → Pos) (s : State) (k : Byte → State → Result) :
    runState v1 at' s k = stableRead 0xF5#8 v1 at' s (fun v s => k (v &&& 0x1F#8) s) := by
  rw [runState, regRead_stable _ _ _ _ _ (by decide)]
  rfl

/-- At the positions `place` command `i` reads until stable with the header `hb`, whatever follows. -/
def ReadsUntilStable (i : Instr) (place : Option Byte → Pos) (hb : Byte) : Prop :=
  ∀ (s : State) (v1 : Option Byte), s.pos = place v1 → ∃ k, exec i s = stableRead hb v1 place s k

section
variable {i : Instr} {s : State} {w : Word}

theorem ReadsUntilStable.first {place : Option Byte → Pos} {hb : Byte} (h : ReadsUntilStable i place hb)
    (hseq : s.seq = .running w (place none)) (hr : s.rdy = true) :
    exec i s = .next ((s.exchange [hb, 0x00#8]).goto (place (some (s.answer 1)))) := by
  obtain ⟨k, hk⟩ := h s none (s.pos_running w _ hseq)
  rw [hk, stableRead_first _ _ _ _ hr]

theorem ReadsUntilStable.differ {place : Option Byte → Pos} {hb v : Byte} (h : ReadsUntilStable i place hb)
    (hseq : s.seq = .running w (place (some v))) (hr : s.rdy = true) (hv : v ≠ s.answer 1) :
    exec i s = .next ((s.exchange [hb, 0x00#8]).goto (place none)) := by
  obtain ⟨k, hk⟩ := h s (some v) (s.pos_running w _ hseq)
  rw [hk, stableRead_second _ _ _ _ _ hr, if_neg hv]

theorem readsUntilStable_forceIdle {place : IdlePlace → Pos} {k : State → Result}
    (h : ∀ s p, s.pos = place p → exec i s = forceIdle p place s k) :
    ReadsUntilStable i (fun v => place (.poll v)) 0xF5#8 := by
  intro s v1 hp
  rw [h s _ hp, forceIdle, runState_stable]
  exact ⟨_, rfl⟩

/-- EnterRx polls in the ForceIdle it begins with, and for its target. -/
theorem readsUntilStable_enterRx {place : EnterPlace → Pos} {o : Pos} {k : State → Result}
    (h : ∀ s p, s.pos = place p → exec i s = enterRx p place o s k) :
    ReadsUntilStable i (fun v => place (.idle (.poll v))) 0xF5#8 ∧
    ReadsUntilStable i (fun v => place (.poll v)) 0xF5#8 := by
  refine ⟨readsUntilStable_forceIdle (place := fun q => place (.idle q))
    fun s q hp => (h s _ hp).trans (enterRx_idle q place o s k), fun s v1 hp => ?_⟩
  rw [h s _ hp, enterRx, runState_stable]
  exact ⟨_, rfl⟩

/-- EnterTx polls at the same two places. -/
theorem readsUntilStable_enterTx {place : EnterPlace → Pos} {k : State → Result}
    (h : ∀ s p, s.pos = place p → exec i s = enterTx p place s k) :
    ReadsUntilStable i (fun v => place (.idle (.poll v))) 0xF5#8 ∧
    ReadsUntilStable i (fun v => place (.poll v)) 0xF5#8 := by
  refine ⟨readsUntilStable_forceIdle (place := fun q => place (.idle q))
    fun s q hp => (h s _ hp).trans (enterTx_idle q place s k), fun s v1 hp => ?_⟩
  rw [h s _ hp, enterTx, runState_stable]
  exact ⟨_, rfl⟩

end

theorem readsUntilStable_sendPoll (l : Nat) : ReadsUntilStable (.send l) .sendPoll 0xF5#8 := by
  intro s v1 hp
  rw [exec, execSend_poll l s v1 hp, runState_stable]
  exact ⟨_, rfl⟩

/-- Settles O26: every such read is a `stableRead`, with its two outcomes for a second read; the first of RREG is behind
the gate. -/
theorem rregReadsUntilStable : Obligations.RregReadsUntilStable := by
  intro s w hr after
  have move {k : Pos} (hseq : s.seq = .running w k) (hb : Byte) (k' : Pos) :
      (s.exchange [hb, 0x00#8]).goto k' = { after hb with seq := .running w k' } := State.exchange_goto hseq _ k'
  refine ⟨fun a ha => ?_, fun i place hb hi => ?_, fun l n v hseq hv hn => ?_⟩
  · rw [← mem_glitchSet_iff] at ha
    have hread : ReadsUntilStable (.rreg a) .rregRead (0xC0#8 ||| a) := fun _ _ hp => ⟨_, exec_rreg_stable ha hp⟩
    refine ⟨fun hseq hc => ?_, fun hseq => ?_, fun v hseq hv => ?_, fun v hseq hv => ?_⟩
    · rw [exec, execRreg_start a s (s.pos_running w _ hseq), gated_open _ _ hc, if_pos (rdAddrOK_glitch ha),
        regRead_stable _ _ _ _ _ ha, stableRead_first _ _ _ _ hr, hdrByte_glitch ha, move hseq]
    · rw [hread.first hseq hr, move hseq]
    · rw [exec_rreg_stable ha (s.pos_running w _ hseq), stableRead_second _ _ _ _ _ hr, if_pos hv, ← hv]
      rfl
    · rw [hread.differ hseq hr hv, move hseq]
  · have hread : ReadsUntilStable i place hb := by
      obtain ⟨l, rfl, rfl, rfl⟩ | ⟨rfl, hi⟩ := hi
      · exact fun _ _ hp => ⟨_, exec_recv_stable hp⟩
      · have idle := readsUntilStable_forceIdle (i := .idle) execIdle_wait
        have rxon := readsUntilStable_enterRx (i := .rxon) execRxon_wait
        have txon := readsUntilStable_enterTx (i := .txon) execTxon_wait
        have send (l bytes) := readsUntilStable_enterTx (i := .send l) (execSend_enter l · bytes)
        obtain ⟨rfl, rfl⟩ | ⟨rfl, rfl⟩ | ⟨rfl, rfl⟩ | ⟨rfl, rfl⟩ | ⟨rfl, rfl⟩ | ⟨l, bytes, rfl, rfl⟩ |
          ⟨l, bytes, rfl, rfl⟩ | ⟨l, rfl, rfl⟩ := hi
        · exact idle
        · exact rxon.1
        · exact rxon.2
        · exact txon.1
        · exact txon.2
        · exact (send l bytes).1
        · exact (send l bytes).2
        · exact readsUntilStable_sendPoll l
    refine ⟨fun hseq => ?_, fun v hseq hv => ?_⟩
    · rw [hread.first hseq hr, move hseq]
    · rw [hread.differ hseq hr hv, move hseq]
  · rw [exec_recv_stable (s.pos_running w _ hseq), stableRead_second _ _ _ _ _ hr, if_pos hv, ← hv, recvCounted]
    simp only [Config.RXBYTES_MASK, ← hn]
    split
    · rfl
    · rw [move hseq]

/-! The RSSI conversion. -/

/-- Settles O29: halving toward zero is the halving of the magnitude, on either side of zero. -/
theorem rssiConversionTruncates : Obligations.RssiConversionTruncates := by
  refine fun raw => ⟨fun h => ?_, fun h => ?_, rssiToDbm_range raw⟩
  · rw [rssiToDbm, if_neg (by omega)]
    rfl
  · have hneg : (raw.toNat : Int) - 256 = -((256 - raw.toNat : Nat) : Int) := by omega
    rw [rssiToDbm, if_pos h, hneg, Int.neg_tdiv]
    rfl

end Sys2Proof.Machine
end

section
/-! PROOF. The run-state waits at a stable poll: the awaited state ends the wait, and the waits without a detector go back to polling (spec/42_radio_state.md R170, R171, R173). -/

namespace Sys2Proof.Machine

/-! A move before a transaction shows only in the position, so the move after it undoes it. -/

@[simp] theorem State.goto_goto (s : State) (k k' : Pos) : (s.goto k).goto k' = s.goto k' := by
  unfold State.goto
  cases s.seq <;> rfl

@[simp] theorem State.complete_goto (s : State) (k : Pos) : (s.goto k).complete = s.complete := rfl

@[simp] theorem State.exchange_goto_left (s : State) (k : Pos) (out : List Byte) :
    (s.goto k).exchange out = (s.exchange out).goto k := rfl

@[simp] theorem State.setStuck_goto_left (s : State) (k : Pos) (n : Nat) :
    (s.goto k).setStuck n = (s.setStuck n).goto k := rfl

theorem State.received_exchange (s : State) (out : List Byte) (n : Nat) :
    (s.exchange out).received n = (List.range n).map (fun j => s.answer (out.length + j)) :=
  congrArg (List.map · _) (funext (s.exchange_answer out))

theorem State.received_two (s : State) : s.received 2 = [s.answer 0, s.answer 1] := rfl

/-! The waits. -/

/-- At the positions `place` command `i` polls the run-state until it is stable, and a stable poll that meets `target` goes
on by `go`. -/
structure Awaits (i : Instr) (place : Option Byte → Pos) (target : Byte → Prop) (go : State → State) : Prop where
  reads : ReadsUntilStable i place 0xF5#8
  hit : ∀ (s : State) (v : Byte), s.pos = place (some v) → s.rdy = true → v = s.answer 1 → target (v &&& 0x1F#8) →
    exec i s = .next (go (s.exchange [0xF5#8, 0x00#8]))

/-- A wait whose first pair of polls agrees on its target. The position between the two does not show. -/
theorem Awaits.execs_pair {i : Instr} {place : Option Byte → Pos} {target : Byte → Prop} {go : State → State}
    (h : Awaits i place target go) (hgo : ∀ s k, go (s.goto k) = go s) {s : State} {w : Word}
    (hseq : s.seq = .running w (place none)) (hr : s.rdy = true) (hv : s.answer 1 = s.answer 3)
    (ht : target (s.answer 3 &&& 0x1F#8)) (n : Nat) :
    execs i (n + 2) s = execs i n (go ((s.exchange [0xF5#8, 0x00#8]).exchange [0xF5#8, 0x00#8])) := by
  have hpos : ((s.exchange [0xF5#8, 0x00#8]).goto (place (some (s.answer 1)))).pos = place (some (s.answer 1)) :=
    State.pos_running _ w _ (by simp [hseq])
  rw [execs_one (h.reads.first hseq hr), execs_one (h.hit _ _ hpos hr (by simpa using hv) (by rwa [hv])),
    State.exchange_goto_left, hgo]

/-- A wait without a detector: a stable poll that misses its target goes back to polling. -/
structure AwaitsForever (i : Instr) (place : Option Byte → Pos) (target : Byte → Prop) (go : State → State) : Prop
    extends Awaits i place target go where
  miss : ∀ (s : State) (v : Byte), s.pos = place (some v) → s.rdy = true → v = s.answer 1 → ¬target (v &&& 0x1F#8) →
    exec i s = .next ((s.exchange [0xF5#8, 0x00#8]).goto (place none))

section
variable {i : Instr} {go : State → State}

theorem awaitsForever_forceIdle {place : IdlePlace → Pos}
    (h : ∀ s p, s.pos = place p → exec i s = forceIdle p place s (fun s => .next (go s))) :
    AwaitsForever i (fun v => place (.poll v)) (· = 0x01#8) go where
  reads := readsUntilStable_forceIdle h
  hit s v hp hr hv ht := by rw [h s _ hp, forceIdle_poll_second _ _ _ _ hr, if_pos ⟨hv, ht⟩]
  miss s v hp hr _ ht := by rw [h s _ hp, forceIdle_poll_second _ _ _ _ hr, if_neg fun hit => ht hit.2]

/-- The ForceIdle that EnterRx begins with goes on to the entry strobe. -/
theorem awaitsForever_enterRx {place : EnterPlace → Pos} {o : Pos} {k : State → Result}
    (h : ∀ s p, s.pos = place p → exec i s = enterRx p place o s k) :
    AwaitsForever i (fun v => place (.idle (.poll v))) (· = 0x01#8) (·.goto (place .strobe)) :=
  awaitsForever_forceIdle (place := fun q => place (.idle q)) fun s q hp => (h s _ hp).trans (enterRx_idle q place o s k)

/-- So does the ForceIdle that EnterTx begins with. -/
theorem awaitsForever_enterTx {place : EnterPlace → Pos} {k : State → Result}
    (h : ∀ s p, s.pos = place p → exec i s = enterTx p place s k) :
    AwaitsForever i (fun v => place (.idle (.poll v))) (· = 0x01#8) (·.goto (place .strobe)) :=
  awaitsForever_forceIdle (place := fun q => place (.idle q)) fun s q hp => (h s _ hp).trans (enterTx_idle q place s k)

theorem awaits_enterRx {place : EnterPlace → Pos} {o : Pos}
    (h : ∀ s p, s.pos = place p → exec i s = enterRx p place o s (fun s => .next (go s))) :
    Awaits i (fun v => place (.poll v)) (· = 0x0D#8) go where
  reads := (readsUntilStable_enterRx h).2
  hit s v hp hr hv ht := by rw [h s _ hp, enterRx_poll_second _ _ _ _ _ hr, if_pos hv, if_pos ht]

theorem awaits_enterTx {place : EnterPlace → Pos}
    (h : ∀ s p, s.pos = place p → exec i s = enterTx p place s (fun s => .next (go s))) :
    Awaits i (fun v => place (.poll v)) (· = 0x13#8) go where
  reads := (readsUntilStable_enterTx h).2
  hit s v hp hr hv ht := by rw [h s _ hp, enterTx_poll_second _ _ _ _ hr, if_pos hv, if_pos ht]

end

/-- SEND's completion poll ends in idle and in TX underflow alike (R147). -/
theorem awaitsForever_sendPoll (l : Nat) :
    AwaitsForever (.send l) .sendPoll (fun st => st = 0x01#8 ∨ st = 0x16#8) State.complete where
  reads := readsUntilStable_sendPoll l
  hit s v hp hr hv ht := by
    rw [exec, execSend_poll l s _ hp, runState_second _ _ _ _ hr, if_pos hv, ← hv, if_pos ht]
  miss s v hp hr hv ht := by
    rw [exec, execSend_poll l s _ hp, runState_second _ _ _ _ hr, if_pos hv, ← hv, if_neg ht]

/-- Settles O37: by `Awaits` for the waits that end a command and for those that go on inside it. -/
theorem awaitedRunStateCompletes : Obligations.AwaitedRunStateCompletes := by
  intro s w k i v hseq hr hv after
  have hp := s.pos_running w k hseq
  refine ⟨fun h => ?_, fun k' h => ?_⟩
  · obtain ⟨rfl, rfl, ht⟩ | ⟨rfl, rfl, ht⟩ | ⟨rfl, rfl, ht⟩ | ⟨l, rfl, rfl, ht⟩ := h
    · exact (awaitsForever_forceIdle (i := .idle) execIdle_wait).hit s v hp hr hv ht
    · exact (awaits_enterRx (i := .rxon) execRxon_wait).hit s v hp hr hv ht
    · exact (awaits_enterTx (i := .txon) execTxon_wait).hit s v hp hr hv ht
    · exact (awaitsForever_sendPoll l).hit s v hp hr hv ht
  · have move : (s.exchange [0xF5#8, 0x00#8]).goto k' = { after with seq := .running w k' } :=
      State.exchange_goto hseq _ k'
    rw [← move]
    obtain ⟨rfl, rfl, rfl, ht⟩ | ⟨rfl, rfl, rfl, ht⟩ | ⟨l, bytes, rfl, rfl, rfl, ht⟩ | ⟨l, bytes, rfl, rfl, rfl, ht⟩ := h
    · exact (awaitsForever_enterRx (i := .rxon) execRxon_wait).hit s v hp hr hv ht
    · exact (awaitsForever_enterTx (i := .txon) execTxon_wait).hit s v hp hr hv ht
    · exact (awaitsForever_enterTx (i := .send l) (execSend_enter l · bytes)).hit s v hp hr hv ht
    · exact (awaits_enterTx (i := .send l) (execSend_enter l · bytes)).hit s v hp hr hv ht

/-- Settles O38: by `AwaitsForever` for every ForceIdle and for SEND's completion poll. -/
theorem unboundedPollsGoOn : Obligations.UnboundedPollsGoOn := by
  intro s w k k' i v hseq hr hv ht h
  have hp := s.pos_running w k hseq
  refine Eq.trans ?_ (congrArg _ (State.exchange_goto hseq [0xF5#8, 0x00#8] k'))
  obtain ⟨rfl, rfl, rfl⟩ | ⟨rfl, rfl, rfl⟩ | ⟨rfl, rfl, rfl⟩ | ⟨l, bytes, rfl, rfl, rfl⟩ | ⟨l, rfl, rfl, hunf, rfl⟩ := h
  · exact (awaitsForever_forceIdle (i := .idle) execIdle_wait).miss s v hp hr hv ht
  · exact (awaitsForever_enterRx (i := .rxon) execRxon_wait).miss s v hp hr hv ht
  · exact (awaitsForever_enterTx (i := .txon) execTxon_wait).miss s v hp hr hv ht
  · exact (awaitsForever_enterTx (i := .send l) (execSend_enter l · bytes)).miss s v hp hr hv ht
  · exact (awaitsForever_sendPoll l).miss s v hp hr hv (not_or.2 ⟨ht, hunf⟩)

end Sys2Proof.Machine
end

section
/-! PROOF. BRD and BWR (spec/41_fifo_burst.md R141 to R146). -/

namespace Sys2Proof.Machine

/-- The burst read that ends BRD and RECV, and what they store of it (R145, R148). -/
theorem burstRead_storeReceived {n : Nat} {s : State} (a : Byte) (hn : n ≠ 0) (hr : s.rdy = true) :
    burstRead a n s (storeReceived n) = .next
      { s with mem := bufWriteAll s.mem .rxbuf ((List.range n).map (fun j => s.answer (j + 1))),
               lens := { s.lens with rxlen := countByte n }, seq := .idle, status := s.status.completed,
               sel := .deasserted, answers := s.answers.drop (n + 1), drawCount := s.drawCount + (n + 1),
               trace := .txn (hdrByte a true true :: List.replicate n 0x00#8) (s.received (n + 1)) :: s.trace } := by
  rw [burstRead_pos _ _ _ _ hn hr]
  simp [storeReceived, State.complete, State.exchange]

/-- Settles O31: by the plan of R141, and by whether there is a byte to read. -/
theorem brdReadsIntoRxbuf : Obligations.BrdReadsIntoRxbuf := by
  intro s a l n _ hc hr hplan
  obtain ⟨hread, hhdr, -⟩ := readPlan_ok a l n hplan
  refine ⟨_, storedAt_bufWriteAll s.mem .rxbuf _, ?_⟩
  rw [exec, execBrd, gated_open _ _ hc, hread]
  obtain rfl | hn := eq_or_ne n 0
  · rfl
  · simp only [burstRead_storeReceived a hn (hr.resolve_left hn), hhdr, if_neg hn]
    rfl

theorem burstWrite_ready {a : Byte} {bytes : List Byte} {s : State} {k : State → Result} (hb : bytes ≠ [])
    (hr : s.rdy = true) : burstWrite a bytes s k = k (s.exchange (hdrByte a false true :: bytes)) := by
  rw [burstWrite, if_neg hb, txn_ready _ _ _ hr]

/-- Settles O32: by the plan of R142, whose warnings come first, and by whether there is a byte to write. -/
theorem bwrWritesAndWarns : Obligations.BwrWritesAndWarns := by
  rintro s a _ bytes _ hc hr ha hl rfl hbytes
  obtain ⟨hwrite, hhdr, hwarn⟩ := writePlan_ok a bytes.length ha hl s.status
  rw [exec, execBwr, gated_open _ _ hc, hwrite]
  simp only [withBytes_ok _ _ _ _ _ (bufReadAll_holds s.mem .txbuf bytes _ rfl hbytes)]
  obtain rfl | hne := eq_or_ne bytes []
  · rw [State.warn, hwarn]
    rfl
  · have hlen : bytes.length ≠ 0 := by simpa using hne
    have hready : (s.warn (writeWarning a bytes.length)).rdy = true := hr.resolve_left hlen
    rw [burstWrite_ready hne hready, hhdr, State.warn, hwarn]
    simp only [if_neg hlen]
    rfl

end Sys2Proof.Machine
end

section
/-! PROOF. RECV (spec/41_fifo_burst.md R148). -/

namespace Sys2Proof.Machine

section
variable {l : Nat} {s : State} {w : Word}

theorem recvCounted_zero {v : Byte} (h : min (v &&& 0x7F#8).toNat l = 0) :
    recvCounted l v s = .next (State.complete { s with lens := { s.lens with rxlen := 0x00#8 } }) :=
  if_pos h

theorem recvCounted_pos {v : Byte} {n : Nat} (h : n = min (v &&& 0x7F#8).toNat l) (hn : n ≠ 0) :
    recvCounted l v s = .next (s.goto (.recvBurst n)) := by
  subst h
  exact if_neg hn

theorem recvCounted_goto (v : Byte) (k : Pos) : recvCounted l v (s.goto k) = recvCounted l v s := by
  simp only [recvCounted, State.goto_goto]
  rfl

/-- RECV's two reads of the byte count, when they agree. -/
theorem execs_recv_counted {t : State} (hseq : s.seq = .running w .start) (hr : s.rdy = true)
    (hc : s.status.chipOk = true) (hl : l ≤ 60) (hv : s.answer 1 = s.answer 3)
    (ht : recvCounted l (s.answer 3) ((s.exchange [0xFB#8, 0x00#8]).exchange [0xFB#8, 0x00#8]) = .next t) (n : Nat) :
    execs (.recv l) (n + 2) s = execs (.recv l) n t := by
  have hfirst : exec (.recv l) s = .next ((s.exchange [0xFB#8, 0x00#8]).goto (.recvCount (some (s.answer 1)))) := by
    rw [exec, execRecv_start l s (s.pos_running w _ hseq), gated_open _ _ hc, if_neg (by simpa using hl),
      regRead_stable _ _ _ _ _ (by decide), stableRead_first _ _ _ _ hr]
    rfl
  have hpos : ((s.exchange [0xFB#8, 0x00#8]).goto (.recvCount (some (s.answer 1)))).pos =
      .recvCount (some (s.answer 1)) := State.pos_running _ w _ (by simp [hseq])
  rw [execs_one hfirst]
  refine execs_one ((exec_recv_stable hpos).trans ?_)
  rw [stableRead_second _ _ _ _ _ (by simp [hr]), if_pos (by simpa using hv), State.exchange_goto_left, recvCounted_goto]
  simpa using ht

/-- The last step of RECV. -/
theorem exec_recv_burst {n : Nat} (hseq : s.seq = .running w (.recvBurst n)) (hr : s.rdy = true) (hn : n ≠ 0) :
    exec (.recv l) s = .next
      { s with mem := bufWriteAll s.mem .rxbuf ((List.range n).map (fun j => s.answer (j + 1))),
               lens := { s.lens with rxlen := countByte n }, seq := .idle, status := s.status.completed,
               sel := .deasserted, answers := s.answers.drop (n + 1), drawCount := s.drawCount + (n + 1),
               trace := .txn (0xFF#8 :: List.replicate n 0x00#8) (s.received (n + 1)) :: s.trace } := by
  rw [exec, execRecv_burst l s n (s.pos_running w _ hseq), burstRead_storeReceived _ hn hr]
  rfl

end

/-- Settles O34: the pair of reads, then by whether there is a byte to read; the last step alone is `exec_recv_burst`. -/
theorem recvReadsTheCountedBytes : Obligations.RecvReadsTheCountedBytes := by
  refine ⟨fun s w l n hseq hr hc hl hv hn => ⟨_, storedAt_bufWriteAll s.mem .rxbuf _, ?_⟩,
    fun s w l n hseq hr hn _ => ⟨_, storedAt_bufWriteAll s.mem .rxbuf _, exec_recv_burst hseq hr (by omega)⟩⟩
  obtain rfl | hne := eq_or_ne n 0
  · rw [if_pos rfl, execs_recv_counted hseq hr hc hl hv (recvCounted_zero hn.symm) 0, execs]
    simp [State.complete, Status.completed, State.received_two, bufWriteAll, bufWriteFrom]
  · have hburst : (((s.exchange [0xFB#8, 0x00#8]).exchange [0xFB#8, 0x00#8]).goto (.recvBurst n)).seq =
        .running w (.recvBurst n) := by simp [hseq]
    have hread (j : Nat) : 2 + (2 + j) = 4 + j := by omega
    have hheader (j : Nat) : 4 + (j + 1) = 5 + j := by omega
    rw [if_neg hne, execs_recv_counted hseq hr hc hl hv (recvCounted_pos hn hne) 1,
      execs_one (exec_recv_burst hburst hr hne), execs]
    simp [State.received_two, State.received_exchange, Status.completed, countByte, hread, hheader, hne, Nat.add_assoc]

end Sys2Proof.Machine
end

section
/-! PROOF. SEND's whole run (spec/41_fifo_burst.md R147). -/

namespace Sys2Proof.Machine

/-- The transactions of EnterTx from its first poll on, when both its polls agree on their targets at once (R173). -/
def State.txEntered (s : State) : State :=
  ((((s.exchange [0xF5#8, 0x00#8]).exchange [0xF5#8, 0x00#8]).exchange [0x35#8]).setStuck 0).exchange
    [0xF5#8, 0x00#8] |>.exchange [0xF5#8, 0x00#8]

theorem execs_enterTx {i : Instr} {place : EnterPlace → Pos} {go : State → State}
    (h : ∀ s p, s.pos = place p → exec i s = enterTx p place s (fun s => .next (go s)))
    (hgo : ∀ s k, go (s.goto k) = go s) {s : State} {w : Word}
    (hseq : s.seq = .running w (place (.idle (.poll none)))) (hr : s.rdy = true)
    (hidle : s.answer 1 = s.answer 3) (hidle' : s.answer 3 &&& 0x1F#8 = 0x01#8)
    (htx : s.answer 6 = s.answer 8) (htx' : s.answer 8 &&& 0x1F#8 = 0x13#8) (n : Nat) :
    execs i (n + 5) s = execs i n (go s.txEntered) := by
  have hentry (u : State) (hp : u.pos = place .strobe) (hu : u.rdy = true) :
      exec i u = .next (((u.exchange [0x35#8]).setStuck 0).goto (place (.poll none))) := by
    rw [h u _ hp, enterTx_strobe, enterStrobe_ready _ _ _ hu]
    rfl
  rw [(awaitsForever_enterTx h).execs_pair (fun s k => s.goto_goto k _) hseq hr hidle hidle' (n + 3),
    execs_one (hentry _ (State.pos_running _ w _ (by simp [hseq])) (by simp [hr])),
    (awaits_enterTx h).execs_pair hgo (w := w) (by simp [hseq]) (by simp [hr]) (by simpa using htx)
      (by simpa using htx') n]
  simp [hgo, State.txEntered]

section
variable {l : Nat} {s : State} {w : Word} {bytes : List Byte}

theorem exec_send_start (hseq : s.seq = .running w .start) (hr : s.rdy = true) (hc : s.status.chipOk = true)
    (hl : l ≤ 60) (hlen : bytes.length = l) (hbytes : holdsBytes s.mem .txbuf bytes) :
    exec (.send l) s = .next ((s.exchange [0x3B#8]).goto (.sendEnter bytes (.idle .strobe))) := by
  rw [exec, execSend_start l s (s.pos_running w _ hseq), gated_open _ _ hc, if_neg (by simpa using hl),
    withBytes_ok _ _ _ _ _ (bufReadAll_holds s.mem .txbuf bytes l hlen hbytes), strobe_ready _ _ _ hr]
  rfl

theorem exec_send_idleStrobe (hseq : s.seq = .running w (.sendEnter bytes (.idle .strobe))) (hr : s.rdy = true) :
    exec (.send l) s = .next ((s.exchange [0x36#8]).goto (.sendEnter bytes (.idle (.poll none)))) := by
  rw [exec, execSend_enter l s bytes _ (s.pos_running w _ hseq), enterTx_idle, forceIdle_strobe_ready _ _ _ hr]

theorem exec_send_burst (hseq : s.seq = .running w (.sendBurst bytes)) (hr : s.rdy = true) (hne : bytes ≠ []) :
    exec (.send l) s = .next ((s.exchange (0x7F#8 :: bytes)).goto (.sendPoll none)) := by
  rw [exec, execSend_burst l s bytes (s.pos_running w _ hseq), burstWrite_ready hne hr]
  rfl

/-- SEND up to its burst, when the polls of its EnterTx agree on their targets at once. -/
theorem execs_send_enter (hseq : s.seq = .running w .start) (hr : s.rdy = true) (hc : s.status.chipOk = true)
    (hl : l ≤ 60) (hlen : bytes.length = l) (hbytes : holdsBytes s.mem .txbuf bytes)
    (hidle : s.answer 3 = s.answer 5) (hidle' : s.answer 5 &&& 0x1F#8 = 0x01#8)
    (htx : s.answer 8 = s.answer 10) (htx' : s.answer 10 &&& 0x1F#8 = 0x13#8) (n : Nat) :
    execs (.send l) (n + 7) s =
      execs (.send l) n (((s.exchange [0x3B#8]).exchange [0x36#8]).txEntered.goto (sendAfterEnter bytes)) := by
  have hstrobe := exec_send_idleStrobe (l := l) (bytes := bytes)
    (s := (s.exchange [0x3B#8]).goto (.sendEnter bytes (.idle .strobe))) (w := w) (by simp [hseq]) hr
  rw [execs_one (exec_send_start hseq hr hc hl hlen hbytes), execs_one hstrobe,
    execs_enterTx (i := .send l) (execSend_enter l · bytes) (fun s k => s.goto_goto k _) (w := w) (by simp [hseq])
      (by simp [hr]) (by simpa using hidle) (by simpa using hidle') (by simpa using htx) (by simpa using htx')]
  simp [State.txEntered]

theorem execs_send_poll (hseq : s.seq = .running w (.sendPoll none)) (hr : s.rdy = true)
    (hv : s.answer 1 = s.answer 3)
    (ht : s.answer 3 &&& 0x1F#8 = 0x01#8 ∨ s.answer 3 &&& 0x1F#8 = 0x16#8) :
    execs (.send l) 2 s = .next ((s.exchange [0xF5#8, 0x00#8]).exchange [0xF5#8, 0x00#8]).complete :=
  (awaitsForever_sendPoll l).execs_pair State.complete_goto hseq hr hv ht 0

end

/-- Settles O33: the flush and the entry, the burst when there is a byte, then the completion poll. -/
theorem sendRunsToCompletion : Obligations.SendRunsToCompletion := by
  rintro s w _ c bytes hseq hr hc hl rfl hbytes hcount hidle hidle' htx htx' hdone hdone'
  have enter := execs_send_enter hseq hr hc hl rfl hbytes hidle hidle' htx htx'
  obtain rfl | hne := eq_or_ne bytes []
  · obtain rfl : c = 11 := hcount
    refine (enter 2).trans ?_
    rw [sendAfterEnter, if_pos rfl, execs_send_poll (w := w) (by simp [State.txEntered, hseq])
      (by simp [State.txEntered, hr]) (by simpa [State.txEntered] using hdone) (by simpa [State.txEntered] using hdone')]
    simp [State.txEntered, State.received_two, State.received_one, State.complete, Status.completed]
  · have hlen : bytes.length ≠ 0 := by simpa using hne
    rw [if_neg hlen, Nat.add_comm] at hcount
    subst hcount
    have hburst := exec_send_burst (l := bytes.length) (w := w)
      (s := ((s.exchange [0x3B#8]).exchange [0x36#8]).txEntered.goto (.sendBurst bytes))
      (by simp [State.txEntered, hseq]) (by simp [State.txEntered, hr]) hne
    -- answer `j` after TX is entered, counted from SEND's start
    have hread (j : Nat) : 1 + (1 + (2 + (2 + (1 + (2 + (2 + j)))))) = j + 11 := by omega
    rw [if_neg hlen, enter 3, sendAfterEnter, if_neg hne, execs_one hburst,
      execs_send_poll (w := w) (by simp [State.txEntered, hseq]) (by simp [State.txEntered, hr])
        (by simpa [State.txEntered, hread] using hdone) (by simpa [State.txEntered, hread] using hdone')]
    simp [State.txEntered, State.received_exchange, State.received_two, State.received_one, State.complete,
      Status.completed, hread, hne, Nat.add_comm 11]
    omega

end Sys2Proof.Machine
end

section
/-! PROOF. The whole runs of IDLE, RXON and TXON, and RXON's overflow poll (spec/42_radio_state.md R170 to R176). -/

namespace Sys2Proof.Machine

/-! IDLE: the strobe at its start, then the pair of polls. -/

theorem exec_idle_start {s : State} (hp : s.pos = .start) (hr : s.rdy = true) (hc : s.status.chipOk = true) :
    exec .idle s = .next ((s.exchange [0x36#8]).goto (.idleWait (.poll none))) := by
  rw [exec, execIdle_start s hp, gated_open _ _ hc, forceIdle_strobe_ready _ _ _ hr]

/-- Settles O35: the first poll of ForceIdle is stable and reads idle, so it ends the command. -/
theorem idleRunsToCompletion : Obligations.IdleRunsToCompletion := by
  intro s w hseq hr hc hv ht
  rw [execs_one (exec_idle_start (s.pos_running w _ hseq) hr hc),
    (awaitsForever_forceIdle (i := .idle) execIdle_wait).execs_pair State.complete_goto (w := w) (by simp [hseq])
      (by simp [hr]) (by simpa using hv) (by simpa using ht) 0, execs]
  simp [State.received_two, State.received_one, State.complete, Status.completed]

/-! RXON and TXON. -/

/-- Command `i` is the wait at the places `place`: ForceIdle, the strobe `entry` with the count set to 0, the poll for
`target`, and then it completes (R171, R173, R175, R176). -/
structure EntersTarget (i : Instr) (place : EnterPlace → Pos) (entry target : Byte) : Prop where
  start : ∀ s : State, s.pos = .start → s.rdy = true → s.status.chipOk = true →
    exec i s = .next ((s.exchange [0x36#8]).goto (place (.idle (.poll none))))
  idle : Awaits i (fun v => place (.idle (.poll v))) (· = 0x01#8) (·.goto (place .strobe))
  strobe : ∀ s : State, s.pos = place .strobe → s.rdy = true →
    exec i s = .next (((s.exchange [entry]).setStuck 0).goto (place (.poll none)))
  poll : Awaits i (fun v => place (.poll v)) (· = target) State.complete

theorem entersTarget_rxon : EntersTarget .rxon .rxonWait 0x34#8 0x0D#8 where
  start s hp hr hc := by
    rw [exec, execRxon_start s hp, gated_open _ _ hc, enterRx_idle, forceIdle_strobe_ready _ _ _ hr]
  idle := (awaitsForever_enterRx execRxon_wait).toAwaits
  strobe s hp hr := by
    rw [exec, execRxon_wait s _ hp, enterRx_strobe, enterStrobe_ready _ _ _ hr]
    rfl
  poll := awaits_enterRx execRxon_wait

theorem entersTarget_txon : EntersTarget .txon .txonWait 0x35#8 0x13#8 where
  start s hp hr hc := by
    rw [exec, execTxon_start s hp, gated_open _ _ hc, enterTx_idle, forceIdle_strobe_ready _ _ _ hr]
  idle := (awaitsForever_enterTx execTxon_wait).toAwaits
  strobe s hp hr := by
    rw [exec, execTxon_wait s _ hp, enterTx_strobe, enterStrobe_ready _ _ _ hr]
    rfl
  poll := awaits_enterTx execTxon_wait

/-- The run of such a command when both its polls agree on their targets at once: the six transactions, in their order. -/
theorem EntersTarget.execs_six {i : Instr} {place : EnterPlace → Pos} {entry target : Byte}
    (h : EntersTarget i place entry target) {s : State} {w : Word} (hseq : s.seq = .running w .start) (hr : s.rdy = true)
    (hc : s.status.chipOk = true) (hidle : s.answer 2 = s.answer 4) (hidle' : s.answer 4 &&& 0x1F#8 = 0x01#8)
    (ht : s.answer 7 = s.answer 9) (ht' : s.answer 9 &&& 0x1F#8 = target) :
    execs i 6 s = .next
      (((((s.exchange [0x36#8]).exchange [0xF5#8, 0x00#8]).exchange [0xF5#8, 0x00#8]).exchange [entry]).setStuck 0
        |>.exchange [0xF5#8, 0x00#8] |>.exchange [0xF5#8, 0x00#8]).complete := by
  rw [execs_one (h.start s (s.pos_running w _ hseq) hr hc),
    h.idle.execs_pair (fun s k => s.goto_goto k _) (w := w) (by simp [hseq]) (by simp [hr]) (by simpa using hidle)
      (by simpa using hidle') 3,
    execs_one (h.strobe _ (State.pos_running _ w _ (by simp [hseq])) (by simp [hr])),
    h.poll.execs_pair State.complete_goto (w := w) (by simp [hseq]) (by simp [hr]) (by simpa using ht)
      (by simpa using ht') 0, execs]
  simp

/-- Settles O36: by `EntersTarget` for the two commands. -/
theorem entryCommandsRunToCompletion : Obligations.EntryCommandsRunToCompletion := by
  intro s w i entry target hi hseq hr hc hidle hidle' ht ht'
  have hrun : ∃ place, EntersTarget i place entry target := by
    obtain ⟨rfl, rfl, rfl⟩ | ⟨rfl, rfl, rfl⟩ := hi
    · exact ⟨_, entersTarget_rxon⟩
    · exact ⟨_, entersTarget_txon⟩
  obtain ⟨place, hrun⟩ := hrun
  rw [hrun.execs_six hseq hr hc hidle hidle' ht ht']
  simp [State.received_two, State.received_one, State.complete, Status.completed]

/-! RXON's overflow (R171, R172). -/

section
variable {s : State} {w : Word}

/-- A stable poll that reads RX overflow is not counted yet: the flush comes first. -/
theorem exec_rxon_overflowPoll {v : Byte} (hseq : s.seq = .running w (.rxonWait (.poll (some v)))) (hr : s.rdy = true)
    (hv : v = s.answer 1) (hov : v &&& 0x1F#8 = 0x11#8) :
    exec .rxon s = .next ((s.exchange [0xF5#8, 0x00#8]).goto .rxonOverflow) := by
  have hmiss : v &&& 0x1F#8 ≠ 0x0D#8 := by simp [hov]
  rw [exec, execRxon_wait s _ (s.pos_running w _ hseq), enterRx_poll_second _ _ _ _ _ hr, if_pos hv, if_neg hmiss,
    if_pos hov]

/-- The flush, after which the poll is counted. -/
theorem exec_rxon_overflowFlush (hseq : s.seq = .running w .rxonOverflow) (hr : s.rdy = true) :
    exec .rxon s = .next (stuckStep .rxonWait (s.exchange [0x3A#8])) := by
  rw [exec, execRxon_overflow s (s.pos_running w _ hseq), overflowFlush_ready _ _ hr]

end

/-- Settles O40: the overflow poll, then the flush that counts it. -/
theorem overflowPollFlushesAndCounts : Obligations.OverflowPollFlushesAndCounts := by
  intro s w v hseq hr hv hov
  have hflush : ((s.exchange [0xF5#8, 0x00#8]).goto .rxonOverflow).seq = .running w .rxonOverflow := by simp [hseq]
  rw [execs_one (exec_rxon_overflowPoll hseq hr hv hov), execs_one (exec_rxon_overflowFlush hflush hr), execs,
    stuckStep_eq, State.exchange_setStuck_goto hflush]
  simp [State.received_two, State.received_one]

end Sys2Proof.Machine
end

section
/-! PROOF. The frame decoder and DECODE: the searches, the bits and the length of a decoded payload, and what the command reports (spec/43_frame_decode.md R190 to R199). -/

namespace Sys2Proof.Machine

/-! The searches (R190, R191). -/

theorem findHeader_iff (f : List Byte) (h : Nat) : findHeader f = some h ↔
    h < f.length ∧ (f.drop h).take 5 = Config.HDR ∧ ∀ j, j < h → (f.drop j).take 5 ≠ Config.HDR := by
  rw [findHeader, findHeaderFrom_iff]
  simp only [Nat.zero_add, exists_eq_left']

/-- A header lies in the frame with all its bytes. -/
theorem header_le_length {f : List Byte} {h : Nat} (hh : (f.drop h).take 5 = Config.HDR) : h + 5 ≤ f.length := by
  have hlen := congrArg List.length hh
  simp only [List.length_take, List.length_drop, List.length_cons, List.length_nil] at hlen
  omega

theorem findFooter_iff (f : List Byte) (h j : Nat) (b : Byte) : findFooter f h = some (j, b) ↔
    h + 5 ≤ j ∧ f[j]? = some b ∧ (b = 0xAC#8 ∨ b = 0xCA#8) ∧
      ∀ k, h + 5 ≤ k → k < j → f[k]? ≠ some 0xAC#8 ∧ f[k]? ≠ some 0xCA#8 := by
  rw [findFooter, findFooterFrom_iff]
  simp only [List.getElem?_drop]
  constructor
  · rintro ⟨k, rfl, hb, hfoot, hfirst⟩
    refine ⟨by simp, hb, hfoot, fun x hx hxk => ?_⟩
    obtain ⟨y, rfl⟩ := Nat.exists_eq_add_of_le hx
    exact hfirst y (by simpa using hxk)
  · rintro ⟨hj, hb, hfoot, hfirst⟩
    obtain ⟨k, rfl⟩ := Nat.exists_eq_add_of_le hj
    exact ⟨k, rfl, hb, hfoot, fun x hx => hfirst (h + 5 + x) (by omega) (by omega)⟩

/-- Settles O41: both searches run from their start, and a header that stands at a place lies in the frame. -/
theorem searchFindsTheFirst : Obligations.SearchFindsTheFirst := by
  refine ⟨fun f h => (findHeader_iff f h).trans ?_, findFooter_iff⟩
  constructor
  · rintro ⟨-, hhere, hfirst⟩
    exact ⟨header_le_length hhere, hhere, hfirst⟩
  · rintro ⟨hlen, hhere, hfirst⟩
    exact ⟨by omega, hhere, hfirst⟩

/-! The decoded payload (R193 to R195). -/

/-- Bit `p` of decoded byte `m` is the first bit of a Manchester pair: bit `p % 4` of the five-bit group of its nibble. -/
theorem decodePayload_bit {e : List Byte} {m p : Nat} {b : Byte} (hb : (decodePayload e)[m]? = some b) (hp : p < 8) :
    (bitsMsb e)[2 * (5 * (2 * m + (if 4 ≤ p then 0 else 1)) + p % 4)]? = some (b.getLsbD p) := by
  have hnibble : ∃ q : Nibble, (deintlv (manCollapse (bitsMsb e)))[2 * m + (if 4 ≤ p then 0 else 1)]? = some q ∧
      b.getLsbD p = q.getLsbD (p % 4) := by
    obtain ⟨hi, lo, hhi, hlo, rfl⟩ := packNibbles_getElem? _ _ _ hb
    by_cases hhalf : 4 ≤ p
    · exact ⟨hi, by rwa [if_pos hhalf], by rw [nibblePair_getLsbD _ _ _ hp, if_neg (by omega)]⟩
    · exact ⟨lo, by rwa [if_neg hhalf], by
        rw [nibblePair_getLsbD _ _ _ hp, if_pos (by omega), Nat.mod_eq_of_lt (by omega : p < 4)]⟩
  obtain ⟨q, hq, hbit⟩ := hnibble
  have hgroup := deintlv_getElem? _ _ _ hq (p % 4) (by omega)
  obtain ⟨hlt, -⟩ := List.getElem?_eq_some_iff.1 hgroup
  rw [manCollapse_length] at hlt
  rw [hbit, ← hgroup, manCollapse_getElem? _ _ hlt]

/-- Settles O42: `decodePayload_bit`, read in the byte of the encoded payload that holds the bit. -/
theorem decodedPayloadBits : Obligations.DecodedPayloadBits := by
  rintro e m p i b v hp hb rfl hv
  have hbit := decodePayload_bit hb hp
  rw [bitsMsb_getElem?, hv] at hbit
  exact (Option.some.inj hbit).symm

/-- Settles O43: the footer lies in the frame behind the header, so at most 54 bytes stand between them. -/
theorem decodeLengthLaw : Obligations.DecodeLengthLaw := by
  refine ⟨decodePayload_length, fun f d hf hd => ?_⟩
  obtain ⟨-, hfoot, hplen, hpay, -⟩ := codecDecode_some f d hd
  obtain ⟨-, hfooter, -⟩ := (findFooter_iff _ _ _ _).1 hfoot
  obtain ⟨hin, -⟩ := List.getElem?_eq_some_iff.1 hfooter
  have hlen : ((f.drop (d.hoff + 5)).take d.plen).length = d.plen := by
    rw [List.length_take, List.length_drop]
    omega
  refine ⟨by omega, ?_, codecDecode_payload_le hd hf⟩
  rw [hpay, decodePayload_length, hlen]

/-! DECODE (R196, R198). -/

theorem codecDecode_none_iff (f : List Byte) : codecDecode f = none ↔
    findHeader f = none ∨ ∃ h, findHeader f = some h ∧ findFooter f h = none := by
  cases hhdr : findHeader f with
  | none => simp [codecDecode, hhdr]
  | some h => cases hfoot : findFooter f h <;> simp [codecDecode, hhdr, hfoot]

/-- DECODE of bytes that are all written. -/
theorem exec_decode {s : State} {l : Nat} {frame : List Byte} (hl : l ≤ 60) (hlen : frame.length = l)
    (hframe : holdsBytes s.mem .rxbuf frame) :
    exec (.decode l) s = .next (decodeStore (codecDecode frame) s).complete := by
  rw [exec, execDecode, if_neg (Nat.not_lt.2 hl), withBytes_ok _ _ _ _ _ (bufReadAll_holds _ _ _ _ hlen hframe)]

/-- Settles O49: the decoder by its searches, the command by whether there is a packet. -/
theorem decodeCommandReports : Obligations.DecodeCommandReports := by
  refine ⟨codecDecode_none_iff, fun f d hd => ?_, fun s l frame hl hlen hframe => ⟨fun hd => ?_, fun d hd => ?_⟩⟩
  · obtain ⟨hhdr, hfoot, hplen, hpay, hvalid⟩ := codecDecode_some f d hd
    obtain ⟨hbehind, -⟩ := (findFooter_iff _ _ _ _).1 hfoot
    refine ⟨hhdr, hfoot, by omega, ?_, hvalid⟩
    rw [hpay, hplen, List.drop_take]
  · rw [exec_decode hl hlen hframe, hd]
    rfl
  · obtain ⟨-, hfoot, -⟩ := codecDecode_some frame d hd
    obtain ⟨-, hfooter, -⟩ := (findFooter_iff _ _ _ _).1 hfoot
    refine ⟨hfooter, _, storedAt_bufWriteAll s.mem .decbuf d.payload, ?_⟩
    rw [exec_decode hl hlen hframe, hd]
    rfl

end Sys2Proof.Machine
end

section
/-! PROOF. The round trip of a frame through the codec, and through ENCODE and DECODE (spec/43_frame_decode.md R198, spec/44_frame_encode.md R229 to R231). -/

namespace Sys2Proof.Machine

/-- The decoding of a frame whose header and footer are found. -/
theorem codecDecode_of_found {f : List Byte} {h j : Nat} {b : Byte} (hhdr : findHeader f = some h)
    (hfoot : findFooter f h = some (j, b)) :
    codecDecode f = some
      { payload := decodePayload ((f.drop (h + 5)).take (j - (h + 5))),
        valid := valid (decodePayload ((f.drop (h + 5)).take (j - (h + 5)))),
        hoff := h, foff := j, ftr := b, plen := j - (h + 5) } := by
  simp [codecDecode, hhdr, hfoot]

/-- A byte of Manchester pairs is no footer byte, since each of those holds two equal bits in a pair (R231). -/
theorem encodePayload_no_footer {c : List Byte} {b : Byte} (hb : b ∈ encodePayload c) : b ≠ 0xAC#8 ∧ b ≠ 0xCA#8 := by
  have hpairs : ∀ y3 y2 y1 y0, byteOfBits y3 (!y3) y2 (!y2) y1 (!y1) y0 (!y0) ≠ 0xAC#8 ∧
      byteOfBits y3 (!y3) y2 (!y2) y1 (!y1) y0 (!y0) ≠ 0xCA#8 := by decide
  obtain ⟨y3, y2, y1, y0, rfl⟩ := packMsb_manEnc _ _ hb
  exact hpairs y3 y2 y1 y0

theorem footer_cases (n : Nat) : footer n = 0xAC#8 ∨ footer n = 0xCA#8 := by
  rw [footer]
  split
  · exact .inl rfl
  · exact .inr rfl

theorem findHeader_codecEncode (c : List Byte) : findHeader (codecEncode c) = some 0 :=
  (findHeader_iff _ _).2 ⟨by simp [codecEncode], by simp [codecEncode], by simp⟩

theorem codecEncode_drop_header (c : List Byte) : (codecEncode c).drop 5 = encodePayload c ++ footer c.length ::
    List.replicate (Config.FRAME_LEN - 6 - (encodePayload c).length) Config.POST := by
  simp [codecEncode]

/-- The footer of a Packet is the first footer byte behind its header: the payload between them has none. -/
theorem findFooter_codecEncode (c : List Byte) :
    findFooter (codecEncode c) 0 = some (5 + (encodePayload c).length, footer c.length) := by
  show findFooterFrom 5 ((codecEncode c).drop 5) = _
  rw [codecEncode_drop_header, findFooterFrom_iff]
  refine ⟨(encodePayload c).length, rfl, by simp, footer_cases _, fun x hx => ?_⟩
  rw [List.getElem?_append_left hx, List.getElem?_eq_getElem hx]
  simpa using encodePayload_no_footer (List.getElem_mem hx)

/-- Decoding the Packet of a frame gives the frame back (R230). -/
theorem codecDecode_codecEncode (c : List Byte) :
    codecDecode (codecEncode c) = some
      { payload := c, valid := valid c, hoff := 0, foff := 5 + (encodePayload c).length, ftr := footer c.length,
        plen := (encodePayload c).length } := by
  rw [codecDecode_of_found (findHeader_codecEncode c) (findFooter_codecEncode c)]
  simp only [Nat.zero_add, Nat.add_sub_cancel_left, codecEncode_drop_header, List.take_left, decodePayload_encodePayload]

/-- ENCODE of bytes that are all written. -/
theorem exec_encode {s : State} {l : Nat} {c : List Byte} (hl : l ≤ 21) (hlen : c.length = l)
    (hc : holdsBytes s.mem .cmdbuf c) :
    exec (.encode l) s = .next (State.complete
      { s with mem := bufWriteAll s.mem .txbuf (codecEncode c),
               lens := { s.lens with txlen := countByte Config.FRAME_LEN } }) := by
  rw [exec, execEncode, if_neg (Nat.not_lt.2 hl), withBytes_ok _ _ _ _ _ (bufReadAll_holds _ _ _ _ hlen hc)]

theorem holdsBytes_bufWriteAll (m : Memory) (b : Buf) (vs : List Byte) : holdsBytes (bufWriteAll m b vs) b vs :=
  (storedAt_bufWriteAll m b vs).1

/-- Settles O54: ENCODE leaves the Packet in TXBUF, its copy in RXBUF is what DECODE reads, and the codec gives the frame
back. -/
theorem encodeThenDecodeReproducesTheFrame : Obligations.EncodeThenDecodeReproducesTheFrame := by
  intro s t u l c hl hlen hc ht hcopy
  have hpacket : (codecEncode c).length = 60 := codecEncode_length (by simpa [hlen] using hl)
  have hrx : holdsBytes u.mem .rxbuf (codecEncode c) := by
    rw [exec_encode hl hlen hc] at ht
    cases ht
    intro j hj
    rw [hcopy j (by omega)]
    exact holdsBytes_bufWriteAll s.mem .txbuf _ j hj
  refine ⟨_, exec_decode le_rfl hpacket hrx, ?_⟩
  rw [codecDecode_codecEncode]
  have hdeclen : (countByte c.length).toNat = l := (countByte_toNat (by omega)).trans hlen
  exact ⟨holdsBytes_bufWriteAll u.mem .decbuf c, hdeclen, rfl, rfl, rfl⟩

end Sys2Proof.Machine
end

section
/-! PROOF. The frame encoder and ENCODE: the bits, the bytes and the length of an encoded payload, the Packet, and its round trip through the decoder (spec/44_frame_encode.md R220 to R231). -/

namespace Sys2Proof.Machine

/-- Settles O47: `codecDecode_codecEncode`, with the validity and the footer written out. -/
theorem codecRoundTrip : Obligations.CodecRoundTrip := fun c _ => codecDecode_codecEncode c

/-- Settles O44: the bit read in its byte is a bit of the Manchester code, and that one is a bit of the interleaved stream. -/
theorem encodedPayloadBits : Obligations.EncodedPayloadBits := by
  rintro c k p x i b hp hb hx rfl
  have hbit : (bitsMsb (encodePayload c))[x]? = some (b.getLsbD p) := by
    rw [bitsMsb_getElem?, show x / 8 = k by omega, show 7 - x % 8 = p by omega, hb]
    rfl
  rw [bits_encodePayload] at hbit
  obtain ⟨hlt, -⟩ := List.getElem?_eq_some_iff.1 hbit
  rw [manEnc_length] at hlt
  rw [manEnc_getElem?, intlv_getElem? c _ (by omega)] at hbit
  exact (Option.some.inj hbit).symm

/-- Settles O45: the law is `encodePayload_length`, and padding fills the Packet of a frame that fits to 60 bytes. -/
theorem encodeLengthLaw : Obligations.EncodeLengthLaw :=
  fun c => ⟨encodePayload_length c, codecEncode_length⟩

/-- Settles O46: the bytes of four Manchester pairs are the sixteen of the list, none of them a footer or header byte. -/
theorem encodedBytesAreManchester : Obligations.EncodedBytesAreManchester := by
  intro c b hb
  obtain ⟨y3, y2, y1, y0, rfl⟩ := packMsb_manEnc _ _ hb
  clear hb
  revert y3 y2 y1 y0
  decide

/-- Settles O50: ENCODE writes the Packet from TXBUF's first byte on. -/
theorem encodeCommandWritesThePacket : Obligations.EncodeCommandWritesThePacket := by
  rintro s _ c hl rfl hc
  exact ⟨_, storedAt_bufWriteAll s.mem .txbuf (codecEncode c), exec_encode hl rfl hc⟩

end Sys2Proof.Machine
end

section
/-! PROOF. The checksum and its sum law, and the two commands that store it: CKSUM and COMPOSE (spec/45_checksum.md R250 to R256). -/

namespace Sys2Proof.Machine

/-- The checksum completes the sum of the bytes to 0 mod 256 (R251). -/
theorem byteSum_add_cks (c : List Byte) : (byteSum c + (cks c).toNat) % 256 = 0 := by
  rw [cks_toNat]
  omega

theorem byteSum_append_cks (c : List Byte) : byteSum (c ++ [cks c]) % 256 = 0 := by
  rw [byteSum_append]
  exact byteSum_add_cks c

/-- Settles O48: the value is `cks_toNat`, the law `byteSum_append_cks`. -/
theorem checksumSumsToZero : Obligations.ChecksumSumsToZero :=
  fun c => ⟨cks_toNat c, byteSum_append_cks c⟩

/-- CKSUM of bytes that are all written. -/
theorem exec_cksum {s : State} {l : Nat} {c : List Byte} (hl : l ≤ 31) (hlen : c.length = l)
    (hc : holdsBytes s.mem .cmdbuf c) :
    exec (.cksum l) s = .next (State.complete
      { s with mem := bufWrite s.mem .cmdbuf l (cks c), lens := { s.lens with cmdlen := countByte (l + 1) } }) := by
  rw [exec, execCksum, if_neg (show ¬ Config.CMDBUF_SIZE - 1 < l from Nat.not_lt.2 hl),
    withBytes_ok _ _ _ _ _ (bufReadAll_holds _ _ _ _ hlen hc)]

/-- Settles O51: the one byte written is the checksum, which makes the sum 0. -/
theorem cksumAppendsTheChecksum : Obligations.CksumAppendsTheChecksum := by
  intro s l c hl hlen hc
  exact ⟨bufWrite s.mem .cmdbuf l (cks c), cks c, byteSum_add_cks c, Memory.read_write_same _ _ _,
    fun a ha => Memory.read_write_other _ _ _ _ ha, exec_cksum hl hlen hc⟩

/-- COMPOSE of a body that is all written, with the own address set: the CommandFrame stands in CMDBUF as one run of
bytes, its checksum the last. -/
theorem exec_compose {s : State} {l : Nat} {body : List Byte} (hl : l ≤ 26) (haddr : s.status.addrSet = true)
    (hlen : body.length = l) (hbody : holdsBytes s.mem .cmdbuf body) :
    exec (.compose l) s = .next (State.complete
      { s with mem := bufWriteAll s.mem .cmdbuf
                 (frameHead s.ownAddr s.rollCnt body ++ [cks (frameHead s.ownAddr s.rollCnt body)]),
               rollCnt := s.rollCnt + 1, lens := { s.lens with cmdlen := countByte (l + 6) } }) := by
  have hhead : (frameHead s.ownAddr s.rollCnt body).length = l + 5 := by rw [frameHead_length, hlen]
  rw [exec, execCompose, if_neg (show ¬ Config.CMDBUF_SIZE - 6 < l from Nat.not_lt.2 hl), if_neg (by simp [haddr]),
    withBytes_ok _ _ _ _ _ (bufReadAll_holds _ _ _ _ hlen hbody), ← bufWriteAll_snoc, hhead]

/-- The counter's next value, on numbers (R254). -/
theorem byte_succ_eq_ofNat (b : Byte) : b + 1 = BitVec.ofNat 8 ((b.toNat + 1) % 256) :=
  BitVec.eq_of_toNat_eq (by simp)

/-- Settles O52: the frame written is its head followed by the head's checksum, which makes the sum 0. -/
theorem composeBuildsTheFrame : Obligations.ComposeBuildsTheFrame := by
  intro s l body hl haddr hlen hbody
  refine ⟨_, cks (frameHead s.ownAddr s.rollCnt body), storedAt_bufWriteAll s.mem .cmdbuf _,
    byteSum_append_cks (frameHead s.ownAddr s.rollCnt body), ?_⟩
  rw [← byte_succ_eq_ofNat]
  exact exec_compose hl haddr hlen hbody

end Sys2Proof.Machine
end

section
/-! PROOF. IRQACK (spec/46_edge_notify.md R270). -/

namespace Sys2Proof.Machine

/-- IRQACK has no check and no bus position: from any state it moves the flag into RDATA and completes. -/
theorem exec_irqack (s : State) :
    exec .irqack s = .next (State.complete { s with rdata := flagByte s.irqFlag, irqFlag := false }) := rfl

/-- Settles O53: the flag's byte and the completed status, written out. -/
theorem irqackDrainsTheFlag : Obligations.IrqackDrainsTheFlag := by
  intro s
  rw [exec_irqack, flagByte, State.complete, Status.completed]

end Sys2Proof.Machine
end

section
/-! PROOF. The edge event, the errors past the checks, and where the machine stops (spec/60_exceptions.md R300 to R312, R351). -/

namespace Sys2Proof.Machine

/-- Settles O14: the event by the edge source's move; the commands by their registers (O55), IRQACK by what it writes. -/
theorem edgeEventSetsFlagAndCounts : Obligations.EdgeEventSetsFlagAndCounts := by
  refine ⟨fun s rest hin => ?_, fun i s t ht => ?_⟩
  · rw [step, hin]
    rfl
  · obtain ⟨-, -, hcnt, -, -, -, -, -, -, -, -, -, -, -, -, -, -, hflag, -⟩ := commandsChangeOnlyTheirRegisters i s t ht
    refine ⟨hcnt, ?_⟩
    by_cases hi : i = .irqack
    · subst hi
      rw [exec_irqack] at ht
      cases ht
      exact .inr ⟨rfl, rfl⟩
    · exact .inl (hflag hi)

/-! No error past the checks. -/

/-- The step from `s` to `t` of command `i` reports no error, but for INIT's when the identification fails (R111). -/
def ErrorOnlyByInit (i : Instr) (s t : State) : Prop :=
  t.status.err = s.status.err ∨ (i = .init ∧ t.status.err = .chipNotFound ∧ t.status.chipOk = false)

section
variable {i : Instr} {s : State}

theorem ErrorOnlyByInit.same {t : State} (h : t.status.err = s.status.err) : ErrorOnlyByInit i s t := .inl h

theorem stuckStep_status (at' : EnterPlace → Pos) (s : State) : (stuckStep at' s).status = s.status := by
  rw [stuckStep_eq]
  rfl

theorem ErrorOnlyByInit.stuckStep (at' : EnterPlace → Pos) (out : List Byte) :
    ErrorOnlyByInit i s (stuckStep at' (s.exchange out)) :=
  .same (congrArg Status.err (stuckStep_status at' _))

theorem ensures_regRead_error {a : Byte} {v1 : Option Byte} {at' : Option Byte → Pos} {k : Byte → State → Result}
    (hk : ∀ v out, Ensures (k v (s.exchange out)) (ErrorOnlyByInit i s)) :
    Ensures (regRead a v1 at' s k) (ErrorOnlyByInit i s) :=
  .regRead (fun _ _ => hk _ _) (fun _ _ _ _ => .same rfl) (fun _ => .same rfl)

theorem ensures_strobe_error {c : Byte} {k : Byte → State → Result}
    (hk : ∀ v out, Ensures (k v (s.exchange out)) (ErrorOnlyByInit i s)) :
    Ensures (strobe c s k) (ErrorOnlyByInit i s) :=
  .strobe (fun _ => hk _ _) (fun _ => .same rfl)

theorem ensures_burstRead_error {a : Byte} {n : Nat} :
    Ensures (burstRead a n s (storeReceived n)) (ErrorOnlyByInit i s) :=
  .burstRead (fun _ => .next (.same rfl)) (fun _ _ _ _ => .next (.same rfl)) (fun _ _ => .same rfl)

theorem ensures_forceIdle_error {p : IdlePlace} {at' : IdlePlace → Pos} {k : State → Result}
    (hk : ∀ out, Ensures (k (s.exchange out)) (ErrorOnlyByInit i s)) :
    Ensures (forceIdle p at' s k) (ErrorOnlyByInit i s) :=
  .forceIdle (fun _ _ out _ => hk out) (fun _ _ _ _ => .same rfl) (fun _ => .same rfl)

/-- However often the stuck detector has recovered, the wait reports no error (R312). -/
theorem ensures_enterRx_error {p : EnterPlace} {at' : EnterPlace → Pos} {o : Pos} {k : State → Result}
    (hk : ∀ out, Ensures (k (s.exchange out)) (ErrorOnlyByInit i s)) :
    Ensures (enterRx p at' o s k) (ErrorOnlyByInit i s) :=
  .enterRx (fun _ _ out _ _ => hk out) (fun _ _ _ _ _ _ _ _ => .same rfl) (fun _ _ _ => .same rfl)
    (fun _ _ out _ _ => .stuckStep at' out) (fun _ _ _ _ _ => .same rfl) (fun _ => .same rfl)

theorem ensures_enterTx_error {p : EnterPlace} {at' : EnterPlace → Pos} {k : State → Result}
    (hk : ∀ out, Ensures (k (s.exchange out)) (ErrorOnlyByInit i s)) :
    Ensures (enterTx p at' s k) (ErrorOnlyByInit i s) :=
  .enterTx (fun _ _ out _ _ => hk out) (fun _ _ _ _ _ _ _ _ => .same rfl) (fun _ _ _ => .same rfl)
    (fun _ _ out _ _ => .stuckStep at' out) (fun _ => .same rfl)

theorem recvCounted_error (l : Nat) (v : Byte) (out : List Byte) :
    Ensures (recvCounted l v (s.exchange out)) (ErrorOnlyByInit i s) :=
  .ite (fun _ => .next (.same rfl)) (fun _ => .next (.same rfl))

theorem initIdentify_error (part ver : Byte) (out : List Byte) :
    Ensures (initIdentify part ver (s.exchange out)) (ErrorOnlyByInit .init s) :=
  .ite (fun _ => .next (.inr ⟨rfl, rfl, rfl⟩)) (fun _ => .next (.same rfl))

theorem OwnStep.error {r : Result} (h : OwnStep i s r) : Ensures r (ErrorOnlyByInit i s) := by
  cases h with
  | initPart | rregRead => exact ensures_regRead_error fun _ _ => .next (.same rfl)
  | initVersion _ part => exact ensures_regRead_error (initIdentify_error part)
  | initFlushRx | initFlushTx => exact ensures_strobe_error fun _ _ => .next (.same rfl)
  | rssiConvert => exact .next (.same rfl)
  | sendEnter | txonWait => exact ensures_enterTx_error fun _ => .next (.same rfl)
  | sendBurst =>
    exact .burstWrite (fun _ => .next (.same rfl)) (fun _ _ => .next (.same rfl)) (fun _ _ => .same rfl)
  | sendPoll =>
    exact ensures_regRead_error fun _ _ => .ite (fun _ => .next (.same rfl)) (fun _ => .next (.same rfl))
  | recvCount _ l => exact ensures_regRead_error (recvCounted_error l)
  | recvBurst => exact ensures_burstRead_error
  | idleWait => exact ensures_forceIdle_error fun _ => .next (.same rfl)
  | rxonWait => exact ensures_enterRx_error fun _ => .next (.same rfl)
  | rxonOverflow => exact ensures_strobe_error fun _ out => .next (.stuckStep _ out)

theorem startOk_error (h : firstError i s = none) : Ensures (startOk i s) (ErrorOnlyByInit i s) := by
  obtain ⟨-, hrange, hlen, -⟩ := firstError_none i s h
  cases i <;> simp only [startOk]
  case nop | irqack => exact .next (.same rfl)
  case init | strobe => exact ensures_strobe_error fun _ _ => .next (.same rfl)
  case rreg | rssi => exact ensures_regRead_error fun _ _ => .next (.same rfl)
  case wreg => exact .txn (fun _ => .next (.same rfl)) (fun _ => .same rfl)
  case brd a l =>
    obtain ⟨-, he⟩ | ⟨-, -, he⟩ | ⟨n, he, -⟩ := readPlan_cases a l
    · simp [hrange] at he
    · simp [hlen] at he
    · rw [he]
      exact ensures_burstRead_error
  case bwr a l =>
    obtain ⟨-, he⟩ | ⟨-, -, he⟩ | ⟨x, he, -⟩ := writePlan_cases a l
    · simp [hrange] at he
    · simp [hlen] at he
    · rw [he]
      have kept : (s.warn x).status.err = s.status.err := by simp
      exact .withBytes fun _ _ _ =>
        .burstWrite (fun _ => .next (.same kept)) (fun _ _ => .next (.same kept)) (fun _ _ => .same kept)
  case send => exact .withBytes fun _ _ _ => ensures_strobe_error fun _ _ => .next (.same rfl)
  case recv l => exact ensures_regRead_error (recvCounted_error l)
  case idle => exact ensures_forceIdle_error fun _ => .next (.same rfl)
  case rxon => exact ensures_enterRx_error fun _ => .next (.same rfl)
  case txon => exact ensures_enterTx_error fun _ => .next (.same rfl)
  case decode =>
    refine .withBytes fun frame _ _ => .next (.same ?_)
    cases codecDecode frame <;> rfl
  case encode | cksum | compose => exact .withBytes fun _ _ _ => .next (.same rfl)

end

/-- Settles O19: a refused start reports the first error of R304; a start that passes, and every later position, report none
but INIT's. -/
theorem noErrorAfterTheChecks : Obligations.NoErrorAfterTheChecks := by
  intro i s t hb ht hne
  by_cases hp : s.pos = .start
  · cases h : firstError i s with
    | some e =>
      rw [exec_refused hp h] at ht
      cases ht
      exact .inl ⟨hp, rfl⟩
    | none =>
      rw [exec_start i s hp h] at ht
      exact .inr ((startOk_error h t ht).resolve_left hne)
  · exact .inr (((exec_ownStep hb hp).error t ht).resolve_left hne)

/-! Where the machine stops. -/

/-- A command that passes its checks goes on from its start, or stops at an undefined byte that it consumes (R308). -/
theorem exec_start_stops {i : Instr} {s : State} (hp : s.pos = .start) (h : firstError i s = none) :
    goesOn (exec i s) ∨
      ∃ b j, inputsDefined i s = false ∧ bufRead s.mem b j = none ∧ exec i s = .fault (.undef b j) := by
  rw [exec_start i s hp h]
  cases hc : consumes i with
  | none => exact .inl (startOk_goesOn h hc)
  | some bn =>
    obtain ⟨b, n⟩ := bn
    obtain ⟨k, hk, hgo⟩ := startOk_consumes h hc
    rw [hk]
    obtain ⟨bytes, hok, -⟩ | ⟨j, -, hj, hn, hs⟩ := bufReadAll_cases s.mem b n
    · rw [withBytes_ok b n s k bytes hok]
      exact .inl (hgo bytes)
    · exact .inr ⟨b, j, by simpa [inputsDefined, hc] using ⟨j, hj, hn⟩, hn, withBytes_undef hj hn hs⟩

theorem State.Inv.sequencerStep_stops {s : State} (h : s.Inv) :
    goesOn s.sequencerStep ∨
      ∃ w i b j, s.seq = .running w .start ∧ decode w = .ok i ∧ inputsDefined i s = false ∧
        bufRead s.mem b j = none ∧ s.sequencerStep = .fault (.undef b j) := by
  unfold State.sequencerStep
  split
  · exact .inl (goes_next s)
  next w k hseq =>
    split
    next i hd =>
      have hpos : s.pos = k := s.pos_running w k hseq
      obtain ⟨-, hplace⟩ := h.place w k hseq
      have hb : belongs i s.pos = true := by simpa [hd, hpos] using hplace
      by_cases hp : s.pos = .start
      · cases he : firstError i s with
        | some e =>
          rw [exec_refused hp he]
          exact .inl (goes_next _)
        | none =>
          obtain hgo | ⟨b, j, hundef, hn, hf⟩ := exec_start_stops hp he
          · exact .inl hgo
          · exact .inr ⟨w, i, b, j, by rw [hseq, ← hpos, hp], hd, hundef, hn, hf⟩
      · exact .inl (exec_ownStep hb hp).goesOn
    next => exact .inl (goes_next _)

/-- Settles O60: only the sequencer can stop, and it has the invariant with the move taken off the schedule. -/
theorem onlyUndefStopsTheMachine : Obligations.OnlyUndefStopsTheMachine := by
  intro s h
  unfold step
  split
  · exact h.sequencerStep_stops
  next e rest hin =>
    cases e with
    | sequencer => exact (h.of_invPart_eq (t := { s with inputs := rest }) rfl).sequencerStep_stops
    | _ => exact .inl (goes_next _)

end Sys2Proof.Machine
end

section
/-! PROOF. RESET, the reset values, and the invariant after reset (spec/70_reset_and_hazards.md R340 to R342). -/

namespace Sys2Proof.Machine

/-! A scheduled move, an idle sequencer, and a buffer never written. -/

/-- The agent that the schedule names moves, and its move leaves the schedule (R311). -/
theorem step_scheduled {s : State} {e : Event} {rest : List Event} (h : s.inputs = e :: rest) :
    step s = State.agentStep { s with inputs := rest } e := by
  simp only [step, h]

theorem sequencerStep_of_idle {s : State} (h : s.seq = .idle) : s.sequencerStep = .next s := by
  simp only [State.sequencerStep, h]

theorem bufRead_nil (b : Buf) (i : Nat) : bufRead [] b i = none := rfl

/-! Reset. -/

theorem Status.reset_word : Status.reset.word = 0 := by decide

/-- The reset values of the block are those RESET gives it. -/
theorem State.reset_resetBlock : State.reset.resetBlock = State.reset := rfl

/-- Settles O15: the move that the schedule names is RESET's. -/
theorem resetEventResetsTheBlock : Obligations.ResetEventResetsTheBlock := by
  intro s rest hin
  calc step s = State.agentStep { s with inputs := rest } .reset := step_scheduled hin
    _ = .next (State.resetBlock { s with inputs := rest }) := rfl
    _ = .next { State.reset with rdy := s.rdy, answers := s.answers, inputs := rest, drawCount := s.drawCount,
                                 trace := s.trace } := rfl

/-- Settles O16: no buffer byte is defined and the sequencer is idle; the registers hold R341's values. -/
theorem resetValues : Obligations.ResetValues := by
  have hbuf : ∀ b i, bufRead State.reset.mem b i = none := bufRead_nil
  have hwait : State.reset.sequencerStep = .next State.reset := sequencerStep_of_idle rfl
  exact ⟨rfl, Status.reset_word, rfl, rfl, rfl, rfl, rfl, rfl, rfl, rfl, rfl, hbuf, rfl, rfl, rfl, hwait⟩

/-- Settles O58: RESET ends in the invariant from any state, so also from the reset state, which it does not change. -/
theorem resetHasTheInvariant : Obligations.ResetHasTheInvariant := by
  have h : State.reset.resetBlock.Inv := State.reset.resetBlock_inv
  rwa [State.reset_resetBlock] at h

end Sys2Proof.Machine
end
